-- ==== Sys2Proof/Word.lean ====
section
/-! DEFINITION. The word types of the FW128 CORE: the 32-bit word of LM and of the host bus (00_scope.md R9, R18)
and the 64-bit word of a command, of RES and of ERRCMD. -/

namespace Sys2Proof

/-- A 32-bit word: one LM word, one host transfer's data (R9, R74). -/
abbrev Word := BitVec 32

/-- A 64-bit word: a command word, RES, ERRCMD (R9, R34, R43). -/
abbrev DWord := BitVec 64

end Sys2Proof
end

