-- ==== Sys2Proof/Config.lean ====
section
/-! DEFINITION. What an implementation of the FW128 CORE fixes and the spec leaves open, as constants with no body:
nothing can be proved of their values. `LM_WORDS` is no constant here: it is the field `lmWords` of State
(notes/assumptions/3.md), because the host can read it in ID. -/

namespace Sys2Proof

/-- One cycle less than `LAT(op)`, per opcode (00_scope.md R9, 70_reset_and_hazards.md R272; notes/assumptions/4.md). -/
opaque Config.latExtra : BitVec 6 → Nat

/-- `LAT(op)`: the cycles from a command's issue to its completion, at least 1 and a function of OP only (R272). -/
def Config.lat (op : BitVec 6) : Nat := Config.latExtra op + 1

/-- The number of 64 KiB blocks below the host window (20_memory.md R78; notes/assumptions/4.md). -/
opaque Config.baseBlock : Nat

/-- `FW128_BASE`: a 64 KiB-aligned host address (93_implementation_defined.md U8). -/
def Config.fw128Base : Nat := 65536 * Config.baseBlock

/-- The free 32-bit value of the n-th draw: what the spec calls unspecified (R262, R264; notes/assumptions/8.md, 9.md, 10.md). -/
opaque Config.freeWord : Nat → Word

/-- The free hidden latency of the n-th draw: how many cycles before its completion a command's result and its fault
record are committed (10_state.md R47, 70_reset_and_hazards.md R270, R273; notes/assumptions/6.md). -/
opaque Config.freeLead : Nat → Nat

end Sys2Proof
end

