-- ==== Sys2Proof/Syntax.lean ====
section
/-! DEFINITION. The commands of the FW128 CORE as syntax: one constructor per row of spec/opcode_table.json
(30_encoding.md R97), with the limb view W and the operand fields the row uses. -/

namespace Sys2Proof

/-- The limb view W (30_encoding.md R92): `w32` is W = 0 (4 limbs of 32 bits), `w64` is W = 1 (2 limbs of 64 bits). -/
inductive View where
  | w32
  | w64
deriving DecidableEq, Repr

/-- One command (R97). An operand is a field value in limbs of the view, as in the assembler syntax of R106: `a`, `b`
and `c` are the address fields A, B and C (R94), and `n` is GETBIT's signed bit index (R95). Their ranges are
checked by `WellFormed`. -/
inductive Instr where
  /-- CLR C: zero a Nat128 (R120). -/
  | clr (w : View) (c : Nat)
  /-- CLRX C: zero a Nat256 (R121). -/
  | clrx (w : View) (c : Nat)
  /-- ADD C, A, B: z ← x + y (R130). -/
  | add (w : View) (a b c : Nat)
  /-- ADDTO C, A: z ← x + z (R132). -/
  | addto (w : View) (a c : Nat)
  /-- ADDTOC C, A: z ← x + z + cin, cin from RES (R134). -/
  | addtoc (w : View) (a c : Nat)
  /-- ADDBOTH C, A, B: z ← x + y + z (R136). -/
  | addboth (w : View) (a b c : Nat)
  /-- ADDEACH A, C: u ← v ← u + v (R138). -/
  | addeach (w : View) (a c : Nat)
  /-- SUB C, A, B: z ← x − y (R140). -/
  | sub (w : View) (a b c : Nat)
  /-- SUBFROM C, A: z ← z − x (R141). -/
  | subfrom (w : View) (a c : Nat)
  /-- SUBFROMB C, A: z ← z − x + bin, bin from RES (R142). -/
  | subfromb (w : View) (a c : Nat)
  /-- SUBBOTH C, A, B: z ← z − x − y (R143). -/
  | subboth (w : View) (a b c : Nat)
  /-- DIFF C, A, B: z ← |x − y|, RES ← (x ≥ y) (R145). -/
  | diff (w : View) (a b c : Nat)
  /-- MUL C, A, B: zz ← x · y (R170). -/
  | mul (w : View) (a b c : Nat)
  /-- MULADD C, A, B: zz ← zz + x · y (R172). -/
  | muladd (w : View) (a b c : Nat)
  /-- SQR C, A: zz ← x² (R174). -/
  | sqr (w : View) (a c : Nat)
  /-- EQ A, B: RES ← (x = y) (R190). -/
  | eq (w : View) (a b : Nat)
  /-- GTE A, B: RES ← (x ≥ y) (R191). -/
  | gte (w : View) (a b : Nat)
  /-- ISZERO A: RES ← (x = 0) (R192). -/
  | iszero (w : View) (a : Nat)
  /-- ISONE A: RES ← (x = 1) (R193). -/
  | isone (w : View) (a : Nat)
  /-- GETBIT A, #n: RES ← bit n of x, 0 outside 0..127 (R194). -/
  | getbit (w : View) (a : Nat) (n : Int)
  /-- TOBI C, A: write the BI image of x (R212). -/
  | tobi (w : View) (a c : Nat)
  /-- FROMBI C, A: read a BI image into x (R214). -/
  | frombi (w : View) (a c : Nat)
deriving DecidableEq, Repr

/-- The pseudo-instruction LE A, B (R107). -/
def Instr.le (w : View) (a b : Nat) : Instr := .gte w b a

/-- The pseudo-instruction DBL C (R107). -/
def Instr.dbl (w : View) (c : Nat) : Instr := .addto w c c

/-- The pseudo-instruction LOWBIT A (R107). -/
def Instr.lowbit (w : View) (a : Nat) : Instr := .getbit w a 0

/-- The pseudo-instruction TOPBIT A (R107). -/
def Instr.topbit (w : View) (a : Nat) : Instr := .getbit w a 127

end Sys2Proof
end

