-- ==== Sys2Proof/WellFormed.lean ====
section
/-! DEFINITION. Which commands have an encoding: every address field in 0 to 4095 (30_encoding.md R94) and GETBIT's
index in the signed 20-bit range (R95). R106: an operand out of range is an assembly error, not an encoding. -/

namespace Sys2Proof

/-- An address field value that fits its 12 bits (R94). -/
abbrev FieldOk (f : Nat) : Prop := f ≤ 4095

/-- A bit index that fits the signed 20-bit IMM (R95). -/
abbrev IndexOk (n : Int) : Prop := -524288 ≤ n ∧ n ≤ 524287

/-- Every operand of the command is in range (R106). -/
@[simp] def WellFormed : Instr → Prop
  | .clr _ c => FieldOk c
  | .clrx _ c => FieldOk c
  | .add _ a b c => FieldOk a ∧ FieldOk b ∧ FieldOk c
  | .addto _ a c => FieldOk a ∧ FieldOk c
  | .addtoc _ a c => FieldOk a ∧ FieldOk c
  | .addboth _ a b c => FieldOk a ∧ FieldOk b ∧ FieldOk c
  | .addeach _ a c => FieldOk a ∧ FieldOk c
  | .sub _ a b c => FieldOk a ∧ FieldOk b ∧ FieldOk c
  | .subfrom _ a c => FieldOk a ∧ FieldOk c
  | .subfromb _ a c => FieldOk a ∧ FieldOk c
  | .subboth _ a b c => FieldOk a ∧ FieldOk b ∧ FieldOk c
  | .diff _ a b c => FieldOk a ∧ FieldOk b ∧ FieldOk c
  | .mul _ a b c => FieldOk a ∧ FieldOk b ∧ FieldOk c
  | .muladd _ a b c => FieldOk a ∧ FieldOk b ∧ FieldOk c
  | .sqr _ a c => FieldOk a ∧ FieldOk c
  | .eq _ a b => FieldOk a ∧ FieldOk b
  | .gte _ a b => FieldOk a ∧ FieldOk b
  | .iszero _ a => FieldOk a
  | .isone _ a => FieldOk a
  | .getbit _ a n => FieldOk a ∧ IndexOk n
  | .tobi _ a c => FieldOk a ∧ FieldOk c
  | .frombi _ a c => FieldOk a ∧ FieldOk c

end Sys2Proof
end

