-- ==== Sys2Proof/Decode.lean ====
section
/-! DEFINITION. The 64-bit command word (30_encoding.md R90-R105): its fields, the decoder of R96, the encoder of R91
and R97, and the match and mask columns of R97. The decoder is total: a word is one command or is rejected by name. -/

namespace Sys2Proof

/-- Why a word is no command (R96); both are faults the core records (60_exceptions.md R232). -/
inductive DecodeError where
  /-- OP is not assigned (R102). -/
  | illegalOpcode
  /-- RSV is 1 or a field the command does not use is not 0 (R93, R98). -/
  | reservedField
deriving DecidableEq, Repr

/-- The fields of the format F64 (R91). -/
structure Fields where
  op  : BitVec 6
  w   : BitVec 1
  rsv : BitVec 1
  a   : BitVec 12
  b   : BitVec 12
  c   : BitVec 12
  imm : BitVec 20
deriving DecidableEq, Repr

/-- The fields of a command word (R91, R96). -/
def fieldsOf (cw : DWord) : Fields where
  op  := cw.extractLsb' 0 6
  w   := cw.extractLsb' 6 1
  rsv := cw.extractLsb' 7 1
  a   := cw.extractLsb' 8 12
  b   := cw.extractLsb' 20 12
  c   := cw.extractLsb' 32 12
  imm := cw.extractLsb' 44 20

/-- The command word with the given fields (R91). -/
def wordOf (f : Fields) : DWord :=
  f.imm ++ (f.c ++ (f.b ++ (f.a ++ (f.rsv ++ (f.w ++ f.op)))))

/-- The limb view that bit W selects (R92). -/
def viewOf (w : BitVec 1) : View := if w = 1 then .w64 else .w32

/-- The bit W of a limb view (R92). -/
def viewBit : View → BitVec 1
  | .w32 => 0
  | .w64 => 1

/-- The command an assigned OP names, with the fields it uses (R97, R99); none for the values of R102. -/
def assignedOp (f : Fields) : Option Instr :=
  let w := viewOf f.w
  let a := f.a.toNat
  let b := f.b.toNat
  let c := f.c.toNat
  match f.op.toNat with
  | 0x01 => some (.clr w c)
  | 0x02 => some (.clrx w c)
  | 0x08 => some (.add w a b c)
  | 0x09 => some (.addto w a c)
  | 0x0A => some (.addtoc w a c)
  | 0x0B => some (.addboth w a b c)
  | 0x0C => some (.addeach w a c)
  | 0x10 => some (.sub w a b c)
  | 0x11 => some (.subfrom w a c)
  | 0x12 => some (.subfromb w a c)
  | 0x13 => some (.subboth w a b c)
  | 0x14 => some (.diff w a b c)
  | 0x18 => some (.mul w a b c)
  | 0x19 => some (.muladd w a b c)
  | 0x1A => some (.sqr w a c)
  | 0x20 => some (.eq w a b)
  | 0x21 => some (.gte w a b)
  | 0x22 => some (.iszero w a)
  | 0x23 => some (.isone w a)
  | 0x24 => some (.getbit w a f.imm.toInt)
  | 0x28 => some (.tobi w a c)
  | 0x29 => some (.frombi w a c)
  | _ => none

/-- The opcode of a command (R97). -/
def opcode : Instr → BitVec 6
  | .clr .. => 0x01
  | .clrx .. => 0x02
  | .add .. => 0x08
  | .addto .. => 0x09
  | .addtoc .. => 0x0A
  | .addboth .. => 0x0B
  | .addeach .. => 0x0C
  | .sub .. => 0x10
  | .subfrom .. => 0x11
  | .subfromb .. => 0x12
  | .subboth .. => 0x13
  | .diff .. => 0x14
  | .mul .. => 0x18
  | .muladd .. => 0x19
  | .sqr .. => 0x1A
  | .eq .. => 0x20
  | .gte .. => 0x21
  | .iszero .. => 0x22
  | .isone .. => 0x23
  | .getbit .. => 0x24
  | .tobi .. => 0x28
  | .frombi .. => 0x29

/-- The fields of a command: a field it does not use is 0 (R97, R98). -/
def encodeFields (i : Instr) : Fields :=
  let z (w : View) : Fields := { op := opcode i, w := viewBit w, rsv := 0, a := 0, b := 0, c := 0, imm := 0 }
  let fc (w : View) (c : Nat) : Fields := { z w with c := .ofNat 12 c }
  let fac (w : View) (a c : Nat) : Fields := { z w with a := .ofNat 12 a, c := .ofNat 12 c }
  let fab (w : View) (a b : Nat) : Fields := { z w with a := .ofNat 12 a, b := .ofNat 12 b }
  let fabc (w : View) (a b c : Nat) : Fields := { fab w a b with c := .ofNat 12 c }
  match i with
  | .clr w c => fc w c
  | .clrx w c => fc w c
  | .add w a b c => fabc w a b c
  | .addto w a c => fac w a c
  | .addtoc w a c => fac w a c
  | .addboth w a b c => fabc w a b c
  | .addeach w a c => fac w a c
  | .sub w a b c => fabc w a b c
  | .subfrom w a c => fac w a c
  | .subfromb w a c => fac w a c
  | .subboth w a b c => fabc w a b c
  | .diff w a b c => fabc w a b c
  | .mul w a b c => fabc w a b c
  | .muladd w a b c => fabc w a b c
  | .sqr w a c => fac w a c
  | .eq w a b => fab w a b
  | .gte w a b => fab w a b
  | .iszero w a => { z w with a := .ofNat 12 a }
  | .isone w a => { z w with a := .ofNat 12 a }
  | .getbit w a n => { z w with a := .ofNat 12 a, imm := .ofInt 20 n }
  | .tobi w a c => fac w a c
  | .frombi w a c => fac w a c

/-- Which of A, B, C and IMM a command uses (R97, column "fields"). -/
structure UsedFields where
  a   : Bool := false
  b   : Bool := false
  c   : Bool := false
  imm : Bool := false
deriving DecidableEq, Repr

/-- The "fields" column of R97. -/
def usedFields : Instr → UsedFields
  | .clr .. => { c := true }
  | .clrx .. => { c := true }
  | .add .. => { a := true, b := true, c := true }
  | .addto .. => { a := true, c := true }
  | .addtoc .. => { a := true, c := true }
  | .addboth .. => { a := true, b := true, c := true }
  | .addeach .. => { a := true, c := true }
  | .sub .. => { a := true, b := true, c := true }
  | .subfrom .. => { a := true, c := true }
  | .subfromb .. => { a := true, c := true }
  | .subboth .. => { a := true, b := true, c := true }
  | .diff .. => { a := true, b := true, c := true }
  | .mul .. => { a := true, b := true, c := true }
  | .muladd .. => { a := true, b := true, c := true }
  | .sqr .. => { a := true, c := true }
  | .eq .. => { a := true, b := true }
  | .gte .. => { a := true, b := true }
  | .iszero .. => { a := true }
  | .isone .. => { a := true }
  | .getbit .. => { a := true, imm := true }
  | .tobi .. => { a := true, c := true }
  | .frombi .. => { a := true, c := true }

/-- Every field of `f` that `u` leaves unused is 0 (R98). -/
def unusedZero (u : UsedFields) (f : Fields) : Bool :=
  (u.a || f.a == 0) && (u.b || f.b == 0) && (u.c || f.c == 0) && (u.imm || f.imm == 0)

/-- The decoder, with its checks in the order of R96: the opcode, then RSV, then the unused fields. -/
def decode (cw : DWord) : Except DecodeError Instr :=
  match assignedOp (fieldsOf cw) with
  | none => .error .illegalOpcode
  | some i =>
    if (fieldsOf cw).rsv ≠ 0 then .error .reservedField
    else if unusedZero (usedFields i) (fieldsOf cw) then .ok i
    else .error .reservedField

/-- The command word of a command (R91, R97). -/
def encode (i : Instr) : DWord := wordOf (encodeFields i)

/-- A command word as the two 32-bit words the host writes: CMD_LO, then CMD_HI (R91). -/
def cmdWords (cw : DWord) : Word × Word := (cw.extractLsb' 0 32, cw.extractLsb' 32 32)

/-- The command word that CMD_LO and CMD_HI hold, CMD_HI in the upper half (10_state.md R41). -/
def joinWords (lo hi : Word) : DWord := hi ++ lo

/-- One row of the opcode table of R97: a word selects it when `cw &&& mask = base`. -/
structure OpRow where
  op : BitVec 6
  mnemonic : String
  base : DWord
  mask : DWord
deriving DecidableEq, Repr

/-- The opcode table of R97, with its match and mask columns as they stand there. -/
def opcodeTable : List OpRow :=
  [⟨0x01, "CLR",      0x0000000000000001, 0xFFFFF000FFFFFFBF⟩,
   ⟨0x02, "CLRX",     0x0000000000000002, 0xFFFFF000FFFFFFBF⟩,
   ⟨0x08, "ADD",      0x0000000000000008, 0xFFFFF000000000BF⟩,
   ⟨0x09, "ADDTO",    0x0000000000000009, 0xFFFFF000FFF000BF⟩,
   ⟨0x0A, "ADDTOC",   0x000000000000000A, 0xFFFFF000FFF000BF⟩,
   ⟨0x0B, "ADDBOTH",  0x000000000000000B, 0xFFFFF000000000BF⟩,
   ⟨0x0C, "ADDEACH",  0x000000000000000C, 0xFFFFF000FFF000BF⟩,
   ⟨0x10, "SUB",      0x0000000000000010, 0xFFFFF000000000BF⟩,
   ⟨0x11, "SUBFROM",  0x0000000000000011, 0xFFFFF000FFF000BF⟩,
   ⟨0x12, "SUBFROMB", 0x0000000000000012, 0xFFFFF000FFF000BF⟩,
   ⟨0x13, "SUBBOTH",  0x0000000000000013, 0xFFFFF000000000BF⟩,
   ⟨0x14, "DIFF",     0x0000000000000014, 0xFFFFF000000000BF⟩,
   ⟨0x18, "MUL",      0x0000000000000018, 0xFFFFF000000000BF⟩,
   ⟨0x19, "MULADD",   0x0000000000000019, 0xFFFFF000000000BF⟩,
   ⟨0x1A, "SQR",      0x000000000000001A, 0xFFFFF000FFF000BF⟩,
   ⟨0x20, "EQ",       0x0000000000000020, 0xFFFFFFFF000000BF⟩,
   ⟨0x21, "GTE",      0x0000000000000021, 0xFFFFFFFF000000BF⟩,
   ⟨0x22, "ISZERO",   0x0000000000000022, 0xFFFFFFFFFFF000BF⟩,
   ⟨0x23, "ISONE",    0x0000000000000023, 0xFFFFFFFFFFF000BF⟩,
   ⟨0x24, "GETBIT",   0x0000000000000024, 0x00000FFFFFF000BF⟩,
   ⟨0x28, "TOBI",     0x0000000000000028, 0xFFFFF000FFF000BF⟩,
   ⟨0x29, "FROMBI",   0x0000000000000029, 0xFFFFF000FFF000BF⟩]

/-- The word selects the row (R97). -/
abbrev OpRow.selects (r : OpRow) (cw : DWord) : Prop := cw &&& r.mask = r.base

/-- The instruction the decoder reads from the command word whose bits are `w` (numbered as spec/opcode_table.json
numbers them); bits at and above `nbits` are 0. -/
def decodeTableWord (nbits w : Nat) : Option Instr :=
  match decode (BitVec.ofNat 64 (w % 2 ^ nbits)) with
  | .ok i => some i
  | .error _ => none

end Sys2Proof
end

