-- ==== Sys2Proof/Machine/State.lean ====
section
/-! DEFINITION. The state of the FW128 CORE (10_state.md R49), with the host's coming stimulus and the counter of free
values beside it, the reasons a step can stop, and the state right after reset. -/

namespace Sys2Proof.Machine

/-- One written LM word: its word address and its value (20_memory.md R60; notes/assumptions/1.md). -/
abbrev Cell := Nat × Word

/-- LM as the list of the words written since power-up, addresses strictly rising. A word that is not listed has no
value (10_state.md R33; notes/assumptions/2.md). -/
abbrev Memory := List Cell

/-- One host transfer (20_memory.md R70, R74): the word address `h_addr[15:2]` and, for a write, the data. -/
inductive Transfer where
  | read (addr : BitVec 14)
  | write (addr : BitVec 14) (data : Word)
deriving DecidableEq, Repr

/-- What the host drives at one rising edge of `clk` (20_memory.md R70, 70_reset_and_hazards.md R261). -/
inductive HostEvent where
  /-- `rst` = 0 and no transfer is requested. -/
  | idle
  /-- `rst` = 0 and a transfer is requested; the host holds it until it completes. -/
  | transfer (t : Transfer)
  /-- `rst` = 1, with the transfer in progress at that edge, if there is one. -/
  | reset (t : Option Transfer)
deriving DecidableEq, Repr

/-- Where the block stands in its reset sequence (R262, R264; notes/assumptions/9.md, 10.md). -/
inductive Phase where
  /-- No reset edge has come since power-up. -/
  | unreset
  /-- `rst` was 1 at the last edge. -/
  | resetHeld
  /-- A reset has come and `rst` was 0 at the last edge. -/
  | running
deriving DecidableEq, Repr

/-- A command in flight (10_state.md R42, R47). -/
structure Flight where
  /-- The command word that was issued. -/
  word : DWord
  /-- The edges left until the command completes; at least 1. -/
  remaining : Nat
  /-- How many edges before its completion the command's result is committed (free; notes/assumptions/6.md). -/
  lead : Nat
  /-- The result, or the fault record, has been committed. -/
  done : Bool
deriving DecidableEq, Repr

/-- The state of the block and its host. -/
structure State where
  /-- The operand store LM (R32). -/
  lm : Memory
  /-- RES (R34). -/
  res : DWord
  /-- STATUS.ERR (R38). -/
  err : Bool
  /-- STATUS.DROP (R38). -/
  drop : Bool
  /-- STATUS.CAUSE (R38). -/
  cause : BitVec 4
  /-- ERRCMD (R43). -/
  errCmd : DWord
  /-- CMD_LO (R41). -/
  cmdLo : Word
  /-- CMD_HI (R41). -/
  cmdHi : Word
  /-- LM_WORDS, the parameter that ID shows (R9, R40; notes/assumptions/3.md). -/
  lmWords : Nat
  /-- The command in flight; STATUS.BUSY is 1 exactly when there is one (R42). -/
  flight : Option Flight
  /-- Where the block stands in its reset sequence. -/
  phase : Phase
  /-- `h_ready`: the transfer presented at the last edge completed there (R70; notes/assumptions/7.md). -/
  hReady : Bool
  /-- `h_rdata`: the data of the last read that completed (R70; notes/assumptions/7.md). -/
  hRdata : Word
  /-- What the host drives at the coming edges, the next one first (the model's own; notes/assumptions/5.md). -/
  host : List HostEvent
  /-- How many free values have been drawn (the model's own; notes/assumptions/14.md). -/
  draws : Nat
deriving DecidableEq, Repr

/-- Why the model stops. -/
inductive Fault where
  /-- A command or a host transfer reads LM word `addr`, which nothing has written since power-up: it has no value
  (10_state.md R33, 93_implementation_defined.md U1; notes/assumptions/2.md). Raised by every command that reads
  operands and by a host read of LM. Safe: the hardware goes on with whatever bits the word holds. -/
  | unwrittenWord (addr : Nat)
deriving DecidableEq, Repr

/-- Why the model gives no meaning. -/
inductive Refusal where
  /-- An instruction without a meaning yet, by its mnemonic. Safe. No arm of `exec` answers it. -/
  | notModelled (mnemonic : String)
  /-- A host transfer before the first reset since power-up, which the host must not make (70_reset_and_hazards.md
  R264, 93_implementation_defined.md U11; notes/assumptions/10.md). Raised by `step`. Safe. -/
  | beforeFirstReset
deriving DecidableEq, Repr

/-- The block with `lmWords` LM words right after reset: the values of R49, LM with no word written (R33), no command in
flight (R263). The bus outputs, the stimulus and the draw counter are the model's own (notes/assumptions/5.md, 7.md, 14.md). -/
def State.resetOf (lmWords : Nat) : State where
  lm := []
  res := 0
  err := false
  drop := false
  cause := 0
  errCmd := 0
  cmdLo := 0
  cmdHi := 0
  lmWords := lmWords
  flight := none
  phase := .resetHeld
  hReady := false
  hRdata := 0
  host := []
  draws := 0

/-- The machine right after reset, at the reference value of LM_WORDS (00_scope.md R9; notes/assumptions/3.md). -/
def State.reset : State := State.resetOf 1024

end Sys2Proof.Machine
end

