-- ==== Sys2Proof/Machine/Operands.lean ====
section
/-! DEFINITION. The operands of a command: the word address of an address field (20_memory.md R64), the regions a command
names in the order of its `chk` calls, the regions it writes (R65), and the limbs of a value in a view (R62, R63). -/

namespace Sys2Proof.Machine

/-- A region of LM: its word address and its length in words (R65). -/
structure Region where
  addr : Nat
  len : Nat
deriving DecidableEq, Repr

/-- The address `j` lies in the region. -/
abbrev Region.has (r : Region) (j : Nat) : Prop := r.addr ≤ j ∧ j < r.addr + r.len

/-- The region lies inside an LM of `lmWords` words (R66). -/
abbrev Region.inside (r : Region) (lmWords : Nat) : Prop := r.addr + r.len ≤ lmWords

/-- `ea(f)`: the word address of an address field (R64). -/
def ea : View → Nat → Nat
  | .w32, f => f
  | .w64, f => 2 * f

/-- LW, the limb width of a view in bits (00_scope.md R9). -/
def limbWidth : View → Nat
  | .w32 => 32
  | .w64 => 64

/-- The region of a Nat128 operand field (R65). -/
def nat128 (w : View) (f : Nat) : Region := ⟨ea w f, 4⟩

/-- The region of a Nat256 operand field (R65). -/
def nat256 (w : View) (f : Nat) : Region := ⟨ea w f, 8⟩

/-- The region of the BI image TOBI writes (R65). -/
def tobiImage (w : View) (f : Nat) : Region := ⟨ea w f, 5⟩

/-- The header word of the BI image FROMBI reads (R65). -/
def biHeader (w : View) (f : Nat) : Region := ⟨ea w f, 1⟩

/-- NBYTES of a BI header (44_conversion.md R210). -/
def biBytes (hdr : Word) : Nat := (hdr.extractLsb' 0 16).toNat

/-- SIGN of a BI header (R210). -/
def biSign (hdr : Word) : Bool := hdr.getLsbD 31

/-- The magnitude words of a BI image with `nb` bytes (R210). -/
def biWords (nb : Nat) : Nat := (nb + 3) / 4

/-- The whole BI image that a header at a field announces (R65). -/
def frombiImage (w : View) (f : Nat) (hdr : Word) : Region := ⟨ea w f, 1 + biWords (biBytes hdr)⟩

/-- The regions whose place the command word alone fixes, in the order its rule lists the `chk` calls
(60_exceptions.md R240). FROMBI checks its whole image besides, once it has read the header (R214). -/
def namedRegions : Instr → List Region
  | .clr w c => [nat128 w c]
  | .clrx w c => [nat256 w c]
  | .add w a b c => [nat128 w a, nat128 w b, nat128 w c]
  | .addto w a c => [nat128 w a, nat128 w c]
  | .addtoc w a c => [nat128 w a, nat128 w c]
  | .addboth w a b c => [nat128 w a, nat128 w b, nat128 w c]
  | .addeach w a c => [nat128 w a, nat128 w c]
  | .sub w a b c => [nat128 w a, nat128 w b, nat128 w c]
  | .subfrom w a c => [nat128 w a, nat128 w c]
  | .subfromb w a c => [nat128 w a, nat128 w c]
  | .subboth w a b c => [nat128 w a, nat128 w b, nat128 w c]
  | .diff w a b c => [nat128 w a, nat128 w b, nat128 w c]
  | .mul w a b c => [nat128 w a, nat128 w b, nat256 w c]
  | .muladd w a b c => [nat128 w a, nat128 w b, nat256 w c]
  | .sqr w a c => [nat128 w a, nat256 w c]
  | .eq w a b => [nat128 w a, nat128 w b]
  | .gte w a b => [nat128 w a, nat128 w b]
  | .iszero w a => [nat128 w a]
  | .isone w a => [nat128 w a]
  | .getbit w a _ => [nat128 w a]
  | .tobi w a c => [nat128 w a, tobiImage w c]
  | .frombi w a c => [biHeader w a, nat128 w c]

/-- The destination regions of a command, in the order it writes them (R65, R69). -/
def destRegions : Instr → List Region
  | .clr w c => [nat128 w c]
  | .clrx w c => [nat256 w c]
  | .add w _ _ c => [nat128 w c]
  | .addto w _ c => [nat128 w c]
  | .addtoc w _ c => [nat128 w c]
  | .addboth w _ _ c => [nat128 w c]
  | .addeach w a c => [nat128 w a, nat128 w c]
  | .sub w _ _ c => [nat128 w c]
  | .subfrom w _ c => [nat128 w c]
  | .subfromb w _ c => [nat128 w c]
  | .subboth w _ _ c => [nat128 w c]
  | .diff w _ _ c => [nat128 w c]
  | .mul w _ _ c => [nat256 w c]
  | .muladd w _ _ c => [nat256 w c]
  | .sqr w _ c => [nat256 w c]
  | .eq .. => []
  | .gte .. => []
  | .iszero .. => []
  | .isone .. => []
  | .getbit .. => []
  | .tobi w _ c => [tobiImage w c]
  | .frombi w _ c => [nat128 w c]

/-- The limbs of a value, least significant first (00_scope.md R11): `n` limbs of `width` bits. -/
def limbsOf (width : Nat) : Nat → Nat → List Nat
  | 0, _ => []
  | n + 1, v => v % 2 ^ width :: limbsOf width n (v / 2 ^ width)

/-- The value of a list of limbs of `width` bits, least significant first (R11, R18). -/
def ofLimbs (width : Nat) : List Nat → Nat
  | [] => 0
  | l :: ls => l + 2 ^ width * ofLimbs width ls

end Sys2Proof.Machine
end

