-- ==== Sys2Proof/Machine/Flags.lean ====
section
/-! DEFINITION. The scalar results of the commands. The block has no condition codes (10_state.md R44): every carry,
borrow, comparison and bit goes to RES as a 64-bit two's-complement integer (R34), and ADDTOC and SUBFROMB read
their carry-in and borrow-in from it (R36). -/

namespace Sys2Proof.Machine

/-- `RES <- v`: the 64-bit two's-complement pattern of an integer (00_scope.md R18, 10_state.md R34). -/
def scalar (v : Int) : DWord := BitVec.ofInt 64 v

/-- A Boolean or bit result: 0 or 1, zero-extended (R34; 92_eei_decisions.md D31). -/
def boolScalar (b : Bool) : DWord := if b then 1 else 0

/-- The carry or borrow out of a result of `bits` bits: floor division (00_scope.md R18). -/
def carryOut (bits : Nat) (v : Int) : Int := v / 2 ^ bits

/-- The part of an exact result that a region of `bits` bits holds (00_scope.md R13). -/
def lowPart (bits : Nat) (v : Int) : Nat := (v % 2 ^ bits).toNat

/-- The carry-in of ADDTOC: the low LW bits of RES, unsigned (R36, 41_additive.md R134). -/
def carryIn (w : View) (res : DWord) : Nat :=
  match w with
  | .w32 => (res.extractLsb' 0 32).toNat
  | .w64 => res.toNat

/-- The borrow-in of SUBFROMB: the low LW bits of RES, signed (R36, 41_additive.md R142). -/
def borrowIn (w : View) (res : DWord) : Int :=
  match w with
  | .w32 => (res.extractLsb' 0 32).toInt
  | .w64 => res.toInt

/-- GETBIT's bit: bit n of x, and 0 for an index outside 0 to 127 (43_relational.md R194). -/
def bitAt (x : Nat) (n : Int) : Bool := decide (0 ≤ n ∧ n ≤ 127) && x.testBit n.toNat

end Sys2Proof.Machine
end

