-- ==== Sys2Proof/Machine/Ops.lean ====
section
/-! DEFINITION. The shared operations: LM (00_scope.md R18), the frame every command runs in (R20), taking a fault and
returning from one (60_exceptions.md R235-R237), and the arithmetic shapes the command families share. -/

namespace Sys2Proof.Machine

/-! ## LM -/

/-- The value of LM word `a`, none when it was never written (10_state.md R33). -/
def Memory.read : Memory → Nat → Option Word
  | [], _ => none
  | (b, u) :: m, a => if a = b then some u else Memory.read m a

/-- `LM[a] <- v`, keeping the addresses strictly rising. -/
def Memory.write : Memory → Nat → Word → Memory
  | [], a, v => [(a, v)]
  | (b, u) :: m, a, v =>
    if a < b then (a, v) :: (b, u) :: m
    else if a = b then (a, v) :: m
    else (b, u) :: Memory.write m a v

/-- Every listed address is at least `lo` and the addresses rise strictly. -/
def Memory.risingFrom : Nat → Memory → Bool
  | _, [] => true
  | lo, (b, _) :: m => decide (lo ≤ b) && Memory.risingFrom (b + 1) m

/-- The canonical form of LM: addresses strictly rising (notes/assumptions/1.md). An unlisted word has no value, so no
entry can equal it. -/
def Memory.wf (m : Memory) : Bool := Memory.risingFrom 0 m

/-- `MemWrite(a, n, v)`: n words, the least significant at the lowest address (R18). -/
def Memory.writeWords : Memory → Nat → Nat → Nat → Memory
  | m, _, 0, _ => m
  | m, a, n + 1, v => Memory.writeWords (Memory.write m a (BitVec.ofNat 32 v)) (a + 1) n (v / 2 ^ 32)

/-- Writes of single words at rising addresses, in order (44_conversion.md R212). -/
def Memory.writeList : Memory → Nat → List Word → Memory
  | m, _, [] => m
  | m, a, v :: vs => Memory.writeList (Memory.write m a v) (a + 1) vs

/-! ## The frame of a command -/

/-- Why a command does not commit. -/
inductive Stop where
  /-- A fault the core records (R231). -/
  | cause (k : BitVec 4)
  /-- An operand word that was never written: the model's own fault (notes/assumptions/2.md). -/
  | unwritten (addr : Nat)
deriving DecidableEq, Repr

/-- ILLEGAL_OPCODE (R231). -/
def causeIllegalOpcode : BitVec 4 := 1

/-- RESERVED_FIELD (R231). -/
def causeReservedField : BitVec 4 := 2

/-- ADDR_RANGE (R231). -/
def causeAddrRange : BitVec 4 := 3

/-- RANGE_VIOLATION (R231). -/
def causeRangeViolation : BitVec 4 := 4

/-- The cause code of a rejected command word (R232). -/
def decodeCause : DecodeError → BitVec 4
  | .illegalOpcode => causeIllegalOpcode
  | .reservedField => causeReservedField

/-- `chk` of one region (00_scope.md R18, 20_memory.md R66): it never reads LM. -/
def chk (s : State) (r : Region) : Except Stop Unit :=
  if r.addr + r.len ≤ s.lmWords then .ok () else .error (.cause causeAddrRange)

/-- `chk` of several regions, in order (R20 step 2). -/
def chkAll (s : State) : List Region → Except Stop Unit
  | [] => .ok ()
  | r :: rs =>
    match chk s r with
    | .ok _ => chkAll s rs
    | .error e => .error e

/-- One LM word of the snapshot (R19). -/
def readWord (m : Memory) (a : Nat) : Except Stop Word :=
  match Memory.read m a with
  | some v => .ok v
  | none => .error (.unwritten a)

/-- The n words from address a, in order. -/
def readWords (m : Memory) : Nat → Nat → Except Stop (List Word)
  | _, 0 => .ok []
  | a, n + 1 =>
    match readWord m a with
    | .error e => .error e
    | .ok v =>
      match readWords m (a + 1) n with
      | .error e => .error e
      | .ok vs => .ok (v :: vs)

/-- The value of a list of words, least significant first (R62). -/
def valueOf : List Word → Nat
  | [] => 0
  | v :: vs => v.toNat + 2 ^ 32 * valueOf vs

/-- `MemRead` of a region (00_scope.md R18). -/
def memRead (m : Memory) (r : Region) : Except Stop Nat :=
  match readWords m r.addr r.len with
  | .ok vs => .ok (valueOf vs)
  | .error e => .error e

/-- Fault entry (60_exceptions.md R235): ERR, CAUSE and ERRCMD are written and nothing else changes. -/
def takeFault (k : BitVec 4) (cw : DWord) (s : State) : State :=
  { s with err := true, cause := k, errCmd := cw }

/-- Return from a fault (R237, 10_state.md R39): ERR, DROP and CAUSE become 0; ERRCMD stays. -/
def clearFault (s : State) : State :=
  { s with err := false, drop := false, cause := 0 }

/-- The end of a command (R20 step 5, R236): its commit, or the record of the fault it raised with none of its
effects. ERRCMD takes the command's word (notes/assumptions/13.md). -/
def finish (i : Instr) (s : State) (r : Except Stop State) : Host.Outcome State Fault Refusal :=
  match r with
  | .ok t => .next t
  | .error (.cause k) => .next (takeFault k (encode i) s)
  | .error (.unwritten a) => .fault (.unwrittenWord a)

/-- The frame of R20: check the named regions, then run the body (read, compute, commit). -/
def command (i : Instr) (s : State) (body : Except Stop State) : Host.Outcome State Fault Refusal :=
  finish i s (match chkAll s (namedRegions i) with
    | .ok _ => body
    | .error e => .error e)

/-- A body that reads one Nat128. -/
def withOne (s : State) (x : Region) (k : Nat → Except Stop State) : Except Stop State :=
  match memRead s.lm x with
  | .ok vx => k vx
  | .error e => .error e

/-- A body that reads two values, in order. -/
def withTwo (s : State) (x y : Region) (k : Nat → Nat → Except Stop State) : Except Stop State :=
  withOne s x fun vx => withOne s y fun vy => k vx vy

/-- A body that reads three values, in order. -/
def withThree (s : State) (x y z : Region) (k : Nat → Nat → Nat → Except Stop State) : Except Stop State :=
  withTwo s x y fun vx vy => withOne s z fun vz => k vx vy vz

/-! ## The commits the families share -/

/-- `MemWrite` of a value to a region (00_scope.md R13, R18). -/
def store (r : Region) (v : Nat) (s : State) : State :=
  { s with lm := Memory.writeWords s.lm r.addr r.len v }

/-- `RES <- v`. -/
def setRes (v : DWord) (s : State) : State := { s with res := v }

/-- An exact integer result to one region, its low part stored and its carry or borrow in RES
(R13, R14; 41_additive.md R130-R143, 42_multiplicative.md R172). -/
def commitExact (r : Region) (v : Int) (s : State) : State :=
  setRes (scalar (carryOut (32 * r.len) v)) (store r (lowPart (32 * r.len) v) s)

/-! ## BI images (44_conversion.md R210, R211) -/

/-- The bytes of a word, most significant first (R68). -/
def wordBytes (v : Word) : List (BitVec 8) :=
  [v.extractLsb' 24 8, v.extractLsb' 16 8, v.extractLsb' 8 8, v.extractLsb' 0 8]

/-- The magnitude bytes of an image: the first `nb` bytes of its words, padding dropped (R210). -/
def imageBytes (nb : Nat) (ws : List Word) : List (BitVec 8) := (ws.flatMap wordBytes).take nb

/-- The number a list of bytes denotes, most significant first, on top of what was read before. -/
def bytesValueFrom (acc : Nat) : List (BitVec 8) → Nat
  | [] => acc
  | b :: bs => bytesValueFrom (acc * 256 + b.toNat) bs

/-- The magnitude of an image (R211). -/
def biMagnitude (nb : Nat) (ws : List Word) : Nat := bytesValueFrom 0 (imageBytes nb ws)

/-- The integer an image denotes, from its header and its magnitude words (R211). -/
def biValue (hdr : Word) (ws : List Word) : Int :=
  if biSign hdr then -(biMagnitude (biBytes hdr) ws : Int) else biMagnitude (biBytes hdr) ws

/-- The image TOBI writes for a Nat128 value (R212). -/
def tobiWords (x : Nat) : List Word :=
  [0x00000010, .ofNat 32 (x / 2 ^ 96), .ofNat 32 (x / 2 ^ 64), .ofNat 32 (x / 2 ^ 32), .ofNat 32 x]

/-! ## STATUS and ID as words -/

/-- STATUS.BUSY (10_state.md R42). -/
def busy (s : State) : Bool := s.flight.isSome

/-- STATUS as the host reads it (R38). -/
def statusWord (s : State) : Word :=
  (0 : BitVec 24) ++ (s.cause ++ ((0 : BitVec 1) ++ (BitVec.ofBool s.drop ++ (BitVec.ofBool s.err ++ BitVec.ofBool (busy s)))))

/-- ID as the host reads it (R40). -/
def idWord (s : State) : Word := (0x0128 : BitVec 16) ++ BitVec.ofNat 16 s.lmWords

end Sys2Proof.Machine
end

