-- ==== Sys2Proof/Machine/Bus.lean ====
section
/-! DEFINITION. The host window (20_memory.md R71-R76): what a host read returns and what a host write does, the issue of
a command among them (10_state.md R41, 60_exceptions.md R238). These are the transfers of an idle block; the
interlock stands in Cycle.lean. -/

namespace Sys2Proof.Machine

/-- The registers and the LM window of the map of R71. -/
inductive Port where
  | cmdLo
  | cmdHi
  | status
  | id
  | resLo
  | resHi
  | errCmdLo
  | errCmdHi
  /-- LM[i] for i below LM_WORDS. -/
  | lm (i : Nat)
  /-- Reads 0, ignores writes (R73). -/
  | reserved
deriving DecidableEq, Repr

/-- The window's map (R71), from the word address `h_addr[15:2]` (R74). -/
def portOf (lmWords : Nat) (addr : BitVec 14) : Port :=
  match addr.toNat with
  | 0 => .cmdLo
  | 1 => .cmdHi
  | 2 => .status
  | 3 => .id
  | 4 => .resLo
  | 5 => .resHi
  | 6 => .errCmdLo
  | 7 => .errCmdHi
  | k => if 0x1000 ≤ k ∧ k < 0x1000 + lmWords then .lm (k - 0x1000) else .reserved

/-- The word address in the window of a platform address, if the address lies in the window (R74, R78). -/
def windowAddr (hostAddr : Nat) : Option (BitVec 14) :=
  if Config.fw128Base ≤ hostAddr ∧ hostAddr < Config.fw128Base + 65536 then
    some (BitVec.ofNat 14 ((hostAddr - Config.fw128Base) / 4))
  else none

/-- `HostRead` (R71-R73): the data, or the LM word that has no value. No read changes anything (R76). -/
def busRead (addr : BitVec 14) (s : State) : Except Fault Word :=
  match portOf s.lmWords addr with
  | .cmdLo => .ok s.cmdLo
  | .cmdHi => .ok s.cmdHi
  | .status => .ok (statusWord s)
  | .id => .ok (idWord s)
  | .resLo => .ok (s.res.extractLsb' 0 32)
  | .resHi => .ok (s.res.extractLsb' 32 32)
  | .errCmdLo => .ok (s.errCmd.extractLsb' 0 32)
  | .errCmdHi => .ok (s.errCmd.extractLsb' 32 32)
  | .lm i =>
    match Memory.read s.lm i with
    | some v => .ok v
    | none => .error (.unwrittenWord i)
  | .reserved => .ok 0

/-- The command that is in flight right after its issue (10_state.md R42): `LAT(op)` cycles remain, and its hidden
latency is a free value (notes/assumptions/6.md). -/
def newFlight (cw : DWord) (draw : Nat) : Flight where
  word := cw
  remaining := Config.lat (fieldsOf cw).op
  lead := Config.freeLead draw
  done := false

/-- The issue of the command that CMD_LO and CMD_HI hold (10_state.md R41, R42): discarded while ERR = 1 (R238). -/
def issue (s : State) : State :=
  if s.err then { s with drop := true }
  else { s with flight := some (newFlight (joinWords s.cmdLo s.cmdHi) s.draws), draws := s.draws + 1 }

/-- `HostWrite` (R71-R73, R76). -/
def busWrite (addr : BitVec 14) (v : Word) (s : State) : State :=
  match portOf s.lmWords addr with
  | .cmdLo => { s with cmdLo := v }
  | .cmdHi => issue { s with cmdHi := v }
  | .status => if v.getLsbD 1 then clearFault s else s
  | .resLo => { s with res := s.res.extractLsb' 32 32 ++ v }
  | .resHi => { s with res := v ++ s.res.extractLsb' 0 32 }
  | .lm i => { s with lm := Memory.write s.lm i v }
  | .id => s
  | .errCmdLo => s
  | .errCmdHi => s
  | .reserved => s

end Sys2Proof.Machine
end

