-- ==== Sys2Proof/Machine/Additive.lean ====
section
/-! DEFINITION. The additive group: adder and subtractor (41_additive.md). Values are exact integers; the low 128 bits
are stored and the carry or borrow goes to RES. -/

namespace Sys2Proof.Machine

/-- ADD: z ← x + y (R130). -/
def execAdd (w : View) (a b c : Nat) (s : State) : Host.Outcome State Fault Refusal :=
  command (.add w a b c) s
    (withTwo s (nat128 w a) (nat128 w b) fun x y => .ok (commitExact (nat128 w c) (x + y) s))

/-- ADDTO: z ← x + z (R132). -/
def execAddto (w : View) (a c : Nat) (s : State) : Host.Outcome State Fault Refusal :=
  command (.addto w a c) s
    (withTwo s (nat128 w a) (nat128 w c) fun x z => .ok (commitExact (nat128 w c) (x + z) s))

/-- ADDTOC: z ← x + z + cin, the carry-in from RES (R134). -/
def execAddtoc (w : View) (a c : Nat) (s : State) : Host.Outcome State Fault Refusal :=
  command (.addtoc w a c) s
    (withTwo s (nat128 w a) (nat128 w c) fun x z =>
      .ok (commitExact (nat128 w c) (x + z + carryIn w s.res) s))

/-- ADDBOTH: z ← x + y + z (R136). -/
def execAddboth (w : View) (a b c : Nat) (s : State) : Host.Outcome State Fault Refusal :=
  command (.addboth w a b c) s
    (withThree s (nat128 w a) (nat128 w b) (nat128 w c) fun x y z =>
      .ok (commitExact (nat128 w c) (x + y + z) s))

/-- ADDEACH: u ← v ← u + v; A is written first and C second (R138). -/
def execAddeach (w : View) (a c : Nat) (s : State) : Host.Outcome State Fault Refusal :=
  command (.addeach w a c) s
    (withTwo s (nat128 w a) (nat128 w c) fun u v =>
      .ok (commitExact (nat128 w c) (u + v) (store (nat128 w a) (lowPart 128 (u + v)) s)))

/-- SUB: z ← x − y (R140). -/
def execSub (w : View) (a b c : Nat) (s : State) : Host.Outcome State Fault Refusal :=
  command (.sub w a b c) s
    (withTwo s (nat128 w a) (nat128 w b) fun x y => .ok (commitExact (nat128 w c) ((x : Int) - y) s))

/-- SUBFROM: z ← z − x (R141). -/
def execSubfrom (w : View) (a c : Nat) (s : State) : Host.Outcome State Fault Refusal :=
  command (.subfrom w a c) s
    (withTwo s (nat128 w a) (nat128 w c) fun x z => .ok (commitExact (nat128 w c) ((z : Int) - x) s))

/-- SUBFROMB: z ← z − x + bin, the borrow-in from RES (R142). -/
def execSubfromb (w : View) (a c : Nat) (s : State) : Host.Outcome State Fault Refusal :=
  command (.subfromb w a c) s
    (withTwo s (nat128 w a) (nat128 w c) fun x z =>
      .ok (commitExact (nat128 w c) ((z : Int) - x + borrowIn w s.res) s))

/-- SUBBOTH: z ← z − x − y (R143). -/
def execSubboth (w : View) (a b c : Nat) (s : State) : Host.Outcome State Fault Refusal :=
  command (.subboth w a b c) s
    (withThree s (nat128 w a) (nat128 w b) (nat128 w c) fun x y z =>
      .ok (commitExact (nat128 w c) ((z : Int) - x - y) s))

/-- DIFF: z ← |x − y|, RES ← (x ≥ y) (R145). -/
def execDiff (w : View) (a b c : Nat) (s : State) : Host.Outcome State Fault Refusal :=
  command (.diff w a b c) s
    (withTwo s (nat128 w a) (nat128 w b) fun x y =>
      .ok (setRes (boolScalar (decide (x ≥ y))) (store (nat128 w c) (if x ≥ y then x - y else y - x) s)))

end Sys2Proof.Machine
end

