-- ==== Sys2Proof/Machine/Construction.lean ====
section
/-! DEFINITION. The construction and zeroing commands (40_construction.md). -/

namespace Sys2Proof.Machine

/-- CLR (R120). -/
def execClr (w : View) (c : Nat) (s : State) : Host.Outcome State Fault Refusal :=
  command (.clr w c) s (.ok (store (nat128 w c) 0 s))

/-- CLRX (R121). -/
def execClrx (w : View) (c : Nat) (s : State) : Host.Outcome State Fault Refusal :=
  command (.clrx w c) s (.ok (store (nat256 w c) 0 s))

end Sys2Proof.Machine
end

