-- ==== Sys2Proof/Machine/Conversion.lean ====
section
/-! DEFINITION. The interop conversion group (44_conversion.md): the BI image of a value, and the value of a BI image. -/

namespace Sys2Proof.Machine

/-- TOBI: the header, then limbs 3 to 0; RES unchanged (R212). -/
def execTobi (w : View) (a c : Nat) (s : State) : Host.Outcome State Fault Refusal :=
  command (.tobi w a c) s
    (withOne s (nat128 w a) fun x => .ok { s with lm := Memory.writeList s.lm (ea w c) (tobiWords x) })

/-- The last steps of FROMBI: refuse a negative value or one of 2^128 or more, else store the magnitude (R214). -/
def frombiCommit (w : View) (c : Nat) (hdr : Word) (ws : List Word) (s : State) : Except Stop State :=
  let m := biMagnitude (biBytes hdr) ws
  if biSign hdr ∧ m ≠ 0 then .error (.cause causeRangeViolation)
  else if m ≥ 2 ^ 128 then .error (.cause causeRangeViolation)
  else .ok (store (nat128 w c) m s)

/-- FROMBI: read the header, check the whole image, read it, check its value, store it; RES unchanged (R214). -/
def execFrombi (w : View) (a c : Nat) (s : State) : Host.Outcome State Fault Refusal :=
  command (.frombi w a c) s
    (match readWord s.lm (ea w a) with
    | .error e => .error e
    | .ok hdr =>
      match chk s (frombiImage w a hdr) with
      | .error e => .error e
      | .ok _ =>
        match readWords s.lm (ea w a + 1) (biWords (biBytes hdr)) with
        | .error e => .error e
        | .ok ws => frombiCommit w c hdr ws s)

end Sys2Proof.Machine
end

