-- ==== Sys2Proof/Machine/Multiplicative.lean ====
section
/-! DEFINITION. The multiplicative group: multiplier and squarer (42_multiplicative.md). -/

namespace Sys2Proof.Machine

/-- MUL: zz ← x · y, RES unchanged (R170). -/
def execMul (w : View) (a b c : Nat) (s : State) : Host.Outcome State Fault Refusal :=
  command (.mul w a b c) s
    (withTwo s (nat128 w a) (nat128 w b) fun x y => .ok (store (nat256 w c) (x * y) s))

/-- MULADD: zz ← (zz + x · y) mod 2^256, the carry in RES (R172). -/
def execMuladd (w : View) (a b c : Nat) (s : State) : Host.Outcome State Fault Refusal :=
  command (.muladd w a b c) s
    (withThree s (nat128 w a) (nat128 w b) (nat256 w c) fun x y zz =>
      .ok (commitExact (nat256 w c) (zz + x * y) s))

/-- SQR: zz ← x², RES unchanged (R174). -/
def execSqr (w : View) (a c : Nat) (s : State) : Host.Outcome State Fault Refusal :=
  command (.sqr w a c) s
    (withOne s (nat128 w a) fun x => .ok (store (nat256 w c) (x * x) s))

end Sys2Proof.Machine
end

