-- ==== Sys2Proof/Machine/Relational.lean ====
section
/-! DEFINITION. The relational and bitwise group: comparator and bit extractor (43_relational.md). Each writes RES with
0 or 1 and no LM word. -/

namespace Sys2Proof.Machine

/-- EQ: RES ← (x = y) (R190). -/
def execEq (w : View) (a b : Nat) (s : State) : Host.Outcome State Fault Refusal :=
  command (.eq w a b) s
    (withTwo s (nat128 w a) (nat128 w b) fun x y => .ok (setRes (boolScalar (decide (x = y))) s))

/-- GTE: RES ← (x ≥ y), unsigned (R191). -/
def execGte (w : View) (a b : Nat) (s : State) : Host.Outcome State Fault Refusal :=
  command (.gte w a b) s
    (withTwo s (nat128 w a) (nat128 w b) fun x y => .ok (setRes (boolScalar (decide (x ≥ y))) s))

/-- ISZERO: RES ← (x = 0) (R192). -/
def execIszero (w : View) (a : Nat) (s : State) : Host.Outcome State Fault Refusal :=
  command (.iszero w a) s
    (withOne s (nat128 w a) fun x => .ok (setRes (boolScalar (decide (x = 0))) s))

/-- ISONE: RES ← (x = 1) (R193). -/
def execIsone (w : View) (a : Nat) (s : State) : Host.Outcome State Fault Refusal :=
  command (.isone w a) s
    (withOne s (nat128 w a) fun x => .ok (setRes (boolScalar (decide (x = 1))) s))

/-- GETBIT: RES ← bit n of x, 0 when n is outside [0, 127]; A is checked and read whatever n is (R194). -/
def execGetbit (w : View) (a : Nat) (n : Int) (s : State) : Host.Outcome State Fault Refusal :=
  command (.getbit w a n) s
    (withOne s (nat128 w a) fun x => .ok (setRes (boolScalar (bitAt x n)) s))

end Sys2Proof.Machine
end

