-- ==== Sys2Proof/Machine/Dispatch.lean ====
section
/-! DEFINITION. The meaning of each command: one arm per constructor of Instr. -/

namespace Sys2Proof.Machine

/-- The execution of a command that has been issued and decoded (00_scope.md R20): the state after its commit or its
fault record. -/
def exec (i : Instr) (s : State) : Host.Outcome State Fault Refusal :=
  match i with
  | .clr w c => Sys2Proof.Machine.execClr w c s
  | .clrx w c => Sys2Proof.Machine.execClrx w c s
  | .add w a b c => Sys2Proof.Machine.execAdd w a b c s
  | .addto w a c => Sys2Proof.Machine.execAddto w a c s
  | .addtoc w a c => Sys2Proof.Machine.execAddtoc w a c s
  | .addboth w a b c => Sys2Proof.Machine.execAddboth w a b c s
  | .addeach w a c => Sys2Proof.Machine.execAddeach w a c s
  | .sub w a b c => Sys2Proof.Machine.execSub w a b c s
  | .subfrom w a c => Sys2Proof.Machine.execSubfrom w a c s
  | .subfromb w a c => Sys2Proof.Machine.execSubfromb w a c s
  | .subboth w a b c => Sys2Proof.Machine.execSubboth w a b c s
  | .diff w a b c => Sys2Proof.Machine.execDiff w a b c s
  | .mul w a b c => Sys2Proof.Machine.execMul w a b c s
  | .muladd w a b c => Sys2Proof.Machine.execMuladd w a b c s
  | .sqr w a c => Sys2Proof.Machine.execSqr w a c s
  | .eq w a b => Sys2Proof.Machine.execEq w a b s
  | .gte w a b => Sys2Proof.Machine.execGte w a b s
  | .iszero w a => Sys2Proof.Machine.execIszero w a s
  | .isone w a => Sys2Proof.Machine.execIsone w a s
  | .getbit w a n => Sys2Proof.Machine.execGetbit w a n s
  | .tobi w a c => Sys2Proof.Machine.execTobi w a c s
  | .frombi w a c => Sys2Proof.Machine.execFrombi w a c s

end Sys2Proof.Machine
end

