-- ==== Sys2Proof/Machine/Cycle.lean ====
section
/-! DEFINITION. One rising edge of `clk` (70_reset_and_hazards.md R260): the interlock and the completion of host transfers
(R270), the progress of the command in flight (10_state.md R42), reset (R261-R264) and power-up. -/

namespace Sys2Proof.Machine

/-- Run a function on the next state of an outcome. -/
def mapNext (f : State → State) : Host.Outcome State Fault Refusal → Host.Outcome State Fault Refusal
  | .next s => .next (f s)
  | .fault r => .fault r
  | .refused r => .refused r

/-! ## The command in flight -/

/-- The execution of a command word (00_scope.md R20): decode it and execute it, or record the fault of the decoder. -/
def runWord (cw : DWord) (s : State) : Host.Outcome State Fault Refusal :=
  match decode cw with
  | .ok i => exec i s
  | .error e => .next (takeFault (decodeCause e) cw s)

/-- The edge at which the command in flight commits its result: `lead` edges before its completion, at its completion at
the latest, and once only (notes/assumptions/6.md). -/
def Flight.commitsNow (f : Flight) : Bool := !f.done && decide (f.remaining ≤ f.lead + 1)

/-- One cycle of the command in flight has passed (R42): BUSY returns to 0 with the last one. -/
def tick (f : Flight) (done : Bool) (s : State) : State :=
  { s with flight := if f.remaining ≤ 1 then none else some { f with remaining := f.remaining - 1, done := done } }

/-- The command in flight, at one edge (R42, R272). -/
def advance (s : State) : Host.Outcome State Fault Refusal :=
  match s.flight with
  | none => .next s
  | some f =>
    if f.commitsNow then mapNext (tick f true) (runWord f.word s)
    else .next (tick f f.done s)

/-! ## Host transfers -/

/-- The word address of STATUS in the window (20_memory.md R71). -/
def statusAddr : BitVec 14 := 2

/-- `h_ready` of an edge: whether the transfer presented there completes (20_memory.md R70; notes/assumptions/7.md). -/
def setReady (b : Bool) (s : State) : State := { s with hReady := b }

/-- A read completes with data `v`. -/
def readDone (v : Word) (s : State) : State := { s with hReady := true, hRdata := v }

/-- A host transfer completes (R70, R71). -/
def completeTransfer (t : Transfer) (s : State) : Host.Outcome State Fault Refusal :=
  match t with
  | .read addr =>
    match busRead addr s with
    | .ok v => .next (readDone v s)
    | .error r => .fault r
  | .write addr v => .next (setReady true (busWrite addr v s))

/-- An edge with `rst` = 0: past the first reset, the block now runs (R263). -/
def leaveReset (s : State) : State :=
  { s with phase := if s.phase = .unreset then .unreset else .running }

/-- An edge with `rst` = 0 and no transfer: the command in flight advances. -/
def idleEdge (rest : List HostEvent) (s : State) : Host.Outcome State Fault Refusal :=
  advance (setReady false (leaveReset { s with host := rest }))

/-- An edge with `rst` = 0 and a transfer (R270): it completes, or it is held and stays the next one. A transfer that
completes sees the state before the edge; a command in flight advances either way. A transfer before the first
reset is refused (R264, U11). -/
def transferEdge (t : Transfer) (rest : List HostEvent) (s : State) : Host.Outcome State Fault Refusal :=
  if s.phase = .unreset then .refused .beforeFirstReset
  else if busy s then
    if t = .read statusAddr then advance (readDone (statusWord s) (leaveReset { s with host := rest }))
    else advance (setReady false (leaveReset s))
  else completeTransfer t (leaveReset { s with host := rest })

/-! ## Reset -/

/-- Free values in the words of a region from address `a` on, as far as they lie inside LM (R262). -/
def scrambleWords : Nat → Nat → State → State
  | _, 0, s => s
  | a, n + 1, s =>
    scrambleWords (a + 1) n
      (if a < s.lmWords then { s with lm := Memory.write s.lm a (Config.freeWord s.draws), draws := s.draws + 1 } else s)

/-- Free values in every word of some regions (R262). -/
def scrambleRegions : List Region → State → State
  | [], s => s
  | r :: rs, s => scrambleRegions rs (scrambleWords r.addr r.len s)

/-- The command in flight is abandoned (R262, 93_implementation_defined.md U2): the words of its destination regions take
free values and every other word keeps its own. A word that is no command has no destination (notes/assumptions/8.md). -/
def abandon (s : State) : State :=
  match s.flight with
  | none => s
  | some f =>
    match decode f.word with
    | .ok i => { scrambleRegions (destRegions i) s with flight := none }
    | .error _ => { s with flight := none }

/-- Every register takes its reset value (10_state.md R49); LM and the parameter LM_WORDS stay. -/
def resetRegisters (s : State) : State :=
  { s with res := 0, err := false, drop := false, cause := 0, errCmd := 0, cmdLo := 0, cmdHi := 0, phase := .resetHeld }

/-- What a transfer at a reset edge gets (R262, U4): no effect; a read returns 0 when `rst` was 1 before, and a free value
when it was in progress as `rst` came (notes/assumptions/9.md). `before` is the state before the edge. -/
def resetTransfer (t : Option Transfer) (before s : State) : State :=
  match t with
  | none => setReady false s
  | some (.write _ _) => setReady true s
  | some (.read _) =>
    if before.phase = .resetHeld then readDone 0 s
    else { readDone (Config.freeWord s.draws) s with draws := s.draws + 1 }

/-- A rising edge with `rst` = 1 (R261, R262). -/
def resetEdge (t : Option Transfer) (rest : List HostEvent) (s : State) : State :=
  resetTransfer t s (resetRegisters (abandon { s with host := rest }))

/-- Power-up, before the first reset (R264, U11): every register holds a free value, no LM word has one, and no command
is known to be in flight (notes/assumptions/10.md). -/
def powerUp (lmWords : Nat) (host : List HostEvent) : State where
  lm := []
  res := Config.freeWord 0 ++ Config.freeWord 1
  err := (Config.freeWord 2).getLsbD 0
  drop := (Config.freeWord 2).getLsbD 1
  cause := (Config.freeWord 3).extractLsb' 0 4
  errCmd := Config.freeWord 4 ++ Config.freeWord 5
  cmdLo := Config.freeWord 6
  cmdHi := Config.freeWord 7
  lmWords := lmWords
  flight := none
  phase := .unreset
  hReady := false
  hRdata := Config.freeWord 8
  host := host
  draws := 9

/-! ## One edge -/

/-- One rising edge of `clk`, with what the host drives at it. An empty stimulus list is an idle bus. -/
def clockEdge (s : State) : Host.Outcome State Fault Refusal :=
  match s.host with
  | [] => idleEdge [] s
  | .idle :: rest => idleEdge rest s
  | .transfer t :: rest => transferEdge t rest s
  | .reset t :: rest => .next (resetEdge t rest s)

/-! ## Placing a command word -/

/-- A command word in CMD_LO and CMD_HI, its command in flight with its last cycle to come, and an idle bus
(notes/assumptions/11.md). -/
def placeWord (cw : DWord) (s : State) : State :=
  { s with
    cmdLo := (cmdWords cw).1
    cmdHi := (cmdWords cw).2
    flight := some { word := cw, remaining := 1, lead := 0, done := false }
    host := [] }

end Sys2Proof.Machine
end

