-- ==== Sys2Proof/Machine/Step.lean ====
section
/-! DEFINITION. The step: one rising edge of `clk` (70_reset_and_hazards.md R260). -/

namespace Sys2Proof.Machine

/-- One rising edge of `clk` (Cycle.lean). -/
def step (s : State) : Host.Outcome State Fault Refusal := clockEdge s

/-- `s` with the command word whose bits are `w` (bits at and above `nbits` are 0) about to be executed by the next step
(notes/assumptions/11.md). -/
def State.withFetchWord (s : State) (nbits w : Nat) : State := placeWord (BitVec.ofNat 64 (w % 2 ^ nbits)) s

end Sys2Proof.Machine
end

