-- ==== Sys2Proof/Machine/Assembler.lean ====
section
/-! DEFINITION. The spec's notations: the assembler syntax of a command (30_encoding.md R106) and the host-program notation
(R108), as the host's stimulus. -/

namespace Sys2Proof.Machine

/-- The mnemonic with the suffix `.D` of the 64-bit view (R106). -/
def asmName (name : String) : View → String
  | .w32 => name
  | .w64 => name ++ ".D"

/-- One operand. -/
def asm1 (name : String) (w : View) (p : Nat) : String := asmName name w ++ " " ++ toString p

/-- Two operands. -/
def asm2 (name : String) (w : View) (p q : Nat) : String := asm1 name w p ++ ", " ++ toString q

/-- Three operands. -/
def asm3 (name : String) (w : View) (p q r : Nat) : String := asm2 name w p q ++ ", " ++ toString r

/-- The assembler text of a command, operands in the order of R106, in decimal. -/
def asm : Instr → String
  | .clr w c => asm1 "CLR" w c
  | .clrx w c => asm1 "CLRX" w c
  | .add w a b c => asm3 "ADD" w c a b
  | .addto w a c => asm2 "ADDTO" w c a
  | .addtoc w a c => asm2 "ADDTOC" w c a
  | .addboth w a b c => asm3 "ADDBOTH" w c a b
  | .addeach w a c => asm2 "ADDEACH" w a c
  | .sub w a b c => asm3 "SUB" w c a b
  | .subfrom w a c => asm2 "SUBFROM" w c a
  | .subfromb w a c => asm2 "SUBFROMB" w c a
  | .subboth w a b c => asm3 "SUBBOTH" w c a b
  | .diff w a b c => asm3 "DIFF" w c a b
  | .mul w a b c => asm3 "MUL" w c a b
  | .muladd w a b c => asm3 "MULADD" w c a b
  | .sqr w a c => asm2 "SQR" w c a
  | .eq w a b => asm2 "EQ" w a b
  | .gte w a b => asm2 "GTE" w a b
  | .iszero w a => asm1 "ISZERO" w a
  | .isone w a => asm1 "ISONE" w a
  | .getbit w a n => asm1 "GETBIT" w a ++ ", #" ++ toString n
  | .tobi w a c => asm2 "TOBI" w c a
  | .frombi w a c => asm2 "FROMBI" w c a

/-- `hr <offset>`: one HostRead at a byte offset of the window; bits 1:0 do not reach the bus (R108; 20_memory.md R74). -/
def hr (offset : Nat) : HostEvent := .transfer (.read (BitVec.ofNat 14 (offset / 4)))

/-- `hw <offset>, <value>`: one HostWrite (R108). -/
def hw (offset : Nat) (v : Word) : HostEvent := .transfer (.write (BitVec.ofNat 14 (offset / 4)) v)

/-- A command word by its two writes, CMD_LO, then CMD_HI, which issues (R108; 10_state.md R41). -/
def cmdWord (cw : DWord) : List HostEvent := [hw 0x00 (cmdWords cw).1, hw 0x04 (cmdWords cw).2]

/-- `cmd <instruction>` (R108). -/
def cmd (i : Instr) : List HostEvent := cmdWord (encode i)

/-- `lm[i] = v`: one LM word through the window (R108). -/
def lmSet (i : Nat) (v : Word) : HostEvent := hw (0x4000 + 4 * i) v

/-- `lm[i..] = [v0, v1, ...]`: a Nat128 in either view is written as its LM words (20_memory.md R77). -/
def lmSetAll : Nat → List Word → List HostEvent
  | _, [] => []
  | i, v :: vs => lmSet i v :: lmSetAll (i + 1) vs

end Sys2Proof.Machine
end

