-- ==== Sys2Proof/Machine/Limbs.lean ====
section
/-! DEFINITION. The limb-level forms of the datapaths, which the spec gives beside the value forms: ripple carry and borrow
(41_additive.md R131, R144), schoolbook multiplication (42_multiplicative.md R171), squaring by symmetry (R176), the
comparator's and the bit extractor's walks over limbs (43_relational.md R190-R194). The value forms are normative
and are what `exec` runs; these are the forms of which the spec says that they compute the same. -/

namespace Sys2Proof.Machine

/-- The limbs of a Nat128 in a view (00_scope.md R11): 4 of 32 bits or 2 of 64 bits. -/
def limbCount : View → Nat
  | .w32 => 4
  | .w64 => 2

/-- The limbs of a Nat128 value in a view, least significant first. -/
def viewLimbs (w : View) (x : Nat) : List Nat := limbsOf (limbWidth w) (limbCount w) x

/-- Ripple form (R131, R144): an accumulator takes one column of limbs after the other, leaves its low `width` bits as the
result limb and goes on with its floor quotient. Answers the result limbs and the carry or borrow out. -/
def ripple (width : Nat) : Int → List Int → List Nat × Int
  | acc, [] => ([], acc)
  | acc, d :: ds =>
    (((acc + d) % 2 ^ width).toNat :: (ripple width ((acc + d) / 2 ^ width) ds).1,
      (ripple width ((acc + d) / 2 ^ width) ds).2)

/-- The columns of x + y. -/
def addColumns : List Nat → List Nat → List Int
  | x :: xs, y :: ys => ((x : Int) + y) :: addColumns xs ys
  | _, _ => []

/-- The columns of z − x. -/
def subColumns : List Nat → List Nat → List Int
  | z :: zs, x :: xs => ((z : Int) - x) :: subColumns zs xs
  | _, _ => []

/-- The columns of x + y + z. -/
def addColumns3 : List Nat → List Nat → List Nat → List Int
  | x :: xs, y :: ys, z :: zs => ((x : Int) + y + z) :: addColumns3 xs ys zs
  | _, _, _ => []

/-- The columns of z − x − y. -/
def subColumns3 : List Nat → List Nat → List Nat → List Int
  | z :: zs, x :: xs, y :: ys => ((z : Int) - x - y) :: subColumns3 zs xs ys
  | _, _, _ => []

/-- The ripple-carry adder of a view (R131), with a carry-in. -/
def rippleAdd (w : View) (cin : Int) (x y : Nat) : List Nat × Int :=
  ripple (limbWidth w) cin (addColumns (viewLimbs w x) (viewLimbs w y))

/-- The ripple-borrow subtractor of a view (R144), with a borrow-in: z − x + bin. -/
def rippleSub (w : View) (bin : Int) (z x : Nat) : List Nat × Int :=
  ripple (limbWidth w) bin (subColumns (viewLimbs w z) (viewLimbs w x))

/-- The fused three-operand adder (R131). -/
def rippleAdd3 (w : View) (x y z : Nat) : List Nat × Int :=
  ripple (limbWidth w) 0 (addColumns3 (viewLimbs w x) (viewLimbs w y) (viewLimbs w z))

/-- The fused three-operand subtractor (R144). -/
def rippleSub3 (w : View) (z x y : Nat) : List Nat × Int :=
  ripple (limbWidth w) 0 (subColumns3 (viewLimbs w z) (viewLimbs w x) (viewLimbs w y))

/-- One row of the schoolbook product (R171): limb `x` times the limbs of y, added to the running limbs; the last result
limb is the row's fifth. A running limb that does not exist yet counts 0. -/
def mulRow (width x : Nat) : Nat → List Nat → List Nat → List Nat
  | acc, [], _ => [acc]
  | acc, y :: ys, zs =>
    (acc + x * y + zs.headD 0) % 2 ^ width :: mulRow width x ((acc + x * y + zs.headD 0) / 2 ^ width) ys zs.tail

/-- The rows of the schoolbook product (R171): each row leaves its lowest limb final and hands the others on. -/
def mulRows (width : Nat) : List Nat → List Nat → List Nat → List Nat
  | [], _, zs => zs
  | x :: xs, ys, zs => (mulRow width x 0 ys zs).headD 0 :: mulRows width xs ys (mulRow width x 0 ys zs).tail

/-- The schoolbook product of two Nat128 values, as limbs (R171). -/
def schoolbook (w : View) (x y : Nat) : List Nat := mulRows (limbWidth w) (viewLimbs w x) (viewLimbs w y) []

/-- Doubling over limbs by a left shift of one bit; the bit shifted out of a limb goes into the next (R176). -/
def doubleLimbs (width : Nat) : Nat → List Nat → List Nat
  | _, [] => []
  | bit, l :: ls => (2 * l + bit) % 2 ^ width :: doubleLimbs width ((2 * l + bit) / 2 ^ width) ls

/-- The diagonal terms of a square of four 32-bit limbs (R176). -/
def squareDiagonal (x0 x1 x2 x3 : Nat) : Nat := x0 ^ 2 + x1 ^ 2 * 2 ^ 64 + x2 ^ 2 * 2 ^ 128 + x3 ^ 2 * 2 ^ 192

/-- The cross terms of a square of four 32-bit limbs, each once (R176). -/
def squareCross (x0 x1 x2 x3 : Nat) : Nat :=
  x0 * x1 * 2 ^ 32 + x0 * x2 * 2 ^ 64 + x0 * x3 * 2 ^ 96 + x1 * x2 * 2 ^ 96 + x1 * x3 * 2 ^ 128 + x2 * x3 * 2 ^ 160

/-- Squaring by symmetry (R176): the cross terms doubled limb by limb, merged with the diagonal terms. -/
def squareSymmetric (x : Nat) : Nat :=
  match limbsOf 32 4 x with
  | [x0, x1, x2, x3] =>
    squareDiagonal x0 x1 x2 x3 + ofLimbs 32 (doubleLimbs 32 0 (limbsOf 32 8 (squareCross x0 x1 x2 x3)))
  | _ => 0

/-- Greater-or-equal over limbs, most significant first: the first difference decides (R191). -/
def gteTopDown : List Nat → List Nat → Bool
  | x :: xs, y :: ys => if x = y then gteTopDown xs ys else decide (x > y)
  | _, _ => true

/-- Equality over limbs, most significant first, stopping at the first difference (R190). -/
def eqTopDown : List Nat → List Nat → Bool
  | x :: xs, y :: ys => if x = y then eqTopDown xs ys else false
  | _, _ => true

/-- Every limb is 0, the low one first (R192). -/
def zeroLimbs : List Nat → Bool
  | [] => true
  | l :: ls => l == 0 && zeroLimbs ls

/-- The low limb is 1 and the others are 0 (R193). -/
def oneLimbs : List Nat → Bool
  | [] => false
  | l :: ls => l == 1 && zeroLimbs ls

/-- Bit `n mod 32` of limb `n div 32` (R194), in limbs of `width` bits. -/
def bitOfLimbs (width : Nat) (ls : List Nat) (n : Nat) : Bool := (ls.getD (n / width) 0).testBit (n % width)

end Sys2Proof.Machine
end

