-- ==== Sys2Proof/Safety.lean ====
section
/-! DEFINITION. What the statements about runs speak of: the invariant of the machine, what a step may leave changed, and
the kinds of step there are. -/

namespace Sys2Proof.Machine

/-- The fault record is one the spec allows (10_state.md R38, 60_exceptions.md R231, R235, R238): CAUSE is 1 to 4 exactly
when ERR is 1 and 0 otherwise, and DROP is 0 while ERR is 0. -/
def RecordOk (s : State) : Prop :=
  (s.err = true → 1 ≤ s.cause.toNat ∧ s.cause.toNat ≤ 4) ∧ (s.err = false → s.cause = 0 ∧ s.drop = false)

/-- The command in flight is the one CMD_LO and CMD_HI hold, has at least one and at most LAT(op) cycles to go, and was
issued with ERR = 0 (10_state.md R41, R42; 60_exceptions.md R238). -/
def FlightOk (s : State) : Prop :=
  ∀ f, s.flight = some f →
    f.word = joinWords s.cmdLo s.cmdHi ∧ 1 ≤ f.remaining ∧ f.remaining ≤ Config.lat (fieldsOf f.word).op ∧
      (f.done = false → s.err = false)

/-- LM lists its words in canonical form and inside the store (10_state.md R32). -/
def LmOk (s : State) : Prop := Memory.wf s.lm = true ∧ ∀ c ∈ s.lm, c.1 < s.lmWords

/-- The invariant of the machine. Before the first reset the registers are unspecified (70_reset_and_hazards.md R264), so
the fault record is constrained only after it. -/
structure MachineInv (s : State) : Prop where
  lm : LmOk s
  params : 16 ≤ s.lmWords ∧ s.lmWords ≤ 4096
  unreset : s.phase = .unreset → s.flight = none
  record : s.phase ≠ .unreset → RecordOk s
  flight : FlightOk s

/-- Every LM word outside the regions reads as before, a word without a value included. -/
def SameOutside (rs : List Region) (m m' : Memory) : Prop :=
  ∀ j, (∀ r ∈ rs, ¬ r.has j) → Memory.read m' j = Memory.read m j

/-- Every field but LM is unchanged. -/
def OnlyLm (s t : State) : Prop := { t with lm := s.lm } = s

/-- Every field but RES is unchanged. -/
def OnlyRes (s t : State) : Prop := { t with res := s.res } = s

/-- Every field but LM and RES is unchanged. -/
def OnlyLmRes (s t : State) : Prop := { t with lm := s.lm, res := s.res } = s

/-- The regions a command names lie inside LM (20_memory.md R66). -/
def RegionsInside (i : Instr) (s : State) : Prop := ∀ r ∈ namedRegions i, r.inside s.lmWords

/-- The commands that write RES (10_state.md R35). -/
def writesRes : Instr → Bool
  | .clr .. => false
  | .clrx .. => false
  | .add .. => true
  | .addto .. => true
  | .addtoc .. => true
  | .addboth .. => true
  | .addeach .. => true
  | .sub .. => true
  | .subfrom .. => true
  | .subfromb .. => true
  | .subboth .. => true
  | .diff .. => true
  | .mul .. => false
  | .muladd .. => true
  | .sqr .. => false
  | .eq .. => true
  | .gte .. => true
  | .iszero .. => true
  | .isone .. => true
  | .getbit .. => true
  | .tobi .. => false
  | .frombi .. => false

/-- The commands that read RES (10_state.md R36). -/
def readsRes : Instr → Bool
  | .clr .. => false
  | .clrx .. => false
  | .add .. => false
  | .addto .. => false
  | .addtoc .. => true
  | .addboth .. => false
  | .addeach .. => false
  | .sub .. => false
  | .subfrom .. => false
  | .subfromb .. => true
  | .subboth .. => false
  | .diff .. => false
  | .mul .. => false
  | .muladd .. => false
  | .sqr .. => false
  | .eq .. => false
  | .gte .. => false
  | .iszero .. => false
  | .isone .. => false
  | .getbit .. => false
  | .tobi .. => false
  | .frombi .. => false

/-- The same command on the same LM words in the 32-bit view (30_encoding.md R92): each address field is replaced by its
word address. -/
def inView32 : Instr → Instr
  | .clr w c => .clr .w32 (ea w c)
  | .clrx w c => .clrx .w32 (ea w c)
  | .add w a b c => .add .w32 (ea w a) (ea w b) (ea w c)
  | .addto w a c => .addto .w32 (ea w a) (ea w c)
  | .addtoc w a c => .addtoc .w32 (ea w a) (ea w c)
  | .addboth w a b c => .addboth .w32 (ea w a) (ea w b) (ea w c)
  | .addeach w a c => .addeach .w32 (ea w a) (ea w c)
  | .sub w a b c => .sub .w32 (ea w a) (ea w b) (ea w c)
  | .subfrom w a c => .subfrom .w32 (ea w a) (ea w c)
  | .subfromb w a c => .subfromb .w32 (ea w a) (ea w c)
  | .subboth w a b c => .subboth .w32 (ea w a) (ea w b) (ea w c)
  | .diff w a b c => .diff .w32 (ea w a) (ea w b) (ea w c)
  | .mul w a b c => .mul .w32 (ea w a) (ea w b) (ea w c)
  | .muladd w a b c => .muladd .w32 (ea w a) (ea w b) (ea w c)
  | .sqr w a c => .sqr .w32 (ea w a) (ea w c)
  | .eq w a b => .eq .w32 (ea w a) (ea w b)
  | .gte w a b => .gte .w32 (ea w a) (ea w b)
  | .iszero w a => .iszero .w32 (ea w a)
  | .isone w a => .isone .w32 (ea w a)
  | .getbit w a n => .getbit .w32 (ea w a) n
  | .tobi w a c => .tobi .w32 (ea w a) (ea w c)
  | .frombi w a c => .frombi .w32 (ea w a) (ea w c)

/-- The state after the fault record of a command, beside its fault record, is the state before (60_exceptions.md R235, R236). -/
def OnlyFaultRecord (s t : State) : Prop := { t with err := s.err, cause := s.cause, errCmd := s.errCmd } = s

/-- The host drives no reset at the coming edge. -/
def noReset (s : State) : Bool :=
  match s.host with
  | .reset _ :: _ => false
  | _ => true

/-- The state in which the command in flight finds the block at an edge with `rst` = 0: a STATUS read has completed, every
other transfer is held (70_reset_and_hazards.md R270), an idle cycle has passed. -/
def sampleBus (s : State) : State :=
  match s.host with
  | .transfer (.read addr) :: rest =>
    if addr = statusAddr then readDone (statusWord s) (leaveReset { s with host := rest })
    else setReady false (leaveReset s)
  | .transfer (.write _ _) :: _ => setReady false (leaveReset s)
  | .idle :: rest => setReady false (leaveReset { s with host := rest })
  | _ => setReady false (leaveReset s)

/-- A state without what the host drives next and what the bus shows it (20_memory.md R70). -/
def forgetBus (s : State) : State := { s with host := [], hReady := false, hRdata := 0 }

/-- A state with no command in flight and no reset to come, past the first reset: a host transfer completes at its edge. -/
def Ready (s : State) : Prop := s.flight = none ∧ s.phase ≠ .unreset

end Sys2Proof.Machine
end

