-- ==== Sys2Proof/Certificates/Slice0/Obligations.lean ====
section
/-! DEFINITION. The statements about the FW128 CORE, for the provers. In the statements of a command's result the regions,
the values and the carry are written out from the rule, not taken from the definitions that `exec` uses; every
statement of a command says how its word decodes, when it raises ADDR_RANGE and, otherwise, its whole next state:
the stored value, RES, every LM word outside the destination and every other field. -/

open Sys2Proof Sys2Proof.Machine

/-! ## Encoding -/

/-- 30_encoding.md R90, R91, R96, R97: no bit of an encoding is dropped. -/
def Obligations.EncodeThenDecode : Prop :=
  ∀ i : Instr, WellFormed i → decode (encode i) = .ok i

/-- 30_encoding.md R96, R103: a word that decodes is the encoding of a well-formed command, so no two words are the same
command. -/
def Obligations.DecodeThenEncode : Prop :=
  ∀ (cw : DWord) (i : Instr), decode cw = .ok i → WellFormed i ∧ encode i = cw

/-- 30_encoding.md R102: exactly the unassigned OP values raise ILLEGAL_OPCODE. -/
def Obligations.IllegalOpcodeExactly : Prop :=
  ∀ cw : DWord, decode cw = .error .illegalOpcode ↔
    ((fieldsOf cw).op = 0x00 ∨ (0x03 ≤ (fieldsOf cw).op ∧ (fieldsOf cw).op ≤ 0x07) ∨
      (0x0D ≤ (fieldsOf cw).op ∧ (fieldsOf cw).op ≤ 0x0F) ∨ (0x15 ≤ (fieldsOf cw).op ∧ (fieldsOf cw).op ≤ 0x17) ∨
      (0x1B ≤ (fieldsOf cw).op ∧ (fieldsOf cw).op ≤ 0x1F) ∨ (0x25 ≤ (fieldsOf cw).op ∧ (fieldsOf cw).op ≤ 0x27) ∨
      (0x2A ≤ (fieldsOf cw).op ∧ (fieldsOf cw).op ≤ 0x2F) ∨ 0x30 ≤ (fieldsOf cw).op)

/-- 30_encoding.md R97: the decoder accepts a word exactly when it selects a row of the opcode table, and at most one row
matches any word. -/
def Obligations.DecoderAgreesWithOpcodeTable : Prop :=
  (∀ cw : DWord, (∃ i, decode cw = .ok i) ↔ ∃ r ∈ opcodeTable, r.selects cw) ∧
    (∀ (cw : DWord) (i : Instr), decode cw = .ok i → ∃ r ∈ opcodeTable, r.selects cw ∧ r.op = opcode i) ∧
    ∀ cw : DWord, ∀ r ∈ opcodeTable, ∀ r' ∈ opcodeTable, r.selects cw → r'.selects cw → r = r'

/-- 30_encoding.md R109: the two encoding examples. -/
def Obligations.EncodingExamples : Prop :=
  encode (.add .w32 0 4 8) = 0x0000000800400008 ∧ cmdWords 0x0000000800400008 = (0x00400008, 0x00000008) ∧
    encode (.getbit .w64 3 (-1)) = 0xFFFFF00000000364 ∧
    decode 0x0000000800400008 = .ok (.add .w32 0 4 8) ∧ decode 0xFFFFF00000000364 = .ok (.getbit .w64 3 (-1))

/-! ## The step -/

/-- 10_state.md R42, 00_scope.md R20: at the edge at which a command in flight commits, the step is the execution of the
decoded command on the state that the edge's bus cycle leaves, and one cycle of it has passed. -/
def Obligations.StepRunsDecodedCommand : Prop :=
  ∀ (s : State) (f : Flight) (i : Instr),
    s.flight = some f → f.commitsNow = true → s.phase ≠ .unreset → noReset s = true → decode f.word = .ok i →
      step s = mapNext (tick f true) (exec i (sampleBus s))

/-- 60_exceptions.md R232, R235: a word that the decoder rejects is recorded as a fault whatever LM holds. The edge at which
the record appears, within the command's latency, is a free choice of the model (notes/assumptions/6.md). -/
def Obligations.StepRecordsDecodeFault : Prop :=
  ∀ (s : State) (f : Flight) (e : DecodeError),
    s.flight = some f → f.commitsNow = true → s.phase ≠ .unreset → noReset s = true → decode f.word = .error e →
      step s = .next (tick f true (takeFault (match e with | .illegalOpcode => 1 | .reservedField => 2) f.word (sampleBus s)))

/-- 70_reset_and_hazards.md R270: while BUSY = 1 a STATUS read completes at once and returns BUSY = 1 with ERR, DROP and
CAUSE as they stand; every other transfer is held and stays the host's next one. No transfer disturbs the command: at
every edge the block's outcome, the bus apart, is that of an idle bus; and an edge at which the command does not commit
changes nothing but the command's cycle count, whatever the host drives. At the edge at which the command completes,
that a transfer is held one edge more and a STATUS read returns the state before the edge is the model's reading
(notes/assumptions/12.md); which edge commits is a free choice of the model (notes/assumptions/6.md). -/
def Obligations.InterlockHoldsTransfers : Prop :=
  (∀ (s u : State) (t : Transfer) (rest : List HostEvent),
    busy s = true → s.phase ≠ .unreset → s.host = .transfer t :: rest → step s = .next u →
      if t = .read statusAddr then
        u.hReady = true ∧ u.host = rest ∧ u.hRdata = statusWord s ∧ u.hRdata.getLsbD 0 = true
      else u.hReady = false ∧ u.host = s.host ∧ u.cmdLo = s.cmdLo ∧ u.cmdHi = s.cmdHi) ∧
  (∀ s : State, busy s = true → s.phase ≠ .unreset → noReset s = true →
    mapNext forgetBus (step s) = mapNext forgetBus (step { s with host := [] })) ∧
  ∀ (s : State) (f : Flight),
    s.flight = some f → f.commitsNow = false → s.phase ≠ .unreset → noReset s = true →
      ∃ u : State, step s = .next u ∧
        u.flight = (if f.remaining ≤ 1 then none else some { f with remaining := f.remaining - 1 }) ∧
        { u with flight := s.flight, phase := s.phase, host := s.host, hReady := s.hReady, hRdata := s.hRdata } = s

/-- 60_exceptions.md R252, 70_reset_and_hazards.md R272: an issued command keeps BUSY at 1 for LAT(op) cycles and is then
complete, whatever its operands and outcome; its effect is that of its execution. It holds whatever the host drives
meanwhile but a reset: an idle bus, STATUS polls, or a transfer that is held. LAT is a constant of which nothing is
known (notes/assumptions/4.md), and within it the edge of the commit is free (notes/assumptions/6.md). -/
def Obligations.CommandCompletesAfterLatency : Prop :=
  ∀ (s u : State) (cw : DWord) (d : Nat),
    s.flight = some (newFlight cw d) → (∀ e ∈ s.host, ∀ t : Option Transfer, e ≠ .reset t) → s.phase ≠ .unreset →
    runWord cw (sampleBus s) = .next u →
      (∃ v : State, Host.Core.run Sys2Proof.core (Config.lat (fieldsOf cw).op) s = .next v ∧
        forgetBus v = forgetBus { u with flight := none } ∧ (s.host = [] → v = { u with flight := none })) ∧
      ∀ k, k < Config.lat (fieldsOf cw).op →
        ∃ t : State, Host.Core.run Sys2Proof.core k s = .next t ∧ busy t = true

/-! ## Construction (40_construction.md) -/

/-- R120, R121: the decoding of both, then the result of each. -/
def Obligations.ClrAndClrxZeroRegions : Prop :=
  (∀ (cw : DWord) (f : Fields), f = fieldsOf cw → (f.op = 0x01 ∨ f.op = 0x02) →
    decode cw = if f.rsv = 0 ∧ f.a = 0 ∧ f.b = 0 ∧ f.imm = 0 then
        .ok (if f.op = 0x01 then .clr (viewOf f.w) f.c.toNat else .clrx (viewOf f.w) f.c.toNat)
      else .error .reservedField) ∧
  (∀ (w : View) (c : Nat) (s : State),
    if ea w c + 4 ≤ s.lmWords then
      ∃ t, exec (.clr w c) s = .next t ∧ memRead t.lm ⟨ea w c, 4⟩ = .ok 0 ∧
        SameOutside [⟨ea w c, 4⟩] s.lm t.lm ∧ OnlyLm s t
    else exec (.clr w c) s = .next (takeFault 3 (encode (.clr w c)) s)) ∧
  ∀ (w : View) (c : Nat) (s : State),
    if ea w c + 8 ≤ s.lmWords then
      ∃ t, exec (.clrx w c) s = .next t ∧ memRead t.lm ⟨ea w c, 8⟩ = .ok 0 ∧
        SameOutside [⟨ea w c, 8⟩] s.lm t.lm ∧ OnlyLm s t
    else exec (.clrx w c) s = .next (takeFault 3 (encode (.clrx w c)) s)

/-! ## The adder (41_additive.md) -/

/-- R130. -/
def Obligations.AddStoresSumAndCarry : Prop :=
  (∀ (cw : DWord) (f : Fields), f = fieldsOf cw → f.op = 0x08 →
    decode cw = if f.rsv = 0 ∧ f.imm = 0 then .ok (.add (viewOf f.w) f.a.toNat f.b.toNat f.c.toNat)
      else .error .reservedField) ∧
  ∀ (w : View) (a b c : Nat) (s : State),
    if ea w a + 4 ≤ s.lmWords ∧ ea w b + 4 ≤ s.lmWords ∧ ea w c + 4 ≤ s.lmWords then
      ∀ x y : Nat, memRead s.lm ⟨ea w a, 4⟩ = .ok x → memRead s.lm ⟨ea w b, 4⟩ = .ok y →
        ∃ (t : State) (z : Nat), exec (.add w a b c) s = .next t ∧ memRead t.lm ⟨ea w c, 4⟩ = .ok z ∧
          z = (x + y) % 2 ^ 128 ∧ t.res = BitVec.ofNat 64 ((x + y) / 2 ^ 128) ∧
          z + t.res.toNat * 2 ^ 128 = x + y ∧ (t.res = 1 ↔ 2 ^ 128 ≤ x + y) ∧
          SameOutside [⟨ea w c, 4⟩] s.lm t.lm ∧ OnlyLmRes s t
    else exec (.add w a b c) s = .next (takeFault 3 (encode (.add w a b c)) s)

/-- R132. -/
def Obligations.AddtoAccumulatesWithCarry : Prop :=
  (∀ (cw : DWord) (f : Fields), f = fieldsOf cw → f.op = 0x09 →
    decode cw = if f.rsv = 0 ∧ f.b = 0 ∧ f.imm = 0 then .ok (.addto (viewOf f.w) f.a.toNat f.c.toNat)
      else .error .reservedField) ∧
  ∀ (w : View) (a c : Nat) (s : State),
    if ea w a + 4 ≤ s.lmWords ∧ ea w c + 4 ≤ s.lmWords then
      ∀ x z : Nat, memRead s.lm ⟨ea w a, 4⟩ = .ok x → memRead s.lm ⟨ea w c, 4⟩ = .ok z →
        ∃ (t : State) (z' : Nat), exec (.addto w a c) s = .next t ∧ memRead t.lm ⟨ea w c, 4⟩ = .ok z' ∧
          z' = (x + z) % 2 ^ 128 ∧ t.res = BitVec.ofNat 64 ((x + z) / 2 ^ 128) ∧
          z' + t.res.toNat * 2 ^ 128 = x + z ∧ t.res.toNat ≤ 1 ∧
          SameOutside [⟨ea w c, 4⟩] s.lm t.lm ∧ OnlyLmRes s t
    else exec (.addto w a c) s = .next (takeFault 3 (encode (.addto w a c)) s)

/-- R134. -/
def Obligations.AddtocAddsCarryInFromRes : Prop :=
  (∀ (cw : DWord) (f : Fields), f = fieldsOf cw → f.op = 0x0A →
    decode cw = if f.rsv = 0 ∧ f.b = 0 ∧ f.imm = 0 then .ok (.addtoc (viewOf f.w) f.a.toNat f.c.toNat)
      else .error .reservedField) ∧
  ∀ (w : View) (a c : Nat) (s : State),
    if ea w a + 4 ≤ s.lmWords ∧ ea w c + 4 ≤ s.lmWords then
      ∀ x z cin : Nat, memRead s.lm ⟨ea w a, 4⟩ = .ok x → memRead s.lm ⟨ea w c, 4⟩ = .ok z →
        cin = s.res.toNat % 2 ^ (match w with | .w32 => 32 | .w64 => 64) →
        ∃ (t : State) (z' : Nat), exec (.addtoc w a c) s = .next t ∧ memRead t.lm ⟨ea w c, 4⟩ = .ok z' ∧
          z' = (x + z + cin) % 2 ^ 128 ∧ t.res = BitVec.ofNat 64 ((x + z + cin) / 2 ^ 128) ∧
          z' + t.res.toNat * 2 ^ 128 = x + z + cin ∧ t.res.toNat ≤ 2 ∧ (cin ≤ 1 → t.res.toNat ≤ 1) ∧
          SameOutside [⟨ea w c, 4⟩] s.lm t.lm ∧ OnlyLmRes s t
    else exec (.addtoc w a c) s = .next (takeFault 3 (encode (.addtoc w a c)) s)

/-- R136. -/
def Obligations.AddbothFusesThreeOperands : Prop :=
  (∀ (cw : DWord) (f : Fields), f = fieldsOf cw → f.op = 0x0B →
    decode cw = if f.rsv = 0 ∧ f.imm = 0 then .ok (.addboth (viewOf f.w) f.a.toNat f.b.toNat f.c.toNat)
      else .error .reservedField) ∧
  ∀ (w : View) (a b c : Nat) (s : State),
    if ea w a + 4 ≤ s.lmWords ∧ ea w b + 4 ≤ s.lmWords ∧ ea w c + 4 ≤ s.lmWords then
      ∀ x y z : Nat, memRead s.lm ⟨ea w a, 4⟩ = .ok x → memRead s.lm ⟨ea w b, 4⟩ = .ok y →
        memRead s.lm ⟨ea w c, 4⟩ = .ok z →
        ∃ (t : State) (z' : Nat), exec (.addboth w a b c) s = .next t ∧ memRead t.lm ⟨ea w c, 4⟩ = .ok z' ∧
          z' = (x + y + z) % 2 ^ 128 ∧ t.res = BitVec.ofNat 64 ((x + y + z) / 2 ^ 128) ∧
          z' + t.res.toNat * 2 ^ 128 = x + y + z ∧ t.res.toNat ≤ 2 ∧
          SameOutside [⟨ea w c, 4⟩] s.lm t.lm ∧ OnlyLmRes s t
    else exec (.addboth w a b c) s = .next (takeFault 3 (encode (.addboth w a b c)) s)

/-- R138: both regions are written with the sum, A first and C second, so that where they overlap C's words remain. -/
def Obligations.AddeachWritesBothSums : Prop :=
  (∀ (cw : DWord) (f : Fields), f = fieldsOf cw → f.op = 0x0C →
    decode cw = if f.rsv = 0 ∧ f.b = 0 ∧ f.imm = 0 then .ok (.addeach (viewOf f.w) f.a.toNat f.c.toNat)
      else .error .reservedField) ∧
  ∀ (w : View) (a c : Nat) (s : State),
    if ea w a + 4 ≤ s.lmWords ∧ ea w c + 4 ≤ s.lmWords then
      ∀ u v : Nat, memRead s.lm ⟨ea w a, 4⟩ = .ok u → memRead s.lm ⟨ea w c, 4⟩ = .ok v →
        ∃ t : State, exec (.addeach w a c) s = .next t ∧
          memRead t.lm ⟨ea w c, 4⟩ = .ok ((u + v) % 2 ^ 128) ∧
          (∀ k, k < 4 → ¬ (ea w c ≤ ea w a + k ∧ ea w a + k < ea w c + 4) →
            Memory.read t.lm (ea w a + k) = some (BitVec.ofNat 32 ((u + v) % 2 ^ 128 / 2 ^ (32 * k)))) ∧
          t.res = BitVec.ofNat 64 ((u + v) / 2 ^ 128) ∧ t.res.toNat ≤ 1 ∧
          SameOutside [⟨ea w a, 4⟩, ⟨ea w c, 4⟩] s.lm t.lm ∧ OnlyLmRes s t
    else exec (.addeach w a c) s = .next (takeFault 3 (encode (.addeach w a c)) s)

/-! ## The subtractor (41_additive.md) -/

/-- R140. -/
def Obligations.SubStoresDifferenceAndBorrow : Prop :=
  (∀ (cw : DWord) (f : Fields), f = fieldsOf cw → f.op = 0x10 →
    decode cw = if f.rsv = 0 ∧ f.imm = 0 then .ok (.sub (viewOf f.w) f.a.toNat f.b.toNat f.c.toNat)
      else .error .reservedField) ∧
  ∀ (w : View) (a b c : Nat) (s : State),
    if ea w a + 4 ≤ s.lmWords ∧ ea w b + 4 ≤ s.lmWords ∧ ea w c + 4 ≤ s.lmWords then
      ∀ x y : Nat, memRead s.lm ⟨ea w a, 4⟩ = .ok x → memRead s.lm ⟨ea w b, 4⟩ = .ok y →
        ∃ (t : State) (z : Nat), exec (.sub w a b c) s = .next t ∧ memRead t.lm ⟨ea w c, 4⟩ = .ok z ∧
          (z : Int) = ((x : Int) - y) % 2 ^ 128 ∧ t.res = (if x ≥ y then 0 else 0xFFFFFFFFFFFFFFFF) ∧
          (z : Int) + t.res.toInt * 2 ^ 128 = (x : Int) - y ∧
          SameOutside [⟨ea w c, 4⟩] s.lm t.lm ∧ OnlyLmRes s t
    else exec (.sub w a b c) s = .next (takeFault 3 (encode (.sub w a b c)) s)

/-- R141. -/
def Obligations.SubfromStoresDifferenceAndBorrow : Prop :=
  (∀ (cw : DWord) (f : Fields), f = fieldsOf cw → f.op = 0x11 →
    decode cw = if f.rsv = 0 ∧ f.b = 0 ∧ f.imm = 0 then .ok (.subfrom (viewOf f.w) f.a.toNat f.c.toNat)
      else .error .reservedField) ∧
  ∀ (w : View) (a c : Nat) (s : State),
    if ea w a + 4 ≤ s.lmWords ∧ ea w c + 4 ≤ s.lmWords then
      ∀ x z : Nat, memRead s.lm ⟨ea w a, 4⟩ = .ok x → memRead s.lm ⟨ea w c, 4⟩ = .ok z →
        ∃ (t : State) (z' : Nat), exec (.subfrom w a c) s = .next t ∧ memRead t.lm ⟨ea w c, 4⟩ = .ok z' ∧
          (z' : Int) = ((z : Int) - x) % 2 ^ 128 ∧ t.res = (if z ≥ x then 0 else 0xFFFFFFFFFFFFFFFF) ∧
          (z' : Int) + t.res.toInt * 2 ^ 128 = (z : Int) - x ∧
          SameOutside [⟨ea w c, 4⟩] s.lm t.lm ∧ OnlyLmRes s t
    else exec (.subfrom w a c) s = .next (takeFault 3 (encode (.subfrom w a c)) s)

/-- R142: the borrow-in is the low LW bits of RES as a signed integer. -/
def Obligations.SubfrombAddsBorrowInFromRes : Prop :=
  (∀ (cw : DWord) (f : Fields), f = fieldsOf cw → f.op = 0x12 →
    decode cw = if f.rsv = 0 ∧ f.b = 0 ∧ f.imm = 0 then .ok (.subfromb (viewOf f.w) f.a.toNat f.c.toNat)
      else .error .reservedField) ∧
  ∀ (w : View) (a c : Nat) (s : State),
    if ea w a + 4 ≤ s.lmWords ∧ ea w c + 4 ≤ s.lmWords then
      ∀ (x z lw : Nat) (bin : Int), memRead s.lm ⟨ea w a, 4⟩ = .ok x → memRead s.lm ⟨ea w c, 4⟩ = .ok z →
        lw = (match w with | .w32 => 32 | .w64 => 64) →
        bin = (s.res.toNat : Int) % 2 ^ lw - 2 ^ lw * (if s.res.getLsbD (lw - 1) then 1 else 0) →
        ∃ (t : State) (z' : Nat), exec (.subfromb w a c) s = .next t ∧ memRead t.lm ⟨ea w c, 4⟩ = .ok z' ∧
          (z' : Int) = ((z : Int) - x + bin) % 2 ^ 128 ∧ t.res = BitVec.ofInt 64 (((z : Int) - x + bin) / 2 ^ 128) ∧
          (z' : Int) + t.res.toInt * 2 ^ 128 = (z : Int) - x + bin ∧ -2 ≤ t.res.toInt ∧ t.res.toInt ≤ 1 ∧
          (-1 ≤ bin → bin ≤ 0 → -1 ≤ t.res.toInt ∧ t.res.toInt ≤ 0) ∧
          SameOutside [⟨ea w c, 4⟩] s.lm t.lm ∧ OnlyLmRes s t
    else exec (.subfromb w a c) s = .next (takeFault 3 (encode (.subfromb w a c)) s)

/-- R143. -/
def Obligations.SubbothFusesThreeOperands : Prop :=
  (∀ (cw : DWord) (f : Fields), f = fieldsOf cw → f.op = 0x13 →
    decode cw = if f.rsv = 0 ∧ f.imm = 0 then .ok (.subboth (viewOf f.w) f.a.toNat f.b.toNat f.c.toNat)
      else .error .reservedField) ∧
  ∀ (w : View) (a b c : Nat) (s : State),
    if ea w a + 4 ≤ s.lmWords ∧ ea w b + 4 ≤ s.lmWords ∧ ea w c + 4 ≤ s.lmWords then
      ∀ x y z : Nat, memRead s.lm ⟨ea w a, 4⟩ = .ok x → memRead s.lm ⟨ea w b, 4⟩ = .ok y →
        memRead s.lm ⟨ea w c, 4⟩ = .ok z →
        ∃ (t : State) (z' : Nat), exec (.subboth w a b c) s = .next t ∧ memRead t.lm ⟨ea w c, 4⟩ = .ok z' ∧
          (z' : Int) = ((z : Int) - x - y) % 2 ^ 128 ∧ t.res = BitVec.ofInt 64 (((z : Int) - x - y) / 2 ^ 128) ∧
          (z' : Int) + t.res.toInt * 2 ^ 128 = (z : Int) - x - y ∧ -2 ≤ t.res.toInt ∧ t.res.toInt ≤ 0 ∧
          SameOutside [⟨ea w c, 4⟩] s.lm t.lm ∧ OnlyLmRes s t
    else exec (.subboth w a b c) s = .next (takeFault 3 (encode (.subboth w a b c)) s)

/-- R145. -/
def Obligations.DiffStoresDistanceAndFlag : Prop :=
  (∀ (cw : DWord) (f : Fields), f = fieldsOf cw → f.op = 0x14 →
    decode cw = if f.rsv = 0 ∧ f.imm = 0 then .ok (.diff (viewOf f.w) f.a.toNat f.b.toNat f.c.toNat)
      else .error .reservedField) ∧
  ∀ (w : View) (a b c : Nat) (s : State),
    if ea w a + 4 ≤ s.lmWords ∧ ea w b + 4 ≤ s.lmWords ∧ ea w c + 4 ≤ s.lmWords then
      ∀ x y : Nat, memRead s.lm ⟨ea w a, 4⟩ = .ok x → memRead s.lm ⟨ea w b, 4⟩ = .ok y →
        ∃ (t : State) (z : Nat), exec (.diff w a b c) s = .next t ∧ memRead t.lm ⟨ea w c, 4⟩ = .ok z ∧
          (z : Int) = |(x : Int) - y| ∧ t.res = (if x ≥ y then 1 else 0) ∧
          SameOutside [⟨ea w c, 4⟩] s.lm t.lm ∧ OnlyLmRes s t
    else exec (.diff w a b c) s = .next (takeFault 3 (encode (.diff w a b c)) s)

/-! ## The multiplier and squarer (42_multiplicative.md) -/

/-- R170. -/
def Obligations.MulStoresExactProduct : Prop :=
  (∀ (cw : DWord) (f : Fields), f = fieldsOf cw → f.op = 0x18 →
    decode cw = if f.rsv = 0 ∧ f.imm = 0 then .ok (.mul (viewOf f.w) f.a.toNat f.b.toNat f.c.toNat)
      else .error .reservedField) ∧
  ∀ (w : View) (a b c : Nat) (s : State),
    if ea w a + 4 ≤ s.lmWords ∧ ea w b + 4 ≤ s.lmWords ∧ ea w c + 8 ≤ s.lmWords then
      ∀ x y : Nat, memRead s.lm ⟨ea w a, 4⟩ = .ok x → memRead s.lm ⟨ea w b, 4⟩ = .ok y →
        ∃ t : State, exec (.mul w a b c) s = .next t ∧ memRead t.lm ⟨ea w c, 8⟩ = .ok (x * y) ∧
          SameOutside [⟨ea w c, 8⟩] s.lm t.lm ∧ OnlyLm s t
    else exec (.mul w a b c) s = .next (takeFault 3 (encode (.mul w a b c)) s)

/-- R172, R173. -/
def Obligations.MuladdAccumulatesWithCarry : Prop :=
  (∀ (cw : DWord) (f : Fields), f = fieldsOf cw → f.op = 0x19 →
    decode cw = if f.rsv = 0 ∧ f.imm = 0 then .ok (.muladd (viewOf f.w) f.a.toNat f.b.toNat f.c.toNat)
      else .error .reservedField) ∧
  ∀ (w : View) (a b c : Nat) (s : State),
    if ea w a + 4 ≤ s.lmWords ∧ ea w b + 4 ≤ s.lmWords ∧ ea w c + 8 ≤ s.lmWords then
      ∀ x y zz : Nat, memRead s.lm ⟨ea w a, 4⟩ = .ok x → memRead s.lm ⟨ea w b, 4⟩ = .ok y →
        memRead s.lm ⟨ea w c, 8⟩ = .ok zz →
        ∃ (t : State) (zz' : Nat), exec (.muladd w a b c) s = .next t ∧ memRead t.lm ⟨ea w c, 8⟩ = .ok zz' ∧
          zz' = (zz + x * y) % 2 ^ 256 ∧ t.res = BitVec.ofNat 64 ((zz + x * y) / 2 ^ 256) ∧
          zz' + t.res.toNat * 2 ^ 256 = zz + x * y ∧ t.res.toNat ≤ 1 ∧
          SameOutside [⟨ea w c, 8⟩] s.lm t.lm ∧ OnlyLmRes s t
    else exec (.muladd w a b c) s = .next (takeFault 3 (encode (.muladd w a b c)) s)

/-- R174. -/
def Obligations.SqrStoresExactSquare : Prop :=
  (∀ (cw : DWord) (f : Fields), f = fieldsOf cw → f.op = 0x1A →
    decode cw = if f.rsv = 0 ∧ f.b = 0 ∧ f.imm = 0 then .ok (.sqr (viewOf f.w) f.a.toNat f.c.toNat)
      else .error .reservedField) ∧
  ∀ (w : View) (a c : Nat) (s : State),
    if ea w a + 4 ≤ s.lmWords ∧ ea w c + 8 ≤ s.lmWords then
      ∀ x : Nat, memRead s.lm ⟨ea w a, 4⟩ = .ok x →
        ∃ t : State, exec (.sqr w a c) s = .next t ∧ memRead t.lm ⟨ea w c, 8⟩ = .ok (x ^ 2) ∧
          SameOutside [⟨ea w c, 8⟩] s.lm t.lm ∧ OnlyLm s t
    else exec (.sqr w a c) s = .next (takeFault 3 (encode (.sqr w a c)) s)

/-! ## The comparator and bit extractor (43_relational.md) -/

/-- R190, R191. -/
def Obligations.EqAndGteCompareUnsigned : Prop :=
  (∀ (cw : DWord) (f : Fields), f = fieldsOf cw → (f.op = 0x20 ∨ f.op = 0x21) →
    decode cw = if f.rsv = 0 ∧ f.c = 0 ∧ f.imm = 0 then
        .ok (if f.op = 0x20 then .eq (viewOf f.w) f.a.toNat f.b.toNat else .gte (viewOf f.w) f.a.toNat f.b.toNat)
      else .error .reservedField) ∧
  ∀ (w : View) (a b : Nat) (s : State),
    if ea w a + 4 ≤ s.lmWords ∧ ea w b + 4 ≤ s.lmWords then
      ∀ x y : Nat, memRead s.lm ⟨ea w a, 4⟩ = .ok x → memRead s.lm ⟨ea w b, 4⟩ = .ok y →
        (∃ t : State, exec (.eq w a b) s = .next t ∧ t.res = (if x = y then 1 else 0) ∧ OnlyRes s t) ∧
        ∃ t : State, exec (.gte w a b) s = .next t ∧ t.res = (if x ≥ y then 1 else 0) ∧ OnlyRes s t
    else exec (.eq w a b) s = .next (takeFault 3 (encode (.eq w a b)) s) ∧
      exec (.gte w a b) s = .next (takeFault 3 (encode (.gte w a b)) s)

/-- R192, R193. -/
def Obligations.IszeroAndIsoneTestValue : Prop :=
  (∀ (cw : DWord) (f : Fields), f = fieldsOf cw → (f.op = 0x22 ∨ f.op = 0x23) →
    decode cw = if f.rsv = 0 ∧ f.b = 0 ∧ f.c = 0 ∧ f.imm = 0 then
        .ok (if f.op = 0x22 then .iszero (viewOf f.w) f.a.toNat else .isone (viewOf f.w) f.a.toNat)
      else .error .reservedField) ∧
  ∀ (w : View) (a : Nat) (s : State),
    if ea w a + 4 ≤ s.lmWords then
      ∀ x : Nat, memRead s.lm ⟨ea w a, 4⟩ = .ok x →
        (∃ t : State, exec (.iszero w a) s = .next t ∧ t.res = (if x = 0 then 1 else 0) ∧ OnlyRes s t) ∧
        ∃ t : State, exec (.isone w a) s = .next t ∧ t.res = (if x = 1 then 1 else 0) ∧ OnlyRes s t
    else exec (.iszero w a) s = .next (takeFault 3 (encode (.iszero w a)) s) ∧
      exec (.isone w a) s = .next (takeFault 3 (encode (.isone w a)) s)

/-- R194 and its limb form: limb n div 32, bit n mod 32 of that limb. -/
def Obligations.GetbitExtractsIndexedBit : Prop :=
  (∀ (cw : DWord) (f : Fields), f = fieldsOf cw → f.op = 0x24 →
    decode cw = if f.rsv = 0 ∧ f.b = 0 ∧ f.c = 0 then
        .ok (.getbit (viewOf f.w) f.a.toNat ((f.imm.toNat : Int) - 2 ^ 20 * (if f.imm.getLsbD 19 then 1 else 0)))
      else .error .reservedField) ∧
  ∀ (w : View) (a : Nat) (n : Int) (s : State),
    if ea w a + 4 ≤ s.lmWords then
      ∀ x : Nat, memRead s.lm ⟨ea w a, 4⟩ = .ok x →
        ∃ t : State, exec (.getbit w a n) s = .next t ∧ OnlyRes s t ∧
          (if 0 ≤ n ∧ n ≤ 127 then
            t.res = (if x.testBit n.toNat then 1 else 0) ∧
              ∀ l : Word, Memory.read s.lm (ea w a + n.toNat / 32) = some l →
                t.res = (if l.getLsbD (n.toNat % 32) then 1 else 0)
          else t.res = 0)
    else exec (.getbit w a n) s = .next (takeFault 3 (encode (.getbit w a n)) s)

/-! ## Conversion (44_conversion.md) -/

/-- R212. -/
def Obligations.TobiWritesImage : Prop :=
  (∀ (cw : DWord) (f : Fields), f = fieldsOf cw → f.op = 0x28 →
    decode cw = if f.rsv = 0 ∧ f.b = 0 ∧ f.imm = 0 then .ok (.tobi (viewOf f.w) f.a.toNat f.c.toNat)
      else .error .reservedField) ∧
  ∀ (w : View) (a c : Nat) (s : State),
    if ea w a + 4 ≤ s.lmWords ∧ ea w c + 5 ≤ s.lmWords then
      ∀ x0 x1 x2 x3 : Word, readWords s.lm (ea w a) 4 = .ok [x0, x1, x2, x3] →
        ∃ t : State, exec (.tobi w a c) s = .next t ∧
          readWords t.lm (ea w c) 5 = .ok [0x00000010, x3, x2, x1, x0] ∧
          SameOutside [⟨ea w c, 5⟩] s.lm t.lm ∧ OnlyLm s t
    else exec (.tobi w a c) s = .next (takeFault 3 (encode (.tobi w a c)) s)

/-- R214, in the order of its pseudocode: header and destination inside LM, the whole image inside LM, then the value. -/
def Obligations.FrombiStoresImageValue : Prop :=
  (∀ (cw : DWord) (f : Fields), f = fieldsOf cw → f.op = 0x29 →
    decode cw = if f.rsv = 0 ∧ f.b = 0 ∧ f.imm = 0 then .ok (.frombi (viewOf f.w) f.a.toNat f.c.toNat)
      else .error .reservedField) ∧
  ∀ (w : View) (a c : Nat) (s : State),
    if ea w a + 1 ≤ s.lmWords ∧ ea w c + 4 ≤ s.lmWords then
      ∀ (hdr : Word) (nb : Nat), Memory.read s.lm (ea w a) = some hdr → nb = hdr.toNat % 2 ^ 16 →
        if ea w a + (1 + (nb + 3) / 4) ≤ s.lmWords then
          ∀ (ws : List Word) (m : Nat), readWords s.lm (ea w a + 1) ((nb + 3) / 4) = .ok ws → m = biMagnitude nb ws →
            if (hdr.getLsbD 31 = true ∧ m ≠ 0) ∨ 2 ^ 128 ≤ m then
              exec (.frombi w a c) s = .next (takeFault 4 (encode (.frombi w a c)) s)
            else
              ∃ t : State, exec (.frombi w a c) s = .next t ∧ memRead t.lm ⟨ea w c, 4⟩ = .ok m ∧
                SameOutside [⟨ea w c, 4⟩] s.lm t.lm ∧ OnlyLm s t
        else exec (.frombi w a c) s = .next (takeFault 3 (encode (.frombi w a c)) s)
    else exec (.frombi w a c) s = .next (takeFault 3 (encode (.frombi w a c)) s)

/-- R210, R211: byte k of an image sits in bits 31−8·(k mod 4) down to 24−8·(k mod 4) of magnitude word k div 4, and the
magnitude is the sum of byte_k · 256^(NBYTES−1−k). -/
def Obligations.ImageMagnitudeIsByteSum : Prop :=
  ∀ (nb : Nat) (ws : List Word), ws.length = (nb + 3) / 4 →
    biMagnitude nb ws =
      ∑ k ∈ Finset.range nb, ((ws.getD (k / 4) 0).toNat / 2 ^ (24 - 8 * (k % 4)) % 256) * 256 ^ (nb - 1 - k)

/-- R216: both round trips of the conversions, for regions that are legal and do not overlap, in both views. -/
def Obligations.ConversionRoundTrips : Prop :=
  (∀ (w : View) (a h c : Nat) (s : State) (x : Nat),
    ea w a + 4 ≤ s.lmWords → ea w h + 5 ≤ s.lmWords → ea w c + 4 ≤ s.lmWords →
    (ea w h + 5 ≤ ea w c ∨ ea w c + 4 ≤ ea w h) → memRead s.lm ⟨ea w a, 4⟩ = .ok x →
      ∃ t u : State, exec (.tobi w a h) s = .next t ∧ exec (.frombi w h c) t = .next u ∧
        memRead u.lm ⟨ea w c, 4⟩ = .ok x) ∧
  (∀ (w : View) (h c h' : Nat) (s : State) (hdr : Word) (ws : List Word),
    ea w h + (1 + (biBytes hdr + 3) / 4) ≤ s.lmWords → ea w c + 4 ≤ s.lmWords → ea w h' + 5 ≤ s.lmWords →
    Memory.read s.lm (ea w h) = some hdr → readWords s.lm (ea w h + 1) ((biBytes hdr + 3) / 4) = .ok ws →
    0 ≤ biValue hdr ws → biValue hdr ws < 2 ^ 128 →
      ∃ (t u : State) (hdr' : Word) (ws' : List Word),
        exec (.frombi w h c) s = .next t ∧ exec (.tobi w c h') t = .next u ∧
        Memory.read u.lm (ea w h') = some hdr' ∧ biBytes hdr' = 16 ∧ readWords u.lm (ea w h' + 1) 4 = .ok ws' ∧
        biValue hdr' ws' = biValue hdr ws)

/-! ## Compositions of commands -/

/-- 42_multiplicative.md R175: SQR equals MUL with A = B, bit for bit, in every state where no fault is recorded. -/
def Obligations.SqrEqualsMulOfSame : Prop :=
  ∀ (w : View) (a c : Nat) (s : State), ea w a + 4 ≤ s.lmWords → ea w c + 8 ≤ s.lmWords →
    exec (.sqr w a c) s = exec (.mul w a a c) s

/-- 41_additive.md R139: a 256-bit sum by ADD and ADDTOC; the final RES is the carry out of bit 255. -/
def Obligations.AddChainsTo256Bits : Prop :=
  ∀ (w : View) (x0 y0 z0 x1 z1 : Nat) (s : State) (vx0 vy0 vx1 vy1 : Nat),
    ea w x0 + 4 ≤ s.lmWords → ea w y0 + 4 ≤ s.lmWords → ea w z0 + 4 ≤ s.lmWords → ea w x1 + 4 ≤ s.lmWords →
    ea w z1 + 4 ≤ s.lmWords → (ea w z0 + 4 ≤ ea w x1 ∨ ea w x1 + 4 ≤ ea w z0) →
    (ea w z0 + 4 ≤ ea w z1 ∨ ea w z1 + 4 ≤ ea w z0) →
    memRead s.lm ⟨ea w x0, 4⟩ = .ok vx0 → memRead s.lm ⟨ea w y0, 4⟩ = .ok vy0 →
    memRead s.lm ⟨ea w x1, 4⟩ = .ok vx1 → memRead s.lm ⟨ea w z1, 4⟩ = .ok vy1 →
      ∃ (t u : State) (r0 r1 : Nat), exec (.add w x0 y0 z0) s = .next t ∧ exec (.addtoc w x1 z1) t = .next u ∧
        memRead u.lm ⟨ea w z0, 4⟩ = .ok r0 ∧ memRead u.lm ⟨ea w z1, 4⟩ = .ok r1 ∧
        r1 * 2 ^ 128 + r0 + u.res.toNat * 2 ^ 256 = (vx1 * 2 ^ 128 + vx0) + (vy1 * 2 ^ 128 + vy0) ∧
        u.res.toNat ≤ 1

/-- 41_additive.md R146: a 256-bit difference by SUB and SUBFROMB; the final RES is the borrow out of bit 255. -/
def Obligations.SubChainsTo256Bits : Prop :=
  ∀ (w : View) (x0 y0 z0 y1 z1 : Nat) (s : State) (vx0 vy0 vx1 vy1 : Nat),
    ea w x0 + 4 ≤ s.lmWords → ea w y0 + 4 ≤ s.lmWords → ea w z0 + 4 ≤ s.lmWords → ea w y1 + 4 ≤ s.lmWords →
    ea w z1 + 4 ≤ s.lmWords → (ea w z0 + 4 ≤ ea w y1 ∨ ea w y1 + 4 ≤ ea w z0) →
    (ea w z0 + 4 ≤ ea w z1 ∨ ea w z1 + 4 ≤ ea w z0) →
    memRead s.lm ⟨ea w x0, 4⟩ = .ok vx0 → memRead s.lm ⟨ea w y0, 4⟩ = .ok vy0 →
    memRead s.lm ⟨ea w y1, 4⟩ = .ok vy1 → memRead s.lm ⟨ea w z1, 4⟩ = .ok vx1 →
      ∃ (t u : State) (r0 r1 : Nat), exec (.sub w x0 y0 z0) s = .next t ∧ exec (.subfromb w y1 z1) t = .next u ∧
        memRead u.lm ⟨ea w z0, 4⟩ = .ok r0 ∧ memRead u.lm ⟨ea w z1, 4⟩ = .ok r1 ∧
        ((r1 : Int) * 2 ^ 128 + r0) + u.res.toInt * 2 ^ 256 =
          ((vx1 : Int) * 2 ^ 128 + vx0) - ((vy1 : Int) * 2 ^ 128 + vy0) ∧
        (u.res.toInt = 0 ∨ u.res.toInt = -1)

/-- 30_encoding.md R107: the effects of the four pseudo-instructions. -/
def Obligations.PseudoInstructionEffects : Prop :=
  ∀ (w : View) (a b : Nat) (s : State) (x y : Nat), ea w a + 4 ≤ s.lmWords → ea w b + 4 ≤ s.lmWords →
    memRead s.lm ⟨ea w a, 4⟩ = .ok x → memRead s.lm ⟨ea w b, 4⟩ = .ok y →
      (∃ t : State, exec (.le w a b) s = .next t ∧ t.res = (if x ≤ y then 1 else 0) ∧ OnlyRes s t) ∧
      (∃ t : State, exec (.dbl w a) s = .next t ∧ memRead t.lm ⟨ea w a, 4⟩ = .ok (2 * x % 2 ^ 128) ∧
        t.res = (if x.testBit 127 then 1 else 0) ∧ SameOutside [⟨ea w a, 4⟩] s.lm t.lm ∧ OnlyLmRes s t) ∧
      (∃ t : State, exec (.lowbit w a) s = .next t ∧ t.res = (if x.testBit 0 then 1 else 0) ∧ OnlyRes s t) ∧
      ∃ t : State, exec (.topbit w a) s = .next t ∧ t.res = (if x.testBit 127 then 1 else 0) ∧ OnlyRes s t

/-- 30_encoding.md R92: W changes only the word addresses, and the width of the carry-in and borrow-in of ADDTOC and
SUBFROMB; a command that does not read RES does the same as its 32-bit form on the same words (the recorded command
word of a fault apart). -/
def Obligations.ViewChangesOnlyAddresses : Prop :=
  ∀ (i : Instr) (s : State), readsRes i = false →
    mapNext (fun t => { t with errCmd := 0 }) (exec i s) = mapNext (fun t => { t with errCmd := 0 }) (exec (inView32 i) s)

/-! ## Limb-level forms -/

/-- 41_additive.md R131, R144: ripple carry and ripple borrow compute the value forms of the adders and subtractors, with
their carry-in or borrow-in and in both views. -/
def Obligations.RippleFormsComputeValueForms : Prop :=
  ∀ (w : View) (cin x y z : Nat) (bin : Int), x < 2 ^ 128 → y < 2 ^ 128 → z < 2 ^ 128 →
    rippleAdd w cin x y = (viewLimbs w ((x + y + cin) % 2 ^ 128), (((x + y + cin) / 2 ^ 128 : Nat) : Int)) ∧
      rippleAdd3 w x y z = (viewLimbs w ((x + y + z) % 2 ^ 128), (((x + y + z) / 2 ^ 128 : Nat) : Int)) ∧
      rippleSub w bin z x =
        (viewLimbs w (((z : Int) - x + bin) % 2 ^ 128).toNat, ((z : Int) - x + bin) / 2 ^ 128) ∧
      rippleSub3 w z x y = (viewLimbs w (((z : Int) - x - y) % 2 ^ 128).toNat, ((z : Int) - x - y) / 2 ^ 128)

/-- 42_multiplicative.md R171, R176: the schoolbook rows produce the limbs of the exact product, in both views, and the
symmetric form, with the cross terms doubled limb by limb, is the square. -/
def Obligations.LimbMultipliersComputeProducts : Prop :=
  (∀ (w : View) (x y : Nat), x < 2 ^ 128 → y < 2 ^ 128 →
    schoolbook w x y = limbsOf (limbWidth w) (2 * limbCount w) (x * y)) ∧
  ∀ x : Nat, x < 2 ^ 128 → squareSymmetric x = x ^ 2

/-- 43_relational.md R190 to R195: the walks over limbs, from the top down for EQ and GTE and from the low limb up for
ISZERO and ISONE, and limb n div LW, bit n mod LW for GETBIT, give the comparisons of the values, in both views. -/
def Obligations.LimbWalksCompareValues : Prop :=
  ∀ (w : View) (x y n : Nat), x < 2 ^ 128 → y < 2 ^ 128 → n < 128 →
    eqTopDown (viewLimbs w x).reverse (viewLimbs w y).reverse = decide (x = y) ∧
      gteTopDown (viewLimbs w x).reverse (viewLimbs w y).reverse = decide (x ≥ y) ∧
      zeroLimbs (viewLimbs w x) = decide (x = 0) ∧ oneLimbs (viewLimbs w x) = decide (x = 1) ∧
      bitOfLimbs (limbWidth w) (viewLimbs w x) n = x.testBit n

/-! ## Faults -/

/-- 60_exceptions.md R235, R236: a command that faults commits no LM write and does not write RES; it records ERR, CAUSE and
its own command word, and nothing else changes. -/
def Obligations.FaultsArePrecise : Prop :=
  ∀ (cw : DWord) (s t : State), s.err = false → runWord cw s = .next t → t.err = true →
    t.lm = s.lm ∧ t.res = s.res ∧ t.errCmd = cw ∧ 1 ≤ t.cause.toNat ∧ t.cause.toNat ≤ 4 ∧ OnlyFaultRecord s t

/-- 60_exceptions.md R234: RANGE_VIOLATION is raised by FROMBI only, and, once its regions are inside LM, exactly when the
image's value is negative or is 2^128 or more. -/
def Obligations.RangeViolationOnlyByFrombi : Prop :=
  (∀ (cw : DWord) (s t : State), s.err = false → runWord cw s = .next t → t.err = true → t.cause = 4 →
    ∃ (w : View) (a c : Nat) (hdr : Word) (ws : List Word), decode cw = .ok (.frombi w a c) ∧
      Memory.read s.lm (ea w a) = some hdr ∧ readWords s.lm (ea w a + 1) ((biBytes hdr + 3) / 4) = .ok ws ∧
      (biValue hdr ws < 0 ∨ 2 ^ 128 ≤ biValue hdr ws)) ∧
  ∀ (cw : DWord) (s : State) (w : View) (a c : Nat) (hdr : Word) (ws : List Word), decode cw = .ok (.frombi w a c) →
    ea w a + 1 ≤ s.lmWords → ea w c + 4 ≤ s.lmWords → Memory.read s.lm (ea w a) = some hdr →
    ea w a + (1 + (biBytes hdr + 3) / 4) ≤ s.lmWords →
    readWords s.lm (ea w a + 1) ((biBytes hdr + 3) / 4) = .ok ws → (biValue hdr ws < 0 ∨ 2 ^ 128 ≤ biMagnitude (biBytes hdr) ws) →
      runWord cw s = .next (takeFault 4 cw s)

/-- 60_exceptions.md R232: the decoder's faults are raised whatever LM holds. A legal command with a region past the end
(of those that the command word fixes) records ADDR_RANGE, whatever LM holds, written or not. -/
def Obligations.FaultOrderOfOneCommand : Prop :=
  ∀ (cw : DWord) (s : State),
    (decode cw = .error .illegalOpcode → runWord cw s = .next (takeFault 1 cw s)) ∧
    (decode cw = .error .reservedField → runWord cw s = .next (takeFault 2 cw s)) ∧
    ∀ i : Instr, decode cw = .ok i → ¬ RegionsInside i s → runWord cw s = .next (takeFault 3 cw s)

/-- 10_state.md R36, 00_scope.md R23: only ADDTOC and SUBFROMB read RES. For any other command two states that differ in
RES alone lead to the same outcome but for RES, and to the same RES where the command writes one; and the 32-bit
forms of those two read only RES[31:0]. -/
def Obligations.OnlyCarryInCommandsReadRes : Prop :=
  (∀ (i : Instr) (s : State) (r : DWord), readsRes i = false →
    mapNext (fun t => { t with res := 0 }) (exec i { s with res := r }) = mapNext (fun t => { t with res := 0 }) (exec i s) ∧
    ∀ t t' : State, exec i s = .next t → exec i { s with res := r } = .next t' →
      writesRes i = true → RegionsInside i s → t'.res = t.res) ∧
  ∀ (a c : Nat) (s : State) (r : DWord), r.toNat % 2 ^ 32 = s.res.toNat % 2 ^ 32 → RegionsInside (.addtoc .w32 a c) s →
    exec (.addtoc .w32 a c) { s with res := r } = exec (.addtoc .w32 a c) s ∧
      exec (.subfromb .w32 a c) { s with res := r } = exec (.subfromb .w32 a c) s

/-- 20_memory.md R61, 10_state.md R35: a command changes no LM word outside its destination regions and no register but RES
and the fault record, and no RES unless it is in the list of R35. -/
def Obligations.CommandsChangeOnlyTheirTargets : Prop :=
  ∀ (i : Instr) (s t : State), exec i s = .next t →
    SameOutside (destRegions i) s.lm t.lm ∧ (writesRes i = false → t.res = s.res) ∧
      { t with lm := s.lm, res := s.res, err := s.err, cause := s.cause, errCmd := s.errCmd } = s

/-! ## The host window. The read data between reads is left out of every equation: notes/assumptions/7.md. -/

/-- 10_state.md R38: the fields of STATUS as a host read returns them; its reset value; the legal CAUSE values. -/
def Obligations.StatusReadLayout : Prop :=
  (∀ (s : State) (rest : List HostEvent), s.phase ≠ .unreset → s.flight = none → s.host = hr 0x08 :: rest →
    ∃ t : State, step s = .next t ∧ t.hReady = true ∧ t.hRdata = statusWord s ∧ t.host = rest) ∧
  (∀ s : State, (statusWord s).getLsbD 0 = s.flight.isSome ∧ (statusWord s).getLsbD 1 = s.err ∧
    (statusWord s).getLsbD 2 = s.drop ∧ (statusWord s).getLsbD 3 = false ∧
    (statusWord s).extractLsb' 4 4 = s.cause ∧ (statusWord s).extractLsb' 8 24 = 0) ∧
  statusWord State.reset = 0 ∧ ∀ s : State, MachineInv s → s.phase ≠ .unreset → s.cause.toNat ≤ 4

/-- 10_state.md R39: a STATUS write with bit 1 = 1 sets ERR, DROP and CAUSE to 0; one with bit 1 = 0 changes nothing; ERRCMD
stays either way (60_exceptions.md R237). -/
def Obligations.StatusWriteClearsRecord : Prop :=
  ∀ (s : State) (v : Word) (rest : List HostEvent), Ready s → s.host = hw 0x08 v :: rest →
    ∃ t : State, step s = .next t ∧ { t with hRdata := s.hRdata } = if v.getLsbD 1 then
        { s with host := rest, phase := .running, hReady := true, err := false, drop := false, cause := 0 }
      else { s with host := rest, phase := .running, hReady := true }

/-- 10_state.md R40: ID shows 0x0128 and LM_WORDS, a write to it has no effect, and no step changes it. -/
def Obligations.IdIsConstant : Prop :=
  (∀ s : State, (idWord s).extractLsb' 16 16 = 0x0128 ∧
    (s.lmWords ≤ 4096 → ((idWord s).extractLsb' 0 16).toNat = s.lmWords)) ∧
  (∀ (s : State) (rest : List HostEvent), Ready s → s.host = hr 0x0C :: rest →
    ∃ t : State, step s = .next t ∧ t.hReady = true ∧ t.hRdata = idWord s) ∧
  (∀ (s : State) (v : Word) (rest : List HostEvent), Ready s → s.host = hw 0x0C v :: rest →
    ∃ t : State, step s = .next t ∧
      { t with hRdata := s.hRdata } = { s with host := rest, phase := .running, hReady := true }) ∧
  ∀ s t : State, step s = .next t → idWord t = idWord s ∧ t.lmWords = s.lmWords

/-- 10_state.md R41: a CMD_LO write only stores; a CMD_HI write stores and issues the command of both halves, in flight from
the next cycle with LAT(op) cycles to go; a read returns the last value written; no command changes either; both reset
to 0. -/
def Obligations.CmdHiWriteIssues : Prop :=
  (∀ (s : State) (v : Word) (rest : List HostEvent), Ready s → s.host = hw 0x00 v :: rest →
    ∃ t : State, step s = .next t ∧
      { t with hRdata := s.hRdata } = { s with host := rest, phase := .running, hReady := true, cmdLo := v }) ∧
  (∀ (s : State) (v : Word) (rest : List HostEvent), Ready s → s.err = false → s.host = hw 0x04 v :: rest →
    ∃ (t : State) (f : Flight), step s = .next t ∧ t.flight = some f ∧ f.word = v ++ s.cmdLo ∧
      f.remaining = Config.lat (s.cmdLo.extractLsb' 0 6) ∧ f.done = false ∧
      { t with flight := none, draws := s.draws, hRdata := s.hRdata } =
        { s with host := rest, phase := .running, hReady := true, cmdHi := v }) ∧
  (∀ (s : State) (rest : List HostEvent), Ready s → s.host = hr 0x00 :: rest →
    step s = .next { s with host := rest, phase := .running, hReady := true, hRdata := s.cmdLo }) ∧
  (∀ (s : State) (rest : List HostEvent), Ready s → s.host = hr 0x04 :: rest →
    step s = .next { s with host := rest, phase := .running, hReady := true, hRdata := s.cmdHi }) ∧
  (∀ (s t : State) (f : Flight), s.flight = some f → noReset s = true → step s = .next t →
    t.cmdLo = s.cmdLo ∧ t.cmdHi = s.cmdHi) ∧
  State.reset.cmdLo = 0 ∧ State.reset.cmdHi = 0

/-- 60_exceptions.md R238: a CMD_HI write while ERR = 1 stores CMD_HI, discards the command and sets DROP; BUSY stays 0 and
CAUSE and ERRCMD keep the first fault. -/
def Obligations.IssueWhileErrIsDiscarded : Prop :=
  ∀ (s : State) (v : Word) (rest : List HostEvent), Ready s → s.err = true → s.host = hw 0x04 v :: rest →
    ∃ t : State, step s = .next t ∧
      { t with hRdata := s.hRdata } = { s with host := rest, phase := .running, hReady := true, cmdHi := v, drop := true }

/-- 10_state.md R43: ERRCMD is read as two 32-bit registers and is read-only; it is written only when a command faults, with
that command's word; a clear keeps it; its reset value is 0. The edge of a command at which it changes is a free choice of
the model (notes/assumptions/6.md). -/
def Obligations.ErrCmdHoldsFaultingWord : Prop :=
  (∀ (s : State) (rest : List HostEvent), Ready s → s.host = hr 0x18 :: rest →
    step s = .next { s with host := rest, phase := .running, hReady := true, hRdata := s.errCmd.extractLsb' 0 32 }) ∧
  (∀ (s : State) (rest : List HostEvent), Ready s → s.host = hr 0x1C :: rest →
    step s = .next { s with host := rest, phase := .running, hReady := true, hRdata := s.errCmd.extractLsb' 32 32 }) ∧
  (∀ s t : State, noReset s = true → step s = .next t → t.errCmd ≠ s.errCmd →
    ∃ f, s.flight = some f ∧ f.commitsNow = true ∧ t.err = true ∧ t.errCmd = f.word) ∧
  (∀ (cw : DWord) (s t : State), s.err = false → runWord cw s = .next t → t.err = true → t.errCmd = cw) ∧
  (∀ s : State, (clearFault s).errCmd = s.errCmd) ∧ State.reset.errCmd = 0

/-- 10_state.md R37: RES is read and written as two 32-bit registers. -/
def Obligations.ResHalvesReadAndWrite : Prop :=
  (∀ (s : State) (v : Word) (rest : List HostEvent), Ready s → s.host = hw 0x10 v :: rest →
    ∃ t : State, step s = .next t ∧ t.res.extractLsb' 0 32 = v ∧ t.res.extractLsb' 32 32 = s.res.extractLsb' 32 32 ∧
      { t with res := s.res, hRdata := s.hRdata } = { s with host := rest, phase := .running, hReady := true }) ∧
  (∀ (s : State) (v : Word) (rest : List HostEvent), Ready s → s.host = hw 0x14 v :: rest →
    ∃ t : State, step s = .next t ∧ t.res.extractLsb' 32 32 = v ∧ t.res.extractLsb' 0 32 = s.res.extractLsb' 0 32 ∧
      { t with res := s.res, hRdata := s.hRdata } = { s with host := rest, phase := .running, hReady := true }) ∧
  (∀ (s : State) (rest : List HostEvent), Ready s → s.host = hr 0x10 :: rest →
    step s = .next { s with host := rest, phase := .running, hReady := true, hRdata := s.res.extractLsb' 0 32 }) ∧
  (∀ (s : State) (rest : List HostEvent), Ready s → s.host = hr 0x14 :: rest →
    step s = .next { s with host := rest, phase := .running, hReady := true, hRdata := s.res.extractLsb' 32 32 }) ∧
  State.reset.res = 0

/-- 20_memory.md R72: a host read of 0x4000 + 4·i returns LM[i], a host write there sets it, and no other word changes. -/
def Obligations.LmWindowReadsAndWrites : Prop :=
  (∀ (s : State) (i : Nat) (v : Word) (rest : List HostEvent), Ready s → s.lmWords ≤ 4096 → i < s.lmWords →
    s.host = hr (0x4000 + 4 * i) :: rest → Memory.read s.lm i = some v →
      step s = .next { s with host := rest, phase := .running, hReady := true, hRdata := v }) ∧
  ∀ (s : State) (i : Nat) (v : Word) (rest : List HostEvent), Ready s → s.lmWords ≤ 4096 → i < s.lmWords →
    s.host = hw (0x4000 + 4 * i) v :: rest →
      ∃ t : State, step s = .next t ∧ Memory.read t.lm i = some v ∧
        (∀ j, j ≠ i → Memory.read t.lm j = Memory.read s.lm j) ∧
        { t with lm := s.lm, hRdata := s.hRdata } = { s with host := rest, phase := .running, hReady := true }

/-- 20_memory.md R73: a read of a reserved offset returns 0, a write to one or to a read-only register (ID, ERRCMD) has no
effect, and neither sets ERR. -/
def Obligations.ReservedOffsetsReadZeroAndIgnoreWrites : Prop :=
  (∀ (s : State) (off : Nat) (rest : List HostEvent), Ready s → s.lmWords ≤ 4096 →
    ((0x0020 ≤ off ∧ off < 0x4000) ∨ (0x4000 + 4 * s.lmWords ≤ off ∧ off < 0x10000)) → s.host = hr off :: rest →
      step s = .next { s with host := rest, phase := .running, hReady := true, hRdata := 0 }) ∧
  ∀ (s : State) (off : Nat) (v : Word) (rest : List HostEvent), Ready s → s.lmWords ≤ 4096 →
    ((0x000C ≤ off ∧ off < 0x0010) ∨ (0x0018 ≤ off ∧ off < 0x4000) ∨
      (0x4000 + 4 * s.lmWords ≤ off ∧ off < 0x10000)) → s.host = hw off v :: rest →
      ∃ t : State, step s = .next t ∧
        { t with hRdata := s.hRdata } = { s with host := rest, phase := .running, hReady := true }

/-- 60_exceptions.md R239: a host transfer never raises a fault: it never sets ERR and never writes CAUSE (but to clear it)
or ERRCMD, and none is refused past the first reset. -/
def Obligations.HostTransfersNeverFault : Prop :=
  ∀ (s : State) (t : Transfer) (rest : List HostEvent), Ready s → s.host = .transfer t :: rest →
    (∀ u : State, step s = .next u → (u.err = true → s.err = true) ∧ (u.cause = s.cause ∨ u.cause = 0) ∧
      u.errCmd = s.errCmd) ∧
    (∀ r : Refusal, step s ≠ .refused r) ∧
    ∀ r : Fault, step s = .fault r → ∃ (addr : BitVec 14) (i : Nat), t = .read addr ∧ addr.toNat = 0x1000 + i ∧
      i < s.lmWords ∧ Memory.read s.lm i = none ∧ r = .unwrittenWord i

/-! ## Reset -/

/-- 10_state.md R49: the registers after reset. LM lists no word (R33: no word has been written). -/
def Obligations.ResetValues : Prop :=
  State.reset.res = 0 ∧ busy State.reset = false ∧ State.reset.err = false ∧ State.reset.drop = false ∧
    State.reset.cause = 0 ∧ State.reset.errCmd = 0 ∧ State.reset.cmdLo = 0 ∧ State.reset.cmdHi = 0 ∧
    idWord State.reset = 0x01280400 ∧ ∀ j, Memory.read State.reset.lm j = none

/-- 70_reset_and_hazards.md R262: a reset edge gives every register its reset value, abandons the command in flight, changes
no LM word outside the abandoned command's destination regions, and gives no effect to a write; while `rst` stays 1 a
read returns 0. The model's own: a word in flight that does not decode has no destination (notes/assumptions/8.md); the
transfer is over after the edge, and "while `rst` stays 1" means that `rst` was 1 at the edge before
(notes/assumptions/9.md). -/
def Obligations.ResetEdgeKeepsLm : Prop :=
  ∀ (s : State) (tr : Option Transfer) (rest : List HostEvent), s.host = .reset tr :: rest →
    ∃ t : State, step s = .next t ∧ t.res = 0 ∧ busy t = false ∧ t.err = false ∧ t.drop = false ∧ t.cause = 0 ∧
      t.errCmd = 0 ∧ t.cmdLo = 0 ∧ t.cmdHi = 0 ∧ idWord t = idWord s ∧ t.host = rest ∧ t.phase = .resetHeld ∧
      (s.flight = none → t.lm = s.lm) ∧
      (∀ f i, s.flight = some f → decode f.word = .ok i → SameOutside (destRegions i) s.lm t.lm) ∧
      (∀ f e, s.flight = some f → decode f.word = .error e → t.lm = s.lm) ∧
      (∀ addr, tr = some (.read addr) → s.phase = .resetHeld → t.hRdata = 0)

/-- 70_reset_and_hazards.md R264, 93_implementation_defined.md U11: before the first reset the model refuses every transfer
(the model's choice among those U11 allows, 10.md), and the first reset edge leads to a state right after reset. -/
def Obligations.PowerUpNeedsReset : Prop :=
  ∀ (n : Nat) (t : Transfer) (rest : List HostEvent),
    step (powerUp n (.transfer t :: rest)) = .refused .beforeFirstReset ∧
      ∃ u : State, step (powerUp n (.reset none :: rest)) = .next u ∧
        { u with host := [], hRdata := 0, draws := 0 } = State.resetOf n

/-! ## Invariants -/

/-- The invariant `MachineInv`: LM canonical and inside the store, LM_WORDS in range, a legal fault record, and the command in
flight the one the command registers hold. Every step keeps it. -/
def Obligations.StepKeepsInv : Prop := ∀ s t : State, MachineInv s → step s = .next t → MachineInv t

/-- `MachineInv` holds right after reset, for every legal LM_WORDS, and at State.reset. -/
def Obligations.ResetHasInv : Prop :=
  (∀ n, 16 ≤ n → n ≤ 4096 → MachineInv (State.resetOf n)) ∧ MachineInv State.reset

/-- 10_state.md R33: a word that has been written keeps a value: no step, a reset included, makes it unwritten. -/
def Obligations.WrittenWordsKeepAValue : Prop :=
  ∀ (s t : State) (j : Nat), step s = .next t → Memory.read s.lm j ≠ none → Memory.read t.lm j ≠ none

/-- 20_memory.md R76, R79: LM and RES change only by a command in flight, a host write or a reset: an edge without one of
these leaves both, and every register that the host writes, as they are. -/
def Obligations.NothingChangesByItself : Prop :=
  ∀ s t : State, s.flight = none → noReset s = true → (∀ a v rest, s.host ≠ .transfer (.write a v) :: rest) →
    step s = .next t →
      { t with host := s.host, phase := s.phase, hReady := s.hReady, hRdata := s.hRdata } = s
end

