-- ==== Sys2Proof/Laws/Memory.lean ====
section
/-! SUPPORT. LM: read after write, what a write leaves alone, the canonical form, and the value of a region. -/

namespace Sys2Proof.Machine

/-! ## One word -/

@[simp] theorem Memory.read_nil (a : Nat) : Memory.read [] a = none := rfl

@[simp] theorem Memory.read_write_same (m : Memory) (a : Nat) (v : Word) :
    Memory.read (Memory.write m a v) a = some v := by
  induction m with
  | nil => simp [Memory.write, Memory.read]
  | cons c m ih =>
    obtain ⟨b, u⟩ := c
    simp only [Memory.write]
    split_ifs with h1 h2
    · simp [Memory.read]
    · simp [Memory.read]
    · simp [Memory.read, h2, ih]

@[simp] theorem Memory.read_write_other (m : Memory) (a j : Nat) (v : Word) (h : j ≠ a) :
    Memory.read (Memory.write m a v) j = Memory.read m j := by
  induction m with
  | nil => simp [Memory.write, Memory.read, h]
  | cons c m ih =>
    obtain ⟨b, u⟩ := c
    simp only [Memory.write]
    split_ifs with h1 h2
    · simp [Memory.read, h]
    · subst h2; simp [Memory.read, h]
    · simp [Memory.read, ih]

/-! ## The canonical form -/

theorem Memory.risingFrom_mono {lo lo' : Nat} {m : Memory} (h : lo' ≤ lo)
    (hm : Memory.risingFrom lo m = true) : Memory.risingFrom lo' m = true := by
  cases m with
  | nil => rfl
  | cons c m =>
    simp only [Memory.risingFrom, Bool.and_eq_true, decide_eq_true_eq] at hm ⊢
    exact ⟨h.trans hm.1, hm.2⟩

theorem Memory.write_risingFrom {lo : Nat} {m : Memory} {a : Nat} (v : Word) (ha : lo ≤ a)
    (hm : Memory.risingFrom lo m = true) : Memory.risingFrom lo (Memory.write m a v) = true := by
  induction m generalizing lo with
  | nil => simp [Memory.write, Memory.risingFrom, ha]
  | cons c m ih =>
    obtain ⟨b, u⟩ := c
    simp only [Memory.risingFrom, Bool.and_eq_true, decide_eq_true_eq] at hm
    simp only [Memory.write]
    split_ifs with h1 h2
    · simp only [Memory.risingFrom, Bool.and_eq_true, decide_eq_true_eq]
      exact ⟨ha, by omega, hm.2⟩
    · subst h2
      simp only [Memory.risingFrom, Bool.and_eq_true, decide_eq_true_eq]
      exact ⟨ha, hm.2⟩
    · simp only [Memory.risingFrom, Bool.and_eq_true, decide_eq_true_eq]
      exact ⟨hm.1, ih (by omega) hm.2⟩

/-- A write keeps the canonical form. -/
theorem Memory.write_wf {m : Memory} (a : Nat) (v : Word) (h : Memory.wf m = true) :
    Memory.wf (Memory.write m a v) = true := Memory.write_risingFrom v (Nat.zero_le _) h

theorem Memory.mem_write {m : Memory} {a : Nat} {v : Word} {c : Cell} (h : c ∈ Memory.write m a v) :
    c = (a, v) ∨ c ∈ m := by
  induction m with
  | nil => simpa [Memory.write] using h
  | cons d m ih =>
    obtain ⟨b, u⟩ := d
    simp only [Memory.write] at h
    split_ifs at h with h1 h2
    · simpa using h
    · rcases List.mem_cons.1 h with h | h
      · exact .inl h
      · exact .inr (List.mem_cons_of_mem _ h)
    · rcases List.mem_cons.1 h with h | h
      · exact .inr (h ▸ List.mem_cons_self)
      · exact (ih h).imp_right (List.mem_cons_of_mem _)

/-- A word that a canonical memory lists is the one that it reads there. -/
theorem Memory.read_eq_none_of_lt {m : Memory} {lo a : Nat} (h : a < lo)
    (hm : Memory.risingFrom lo m = true) : Memory.read m a = none := by
  induction m generalizing lo with
  | nil => rfl
  | cons c m ih =>
    obtain ⟨b, u⟩ := c
    simp only [Memory.risingFrom, Bool.and_eq_true, decide_eq_true_eq] at hm
    rw [Memory.read, if_neg (by omega)]
    exact ih (by omega) hm.2

/-- Equal reads are equal memories: the canonical form is unique. -/
theorem Memory.ext_of_rising {lo : Nat} {m m' : Memory} (hm : Memory.risingFrom lo m = true)
    (hm' : Memory.risingFrom lo m' = true) (h : ∀ a, Memory.read m a = Memory.read m' a) : m = m' := by
  induction m generalizing lo m' with
  | nil =>
    cases m' with
    | nil => rfl
    | cons c m' => have := h c.1; simp [Memory.read] at this
  | cons c m ih =>
    obtain ⟨b, u⟩ := c
    simp only [Memory.risingFrom, Bool.and_eq_true, decide_eq_true_eq] at hm
    cases m' with
    | nil => have := h b; simp [Memory.read] at this
    | cons c' m' =>
      obtain ⟨b', u'⟩ := c'
      simp only [Memory.risingFrom, Bool.and_eq_true, decide_eq_true_eq] at hm'
      have hb : b = b' := by
        rcases Nat.lt_trichotomy b b' with hlt | heq | hgt
        · have h1 := h b
          rw [Memory.read, if_pos rfl, Memory.read, if_neg (by omega),
            Memory.read_eq_none_of_lt (by omega) hm'.2] at h1
          cases h1
        · exact heq
        · have h1 := h b'
          rw [Memory.read, if_neg (by omega), Memory.read_eq_none_of_lt (by omega) hm.2,
            Memory.read, if_pos rfl] at h1
          cases h1
      subst hb
      have hu : u = u' := by simpa [Memory.read] using h b
      subst hu
      have : m = m' := by
        refine ih hm.2 hm'.2 fun a => ?_
        by_cases hab : a = b
        · subst hab
          rw [Memory.read_eq_none_of_lt (by omega) hm.2, Memory.read_eq_none_of_lt (by omega) hm'.2]
        · have := h a
          simpa [Memory.read, hab] using this
      rw [this]

/-! ## Several words -/

/-- Words outside the written ones read as before. -/
theorem Memory.read_writeWords_outside (m : Memory) (a n v j : Nat) (h : ¬ (a ≤ j ∧ j < a + n)) :
    Memory.read (Memory.writeWords m a n v) j = Memory.read m j := by
  induction n generalizing m a v with
  | zero => rfl
  | succ n ih =>
    rw [Memory.writeWords, ih _ _ _ (by omega), Memory.read_write_other _ _ _ _ (by omega)]

/-- The k-th written word is the k-th limb of the value. -/
theorem Memory.read_writeWords_inside (m : Memory) (a n v k : Nat) (h : k < n) :
    Memory.read (Memory.writeWords m a n v) (a + k) = some (BitVec.ofNat 32 (v / 2 ^ (32 * k))) := by
  induction n generalizing m a v k with
  | zero => omega
  | succ n ih =>
    rw [Memory.writeWords]
    cases k with
    | zero => rw [Memory.read_writeWords_outside _ _ _ _ _ (by omega)]; simp
    | succ k =>
      rw [show a + (k + 1) = a + 1 + k by omega, ih _ _ _ _ (by omega), Nat.div_div_eq_div_mul, ← pow_add]
      congr 4
      omega

theorem Memory.read_writeList_outside (m : Memory) (a : Nat) (vs : List Word) (j : Nat)
    (h : ¬ (a ≤ j ∧ j < a + vs.length)) : Memory.read (Memory.writeList m a vs) j = Memory.read m j := by
  induction vs generalizing m a with
  | nil => rfl
  | cons v vs ih =>
    rw [List.length_cons] at h
    rw [Memory.writeList, ih _ _ (by omega), Memory.read_write_other _ _ _ _ (by omega)]

theorem Memory.read_writeList_inside (m : Memory) (a : Nat) (vs : List Word) (k : Nat) (h : k < vs.length) :
    Memory.read (Memory.writeList m a vs) (a + k) = vs[k]? := by
  induction vs generalizing m a k with
  | nil => simp at h
  | cons v vs ih =>
    rw [Memory.writeList]
    cases k with
    | zero => rw [Memory.read_writeList_outside _ _ _ _ (by omega)]; simp
    | succ k =>
      rw [show a + (k + 1) = a + 1 + k by omega, ih _ _ _ (by simpa using h)]
      simp

theorem Memory.writeWords_wf {m : Memory} (a n v : Nat) (h : Memory.wf m = true) :
    Memory.wf (Memory.writeWords m a n v) = true := by
  induction n generalizing m a v with
  | zero => exact h
  | succ n ih => exact ih _ _ (Memory.write_wf _ _ h)

theorem Memory.writeList_wf {m : Memory} (a : Nat) (vs : List Word) (h : Memory.wf m = true) :
    Memory.wf (Memory.writeList m a vs) = true := by
  induction vs generalizing m a with
  | nil => exact h
  | cons v vs ih => exact ih _ (Memory.write_wf _ _ h)

theorem Memory.mem_writeWords {m : Memory} {a n v : Nat} {c : Cell} (h : c ∈ Memory.writeWords m a n v) :
    (a ≤ c.1 ∧ c.1 < a + n) ∨ c ∈ m := by
  induction n generalizing m a v with
  | zero => exact .inr h
  | succ n ih =>
    rcases ih h with h | h
    · exact .inl (by omega)
    · rcases Memory.mem_write h with h | h
      · exact .inl (by rw [h]; simp)
      · exact .inr h

theorem Memory.mem_writeList {m : Memory} {a : Nat} {vs : List Word} {c : Cell} (h : c ∈ Memory.writeList m a vs) :
    (a ≤ c.1 ∧ c.1 < a + vs.length) ∨ c ∈ m := by
  induction vs generalizing m a with
  | nil => exact .inr h
  | cons v vs ih =>
    rw [List.length_cons]
    rcases ih h with h | h
    · exact .inl (by omega)
    · rcases Memory.mem_write h with h | h
      · exact .inl (by rw [h]; simp)
      · exact .inr h

/-! ## The value of a region -/

theorem valueOf_lt (vs : List Word) : valueOf vs < 2 ^ (32 * vs.length) := by
  induction vs with
  | nil => simp [valueOf]
  | cons v vs ih =>
    have hv := v.isLt
    rw [valueOf, List.length_cons, Nat.mul_succ, pow_add]
    have : 2 ^ 32 * (valueOf vs + 1) ≤ 2 ^ 32 * 2 ^ (32 * vs.length) := Nat.mul_le_mul_left _ ih
    rw [Nat.mul_comm (2 ^ (32 * vs.length))]
    omega

theorem readWords_length {m : Memory} {a n : Nat} {vs : List Word} (h : readWords m a n = .ok vs) :
    vs.length = n := by
  induction n generalizing a vs with
  | zero => simp only [readWords, Except.ok.injEq] at h; simp [← h]
  | succ n ih =>
    simp only [readWords] at h
    split at h
    · cases h
    · split at h
      · cases h
      · rename_i heq
        cases h
        simp [ih heq]

/-- A region has a value below 2^(32·len). -/
theorem memRead_lt {m : Memory} {r : Region} {v : Nat} (h : memRead m r = .ok v) : v < 2 ^ (32 * r.len) := by
  unfold memRead at h
  split at h
  · rename_i vs heq
    cases h
    rw [← readWords_length heq]
    exact valueOf_lt vs
  · cases h

/-- Equal words give equal lists of words. -/
theorem readWords_congr {m m' : Memory} {a n : Nat}
    (h : ∀ j, a ≤ j → j < a + n → Memory.read m' j = Memory.read m j) : readWords m' a n = readWords m a n := by
  induction n generalizing a with
  | zero => rfl
  | succ n ih =>
    simp only [readWords, readWord]
    rw [h a (by omega) (by omega), ih fun j h1 h2 => h j (by omega) (by omega)]

theorem memRead_congr {m m' : Memory} {r : Region}
    (h : ∀ j, r.has j → Memory.read m' j = Memory.read m j) : memRead m' r = memRead m r := by
  unfold memRead
  rw [readWords_congr fun j h1 h2 => h j ⟨h1, h2⟩]

theorem readWords_ok_of {m : Memory} {a : Nat} {vs : List Word}
    (h : ∀ k (hk : k < vs.length), Memory.read m (a + k) = some vs[k]) : readWords m a vs.length = .ok vs := by
  induction vs generalizing a with
  | nil => rfl
  | cons v vs ih =>
    have h0 := h 0 (by simp)
    simp only [Nat.add_zero, List.getElem_cons_zero] at h0
    have := ih (a := a + 1) fun k hk => by
      have := h (k + 1) (by simpa using hk)
      simpa [Nat.add_assoc, Nat.add_comm 1] using this
    simp only [List.length_cons, readWords, readWord, h0, this]

theorem readWords_get {m : Memory} {a n : Nat} {vs : List Word} (h : readWords m a n = .ok vs) :
    ∀ k (hk : k < vs.length), Memory.read m (a + k) = some vs[k] := by
  induction n generalizing a vs with
  | zero => simp only [readWords, Except.ok.injEq] at h; subst h; intro k hk; simp at hk
  | succ n ih =>
    simp only [readWords] at h
    split at h
    · cases h
    · rename_i v hv
      split at h
      · cases h
      · rename_i vs' heq
        cases h
        intro k hk
        cases k with
        | zero =>
          simp only [readWord] at hv
          split at hv
          · rename_i u hu; cases hv; simpa using hu
          · cases hv
        | succ k =>
          have := ih heq k (by simpa using hk)
          simpa [Nat.add_assoc, Nat.add_comm 1] using this

/-- The words of a value, least significant first. -/
def wordsOf : Nat → Nat → List Word
  | 0, _ => []
  | n + 1, v => BitVec.ofNat 32 v :: wordsOf n (v / 2 ^ 32)

@[simp] theorem wordsOf_length (n v : Nat) : (wordsOf n v).length = n := by
  induction n generalizing v with
  | zero => rfl
  | succ n ih => simp [wordsOf, ih]

theorem wordsOf_get (n v k : Nat) (hk : k < (wordsOf n v).length) :
    (wordsOf n v)[k] = BitVec.ofNat 32 (v / 2 ^ (32 * k)) := by
  induction n generalizing v k with
  | zero => simp [wordsOf] at hk
  | succ n ih =>
    cases k with
    | zero => simp [wordsOf]
    | succ k =>
      simp only [wordsOf, List.getElem_cons_succ]
      rw [ih _ _ (by simpa [wordsOf] using hk), Nat.div_div_eq_div_mul, ← pow_add]
      congr 3
      omega

theorem valueOf_wordsOf (n v : Nat) : valueOf (wordsOf n v) = v % 2 ^ (32 * n) := by
  induction n generalizing v with
  | zero => simp [wordsOf, valueOf, Nat.mod_one]
  | succ n ih =>
    rw [wordsOf, valueOf, ih, BitVec.toNat_ofNat, Nat.mul_succ, Nat.add_comm (32 * n), pow_add, Nat.mod_mul]

theorem readWords_writeWords (m : Memory) (a n v : Nat) :
    readWords (Memory.writeWords m a n v) a n = .ok (wordsOf n v) := by
  have := readWords_ok_of (m := Memory.writeWords m a n v) (a := a) (vs := wordsOf n v) fun k hk => by
    rw [wordsOf_get, Memory.read_writeWords_inside _ _ _ _ _ (by simpa using hk)]
  simpa using this

/-- Reading a region after a store to it gives the stored value, reduced to the region's width. -/
theorem memRead_writeWords (m : Memory) (r : Region) (v : Nat) :
    memRead (Memory.writeWords m r.addr r.len v) r = .ok (v % 2 ^ (32 * r.len)) := by
  rw [memRead, readWords_writeWords]
  simp [valueOf_wordsOf]

theorem readWords_writeList (m : Memory) (a : Nat) (vs : List Word) :
    readWords (Memory.writeList m a vs) a vs.length = .ok vs :=
  readWords_ok_of fun k hk => by
    rw [Memory.read_writeList_inside _ _ _ _ hk]
    simp [hk]

end Sys2Proof.Machine
end

