-- ==== Sys2Proof/Laws/State.lean ====
section
/-! SUPPORT. The fields of every state update: one lemma per field per update, so that no proof unfolds a record update. -/

namespace Sys2Proof.Machine

/-! ## takeFault -/

@[simp] theorem takeFault_lm (k : BitVec 4) (cw : DWord) (s : State) : (takeFault k cw s).lm = s.lm := rfl
@[simp] theorem takeFault_res (k : BitVec 4) (cw : DWord) (s : State) : (takeFault k cw s).res = s.res := rfl
@[simp] theorem takeFault_err (k : BitVec 4) (cw : DWord) (s : State) : (takeFault k cw s).err = true := rfl
@[simp] theorem takeFault_drop (k : BitVec 4) (cw : DWord) (s : State) : (takeFault k cw s).drop = s.drop := rfl
@[simp] theorem takeFault_cause (k : BitVec 4) (cw : DWord) (s : State) : (takeFault k cw s).cause = k := rfl
@[simp] theorem takeFault_errCmd (k : BitVec 4) (cw : DWord) (s : State) : (takeFault k cw s).errCmd = cw := rfl
@[simp] theorem takeFault_cmdLo (k : BitVec 4) (cw : DWord) (s : State) : (takeFault k cw s).cmdLo = s.cmdLo := rfl
@[simp] theorem takeFault_cmdHi (k : BitVec 4) (cw : DWord) (s : State) : (takeFault k cw s).cmdHi = s.cmdHi := rfl
@[simp] theorem takeFault_lmWords (k : BitVec 4) (cw : DWord) (s : State) : (takeFault k cw s).lmWords = s.lmWords := rfl
@[simp] theorem takeFault_flight (k : BitVec 4) (cw : DWord) (s : State) : (takeFault k cw s).flight = s.flight := rfl
@[simp] theorem takeFault_phase (k : BitVec 4) (cw : DWord) (s : State) : (takeFault k cw s).phase = s.phase := rfl
@[simp] theorem takeFault_hReady (k : BitVec 4) (cw : DWord) (s : State) : (takeFault k cw s).hReady = s.hReady := rfl
@[simp] theorem takeFault_hRdata (k : BitVec 4) (cw : DWord) (s : State) : (takeFault k cw s).hRdata = s.hRdata := rfl
@[simp] theorem takeFault_host (k : BitVec 4) (cw : DWord) (s : State) : (takeFault k cw s).host = s.host := rfl
@[simp] theorem takeFault_draws (k : BitVec 4) (cw : DWord) (s : State) : (takeFault k cw s).draws = s.draws := rfl

/-! ## clearFault -/

@[simp] theorem clearFault_lm (s : State) : (clearFault s).lm = s.lm := rfl
@[simp] theorem clearFault_res (s : State) : (clearFault s).res = s.res := rfl
@[simp] theorem clearFault_err (s : State) : (clearFault s).err = false := rfl
@[simp] theorem clearFault_drop (s : State) : (clearFault s).drop = false := rfl
@[simp] theorem clearFault_cause (s : State) : (clearFault s).cause = 0 := rfl
@[simp] theorem clearFault_errCmd (s : State) : (clearFault s).errCmd = s.errCmd := rfl
@[simp] theorem clearFault_cmdLo (s : State) : (clearFault s).cmdLo = s.cmdLo := rfl
@[simp] theorem clearFault_cmdHi (s : State) : (clearFault s).cmdHi = s.cmdHi := rfl
@[simp] theorem clearFault_lmWords (s : State) : (clearFault s).lmWords = s.lmWords := rfl
@[simp] theorem clearFault_flight (s : State) : (clearFault s).flight = s.flight := rfl
@[simp] theorem clearFault_phase (s : State) : (clearFault s).phase = s.phase := rfl
@[simp] theorem clearFault_hReady (s : State) : (clearFault s).hReady = s.hReady := rfl
@[simp] theorem clearFault_hRdata (s : State) : (clearFault s).hRdata = s.hRdata := rfl
@[simp] theorem clearFault_host (s : State) : (clearFault s).host = s.host := rfl
@[simp] theorem clearFault_draws (s : State) : (clearFault s).draws = s.draws := rfl

/-! ## store -/

@[simp] theorem store_lm (r : Region) (v : Nat) (s : State) :
    (store r v s).lm = Memory.writeWords s.lm r.addr r.len v := rfl
@[simp] theorem store_res (r : Region) (v : Nat) (s : State) : (store r v s).res = s.res := rfl
@[simp] theorem store_err (r : Region) (v : Nat) (s : State) : (store r v s).err = s.err := rfl
@[simp] theorem store_drop (r : Region) (v : Nat) (s : State) : (store r v s).drop = s.drop := rfl
@[simp] theorem store_cause (r : Region) (v : Nat) (s : State) : (store r v s).cause = s.cause := rfl
@[simp] theorem store_errCmd (r : Region) (v : Nat) (s : State) : (store r v s).errCmd = s.errCmd := rfl
@[simp] theorem store_cmdLo (r : Region) (v : Nat) (s : State) : (store r v s).cmdLo = s.cmdLo := rfl
@[simp] theorem store_cmdHi (r : Region) (v : Nat) (s : State) : (store r v s).cmdHi = s.cmdHi := rfl
@[simp] theorem store_lmWords (r : Region) (v : Nat) (s : State) : (store r v s).lmWords = s.lmWords := rfl
@[simp] theorem store_flight (r : Region) (v : Nat) (s : State) : (store r v s).flight = s.flight := rfl
@[simp] theorem store_phase (r : Region) (v : Nat) (s : State) : (store r v s).phase = s.phase := rfl
@[simp] theorem store_hReady (r : Region) (v : Nat) (s : State) : (store r v s).hReady = s.hReady := rfl
@[simp] theorem store_hRdata (r : Region) (v : Nat) (s : State) : (store r v s).hRdata = s.hRdata := rfl
@[simp] theorem store_host (r : Region) (v : Nat) (s : State) : (store r v s).host = s.host := rfl
@[simp] theorem store_draws (r : Region) (v : Nat) (s : State) : (store r v s).draws = s.draws := rfl

/-! ## setRes -/

@[simp] theorem setRes_lm (v : DWord) (s : State) : (setRes v s).lm = s.lm := rfl
@[simp] theorem setRes_res (v : DWord) (s : State) : (setRes v s).res = v := rfl
@[simp] theorem setRes_err (v : DWord) (s : State) : (setRes v s).err = s.err := rfl
@[simp] theorem setRes_drop (v : DWord) (s : State) : (setRes v s).drop = s.drop := rfl
@[simp] theorem setRes_cause (v : DWord) (s : State) : (setRes v s).cause = s.cause := rfl
@[simp] theorem setRes_errCmd (v : DWord) (s : State) : (setRes v s).errCmd = s.errCmd := rfl
@[simp] theorem setRes_cmdLo (v : DWord) (s : State) : (setRes v s).cmdLo = s.cmdLo := rfl
@[simp] theorem setRes_cmdHi (v : DWord) (s : State) : (setRes v s).cmdHi = s.cmdHi := rfl
@[simp] theorem setRes_lmWords (v : DWord) (s : State) : (setRes v s).lmWords = s.lmWords := rfl
@[simp] theorem setRes_flight (v : DWord) (s : State) : (setRes v s).flight = s.flight := rfl
@[simp] theorem setRes_phase (v : DWord) (s : State) : (setRes v s).phase = s.phase := rfl
@[simp] theorem setRes_hReady (v : DWord) (s : State) : (setRes v s).hReady = s.hReady := rfl
@[simp] theorem setRes_hRdata (v : DWord) (s : State) : (setRes v s).hRdata = s.hRdata := rfl
@[simp] theorem setRes_host (v : DWord) (s : State) : (setRes v s).host = s.host := rfl
@[simp] theorem setRes_draws (v : DWord) (s : State) : (setRes v s).draws = s.draws := rfl

/-! ## commitExact -/

@[simp] theorem commitExact_lm (r : Region) (v : Int) (s : State) :
    (commitExact r v s).lm = Memory.writeWords s.lm r.addr r.len (lowPart (32 * r.len) v) := rfl
@[simp] theorem commitExact_res (r : Region) (v : Int) (s : State) :
    (commitExact r v s).res = scalar (carryOut (32 * r.len) v) := rfl
@[simp] theorem commitExact_err (r : Region) (v : Int) (s : State) :
    (commitExact r v s).err = s.err := rfl
@[simp] theorem commitExact_drop (r : Region) (v : Int) (s : State) :
    (commitExact r v s).drop = s.drop := rfl
@[simp] theorem commitExact_cause (r : Region) (v : Int) (s : State) :
    (commitExact r v s).cause = s.cause := rfl
@[simp] theorem commitExact_errCmd (r : Region) (v : Int) (s : State) :
    (commitExact r v s).errCmd = s.errCmd := rfl
@[simp] theorem commitExact_cmdLo (r : Region) (v : Int) (s : State) :
    (commitExact r v s).cmdLo = s.cmdLo := rfl
@[simp] theorem commitExact_cmdHi (r : Region) (v : Int) (s : State) :
    (commitExact r v s).cmdHi = s.cmdHi := rfl
@[simp] theorem commitExact_lmWords (r : Region) (v : Int) (s : State) :
    (commitExact r v s).lmWords = s.lmWords := rfl
@[simp] theorem commitExact_flight (r : Region) (v : Int) (s : State) :
    (commitExact r v s).flight = s.flight := rfl
@[simp] theorem commitExact_phase (r : Region) (v : Int) (s : State) :
    (commitExact r v s).phase = s.phase := rfl
@[simp] theorem commitExact_hReady (r : Region) (v : Int) (s : State) :
    (commitExact r v s).hReady = s.hReady := rfl
@[simp] theorem commitExact_hRdata (r : Region) (v : Int) (s : State) :
    (commitExact r v s).hRdata = s.hRdata := rfl
@[simp] theorem commitExact_host (r : Region) (v : Int) (s : State) :
    (commitExact r v s).host = s.host := rfl
@[simp] theorem commitExact_draws (r : Region) (v : Int) (s : State) :
    (commitExact r v s).draws = s.draws := rfl

/-! ## setReady -/

@[simp] theorem setReady_lm (b : Bool) (s : State) : (setReady b s).lm = s.lm := rfl
@[simp] theorem setReady_res (b : Bool) (s : State) : (setReady b s).res = s.res := rfl
@[simp] theorem setReady_err (b : Bool) (s : State) : (setReady b s).err = s.err := rfl
@[simp] theorem setReady_drop (b : Bool) (s : State) : (setReady b s).drop = s.drop := rfl
@[simp] theorem setReady_cause (b : Bool) (s : State) : (setReady b s).cause = s.cause := rfl
@[simp] theorem setReady_errCmd (b : Bool) (s : State) : (setReady b s).errCmd = s.errCmd := rfl
@[simp] theorem setReady_cmdLo (b : Bool) (s : State) : (setReady b s).cmdLo = s.cmdLo := rfl
@[simp] theorem setReady_cmdHi (b : Bool) (s : State) : (setReady b s).cmdHi = s.cmdHi := rfl
@[simp] theorem setReady_lmWords (b : Bool) (s : State) : (setReady b s).lmWords = s.lmWords := rfl
@[simp] theorem setReady_flight (b : Bool) (s : State) : (setReady b s).flight = s.flight := rfl
@[simp] theorem setReady_phase (b : Bool) (s : State) : (setReady b s).phase = s.phase := rfl
@[simp] theorem setReady_hReady (b : Bool) (s : State) : (setReady b s).hReady = b := rfl
@[simp] theorem setReady_hRdata (b : Bool) (s : State) : (setReady b s).hRdata = s.hRdata := rfl
@[simp] theorem setReady_host (b : Bool) (s : State) : (setReady b s).host = s.host := rfl
@[simp] theorem setReady_draws (b : Bool) (s : State) : (setReady b s).draws = s.draws := rfl

/-! ## readDone -/

@[simp] theorem readDone_lm (v : Word) (s : State) : (readDone v s).lm = s.lm := rfl
@[simp] theorem readDone_res (v : Word) (s : State) : (readDone v s).res = s.res := rfl
@[simp] theorem readDone_err (v : Word) (s : State) : (readDone v s).err = s.err := rfl
@[simp] theorem readDone_drop (v : Word) (s : State) : (readDone v s).drop = s.drop := rfl
@[simp] theorem readDone_cause (v : Word) (s : State) : (readDone v s).cause = s.cause := rfl
@[simp] theorem readDone_errCmd (v : Word) (s : State) : (readDone v s).errCmd = s.errCmd := rfl
@[simp] theorem readDone_cmdLo (v : Word) (s : State) : (readDone v s).cmdLo = s.cmdLo := rfl
@[simp] theorem readDone_cmdHi (v : Word) (s : State) : (readDone v s).cmdHi = s.cmdHi := rfl
@[simp] theorem readDone_lmWords (v : Word) (s : State) : (readDone v s).lmWords = s.lmWords := rfl
@[simp] theorem readDone_flight (v : Word) (s : State) : (readDone v s).flight = s.flight := rfl
@[simp] theorem readDone_phase (v : Word) (s : State) : (readDone v s).phase = s.phase := rfl
@[simp] theorem readDone_hReady (v : Word) (s : State) : (readDone v s).hReady = true := rfl
@[simp] theorem readDone_hRdata (v : Word) (s : State) : (readDone v s).hRdata = v := rfl
@[simp] theorem readDone_host (v : Word) (s : State) : (readDone v s).host = s.host := rfl
@[simp] theorem readDone_draws (v : Word) (s : State) : (readDone v s).draws = s.draws := rfl

/-! ## leaveReset -/

@[simp] theorem leaveReset_lm (s : State) : (leaveReset s).lm = s.lm := rfl
@[simp] theorem leaveReset_res (s : State) : (leaveReset s).res = s.res := rfl
@[simp] theorem leaveReset_err (s : State) : (leaveReset s).err = s.err := rfl
@[simp] theorem leaveReset_drop (s : State) : (leaveReset s).drop = s.drop := rfl
@[simp] theorem leaveReset_cause (s : State) : (leaveReset s).cause = s.cause := rfl
@[simp] theorem leaveReset_errCmd (s : State) : (leaveReset s).errCmd = s.errCmd := rfl
@[simp] theorem leaveReset_cmdLo (s : State) : (leaveReset s).cmdLo = s.cmdLo := rfl
@[simp] theorem leaveReset_cmdHi (s : State) : (leaveReset s).cmdHi = s.cmdHi := rfl
@[simp] theorem leaveReset_lmWords (s : State) : (leaveReset s).lmWords = s.lmWords := rfl
@[simp] theorem leaveReset_flight (s : State) : (leaveReset s).flight = s.flight := rfl
@[simp] theorem leaveReset_phase (s : State) :
    (leaveReset s).phase = if s.phase = .unreset then .unreset else .running := rfl
@[simp] theorem leaveReset_hReady (s : State) : (leaveReset s).hReady = s.hReady := rfl
@[simp] theorem leaveReset_hRdata (s : State) : (leaveReset s).hRdata = s.hRdata := rfl
@[simp] theorem leaveReset_host (s : State) : (leaveReset s).host = s.host := rfl
@[simp] theorem leaveReset_draws (s : State) : (leaveReset s).draws = s.draws := rfl

/-! ## tick -/

@[simp] theorem tick_lm (f : Flight) (d : Bool) (s : State) : (tick f d s).lm = s.lm := rfl
@[simp] theorem tick_res (f : Flight) (d : Bool) (s : State) : (tick f d s).res = s.res := rfl
@[simp] theorem tick_err (f : Flight) (d : Bool) (s : State) : (tick f d s).err = s.err := rfl
@[simp] theorem tick_drop (f : Flight) (d : Bool) (s : State) : (tick f d s).drop = s.drop := rfl
@[simp] theorem tick_cause (f : Flight) (d : Bool) (s : State) : (tick f d s).cause = s.cause := rfl
@[simp] theorem tick_errCmd (f : Flight) (d : Bool) (s : State) : (tick f d s).errCmd = s.errCmd := rfl
@[simp] theorem tick_cmdLo (f : Flight) (d : Bool) (s : State) : (tick f d s).cmdLo = s.cmdLo := rfl
@[simp] theorem tick_cmdHi (f : Flight) (d : Bool) (s : State) : (tick f d s).cmdHi = s.cmdHi := rfl
@[simp] theorem tick_lmWords (f : Flight) (d : Bool) (s : State) : (tick f d s).lmWords = s.lmWords := rfl
@[simp] theorem tick_flight (f : Flight) (d : Bool) (s : State) :
    (tick f d s).flight = if f.remaining ≤ 1 then none else some { f with remaining := f.remaining - 1, done := d } := rfl
@[simp] theorem tick_phase (f : Flight) (d : Bool) (s : State) : (tick f d s).phase = s.phase := rfl
@[simp] theorem tick_hReady (f : Flight) (d : Bool) (s : State) : (tick f d s).hReady = s.hReady := rfl
@[simp] theorem tick_hRdata (f : Flight) (d : Bool) (s : State) : (tick f d s).hRdata = s.hRdata := rfl
@[simp] theorem tick_host (f : Flight) (d : Bool) (s : State) : (tick f d s).host = s.host := rfl
@[simp] theorem tick_draws (f : Flight) (d : Bool) (s : State) : (tick f d s).draws = s.draws := rfl

/-! ## resetRegisters -/

@[simp] theorem resetRegisters_lm (s : State) : (resetRegisters s).lm = s.lm := rfl
@[simp] theorem resetRegisters_res (s : State) : (resetRegisters s).res = 0 := rfl
@[simp] theorem resetRegisters_err (s : State) : (resetRegisters s).err = false := rfl
@[simp] theorem resetRegisters_drop (s : State) : (resetRegisters s).drop = false := rfl
@[simp] theorem resetRegisters_cause (s : State) : (resetRegisters s).cause = 0 := rfl
@[simp] theorem resetRegisters_errCmd (s : State) : (resetRegisters s).errCmd = 0 := rfl
@[simp] theorem resetRegisters_cmdLo (s : State) : (resetRegisters s).cmdLo = 0 := rfl
@[simp] theorem resetRegisters_cmdHi (s : State) : (resetRegisters s).cmdHi = 0 := rfl
@[simp] theorem resetRegisters_lmWords (s : State) : (resetRegisters s).lmWords = s.lmWords := rfl
@[simp] theorem resetRegisters_flight (s : State) : (resetRegisters s).flight = s.flight := rfl
@[simp] theorem resetRegisters_phase (s : State) : (resetRegisters s).phase = .resetHeld := rfl
@[simp] theorem resetRegisters_hReady (s : State) : (resetRegisters s).hReady = s.hReady := rfl
@[simp] theorem resetRegisters_hRdata (s : State) : (resetRegisters s).hRdata = s.hRdata := rfl
@[simp] theorem resetRegisters_host (s : State) : (resetRegisters s).host = s.host := rfl
@[simp] theorem resetRegisters_draws (s : State) : (resetRegisters s).draws = s.draws := rfl

end Sys2Proof.Machine
end

