-- ==== Sys2Proof/Laws/Command.lean ====
section
/-! SUPPORT. The frame of a command: its region checks, everything it can answer, and what its commits leave. -/

namespace Sys2Proof.Machine

/-! ## The region checks -/

theorem chk_ok_iff {s : State} {r : Region} : chk s r = .ok () ↔ r.inside s.lmWords := by
  unfold chk; split_ifs with h <;> simp [h]

theorem chkAll_inside {s : State} {rs : List Region} (h : ∀ r ∈ rs, r.inside s.lmWords) : chkAll s rs = .ok () := by
  induction rs with
  | nil => rfl
  | cons r rs ih =>
    rw [chkAll, chk_ok_iff.2 (h r List.mem_cons_self)]
    exact ih fun q hq => h q (List.mem_cons_of_mem _ hq)

theorem chkAll_outside {s : State} {rs : List Region} (h : ¬ ∀ r ∈ rs, r.inside s.lmWords) :
    chkAll s rs = .error (.cause causeAddrRange) := by
  induction rs with
  | nil => simp at h
  | cons r rs ih =>
    by_cases hr : r.inside s.lmWords
    · rw [chkAll, chk_ok_iff.2 hr]
      exact ih fun hall => h (List.forall_mem_cons.2 ⟨hr, hall⟩)
    · rw [chkAll, chk, if_neg hr]

/-! ## The frame -/

/-- With its regions inside LM, a command runs its body. -/
theorem command_inside {i : Instr} {s : State} {body : Except Stop State} (h : RegionsInside i s) :
    command i s body = finish i s body := by
  rw [command, chkAll_inside h]

/-- With a region past the end of LM, a command records ADDR_RANGE, whatever LM holds. -/
theorem command_outside {i : Instr} {s : State} {body : Except Stop State} (h : ¬ RegionsInside i s) :
    command i s body = .next (takeFault causeAddrRange (encode i) s) := by
  rw [command, chkAll_outside h]; rfl

/-- Everything a command that answers a next state can have done: its commit, or a fault record alone. -/
theorem command_next {i : Instr} {s t : State} {body : Except Stop State} (h : command i s body = .next t) :
    (RegionsInside i s ∧ body = .ok t) ∨
    (¬ RegionsInside i s ∧ t = takeFault causeAddrRange (encode i) s) ∨
    (RegionsInside i s ∧ ∃ k, body = .error (.cause k) ∧ t = takeFault k (encode i) s) := by
  by_cases hi : RegionsInside i s
  · rw [command_inside hi] at h
    match body, h with
    | .ok u, h => cases h; exact .inl ⟨hi, rfl⟩
    | .error (.cause k), h => cases h; exact .inr (.inr ⟨hi, k, rfl, rfl⟩)
    | .error (.unwritten a), h => cases h
  · rw [command_outside hi] at h
    cases h
    exact .inr (.inl ⟨hi, rfl⟩)

/-- A command never refuses. -/
theorem command_not_refused (i : Instr) (s : State) (body : Except Stop State) (r : Refusal) :
    command i s body ≠ .refused r := by
  unfold command finish; split <;> simp

/-! ## Operand reads -/

theorem readWord_error {m : Memory} {a : Nat} {e : Stop} (h : readWord m a = .error e) : ∃ j, e = .unwritten j := by
  unfold readWord at h
  split at h <;> cases h
  exact ⟨a, rfl⟩

theorem readWords_error {m : Memory} {a n : Nat} {e : Stop} (h : readWords m a n = .error e) :
    ∃ j, e = .unwritten j := by
  induction n generalizing a with
  | zero => cases h
  | succ n ih =>
    simp only [readWords] at h
    split at h
    · rename_i heq; cases h; exact readWord_error heq
    · split at h
      · rename_i heq; cases h; exact ih heq
      · cases h

theorem memRead_error {m : Memory} {r : Region} {e : Stop} (h : memRead m r = .error e) : ∃ j, e = .unwritten j := by
  unfold memRead at h
  split at h <;> cases h
  rename_i heq
  exact readWords_error heq

/-- A body that reads one value: it was read, or a word of it was never written. -/
theorem withOne_cases (s : State) (x : Region) (k : Nat → Except Stop State) :
    (∃ vx, memRead s.lm x = .ok vx ∧ withOne s x k = k vx) ∨ ∃ j, withOne s x k = .error (.unwritten j) := by
  unfold withOne
  split
  · rename_i v hv; exact .inl ⟨v, hv, rfl⟩
  · rename_i e he; obtain ⟨j, rfl⟩ := memRead_error he; exact .inr ⟨j, rfl⟩

theorem withTwo_cases (s : State) (x y : Region) (k : Nat → Nat → Except Stop State) :
    (∃ vx vy, memRead s.lm x = .ok vx ∧ memRead s.lm y = .ok vy ∧ withTwo s x y k = k vx vy) ∨
      ∃ j, withTwo s x y k = .error (.unwritten j) := by
  unfold withTwo
  rcases withOne_cases s x (fun vx => withOne s y fun vy => k vx vy) with ⟨vx, hx, h⟩ | ⟨j, h⟩
  · rw [h]
    rcases withOne_cases s y (fun vy => k vx vy) with ⟨vy, hy, h'⟩ | ⟨j, h'⟩
    · exact .inl ⟨vx, vy, hx, hy, h'⟩
    · exact .inr ⟨j, h'⟩
  · exact .inr ⟨j, h⟩

theorem withThree_cases (s : State) (x y z : Region) (k : Nat → Nat → Nat → Except Stop State) :
    (∃ vx vy vz, memRead s.lm x = .ok vx ∧ memRead s.lm y = .ok vy ∧ memRead s.lm z = .ok vz ∧
        withThree s x y z k = k vx vy vz) ∨
      ∃ j, withThree s x y z k = .error (.unwritten j) := by
  unfold withThree
  rcases withTwo_cases s x y (fun vx vy => withOne s z fun vz => k vx vy vz) with ⟨vx, vy, hx, hy, h⟩ | ⟨j, h⟩
  · rw [h]
    rcases withOne_cases s z (fun vz => k vx vy vz) with ⟨vz, hz, h'⟩ | ⟨j, h'⟩
    · exact .inl ⟨vx, vy, vz, hx, hy, hz, h'⟩
    · exact .inr ⟨j, h'⟩
  · exact .inr ⟨j, h⟩

theorem withOne_ok {s : State} {x : Region} {vx : Nat} {k : Nat → Except Stop State}
    (hx : memRead s.lm x = .ok vx) : withOne s x k = k vx := by
  rw [withOne, hx]

theorem withTwo_ok {s : State} {x y : Region} {vx vy : Nat} {k : Nat → Nat → Except Stop State}
    (hx : memRead s.lm x = .ok vx) (hy : memRead s.lm y = .ok vy) : withTwo s x y k = k vx vy := by
  rw [withTwo, withOne_ok hx, withOne_ok hy]

theorem withThree_ok {s : State} {x y z : Region} {vx vy vz : Nat} {k : Nat → Nat → Nat → Except Stop State}
    (hx : memRead s.lm x = .ok vx) (hy : memRead s.lm y = .ok vy) (hz : memRead s.lm z = .ok vz) :
    withThree s x y z k = k vx vy vz := by
  rw [withThree, withTwo_ok hx hy, withOne_ok hz]

/-! ## Exact results and scalars -/

/-- The low part and the carry or borrow make up the exact result (41_additive.md, the laws). -/
theorem lowPart_add_carryOut (bits : Nat) (v : Int) : (lowPart bits v : Int) + carryOut bits v * 2 ^ bits = v := by
  have hp : (0 : Int) < 2 ^ bits := by positivity
  rw [lowPart, carryOut, Int.toNat_of_nonneg (Int.emod_nonneg _ hp.ne'), Int.mul_comm]
  exact Int.emod_add_mul_ediv v (2 ^ bits)

theorem lowPart_lt (bits : Nat) (v : Int) : lowPart bits v < 2 ^ bits := by
  have hp : (0 : Int) < 2 ^ bits := by positivity
  have := Int.emod_lt_of_pos v hp
  rw [lowPart, Int.toNat_lt (Int.emod_nonneg _ hp.ne')]
  exact_mod_cast this

theorem lowPart_natCast (bits n : Nat) : lowPart bits (n : Int) = n % 2 ^ bits := by
  unfold lowPart
  have : ((n : Int) % 2 ^ bits) = ((n % 2 ^ bits : Nat) : Int) := by push_cast; rfl
  rw [this, Int.toNat_natCast]

/-- RES holds an integer of 64 bits exactly (10_state.md R34). -/
theorem scalar_toInt {v : Int} (h1 : -2 ^ 63 ≤ v) (h2 : v < 2 ^ 63) : (scalar v).toInt = v := by
  rw [scalar, BitVec.toInt_ofInt]
  exact Int.bmod_eq_of_le (by norm_num; omega) (by norm_num; omega)

@[simp] theorem boolScalar_toInt (b : Bool) : (boolScalar b).toInt = if b then 1 else 0 := by
  cases b <;> decide

/-! ## The commits -/

theorem memRead_store (r : Region) (v : Nat) (s : State) :
    memRead (store r v s).lm r = .ok (v % 2 ^ (32 * r.len)) := memRead_writeWords _ _ _

theorem store_sameOutside (r : Region) (v : Nat) (s : State) : SameOutside [r] s.lm (store r v s).lm := by
  intro j hj
  exact Memory.read_writeWords_outside _ _ _ _ _ (hj r (by simp))

theorem commitExact_lm_eq (r : Region) (v : Int) (s : State) :
    (commitExact r v s).lm = (store r (lowPart (32 * r.len) v) s).lm := rfl

theorem memRead_commitExact (r : Region) (v : Int) (s : State) :
    memRead (commitExact r v s).lm r = .ok (lowPart (32 * r.len) v) := by
  rw [commitExact_lm_eq, memRead_store, Nat.mod_eq_of_lt (lowPart_lt _ _)]

/-! ## FROMBI -/

theorem frombiCommit_fault {w : View} {c : Nat} {hdr : Word} {ws : List Word} {s : State}
    (h : (biSign hdr = true ∧ biMagnitude (biBytes hdr) ws ≠ 0) ∨ 2 ^ 128 ≤ biMagnitude (biBytes hdr) ws) :
    frombiCommit w c hdr ws s = .error (.cause causeRangeViolation) := by
  unfold frombiCommit
  dsimp only
  split_ifs with h1 h2
  · rfl
  · rfl
  · exact absurd h (not_or.2 ⟨h1, h2⟩)

theorem frombiCommit_store {w : View} {c : Nat} {hdr : Word} {ws : List Word} {s : State}
    (h : ¬ ((biSign hdr = true ∧ biMagnitude (biBytes hdr) ws ≠ 0) ∨ 2 ^ 128 ≤ biMagnitude (biBytes hdr) ws)) :
    frombiCommit w c hdr ws s = .ok (store (nat128 w c) (biMagnitude (biBytes hdr) ws) s) := by
  obtain ⟨h1, h2⟩ := not_or.1 h
  unfold frombiCommit
  dsimp only
  rw [if_neg h1, if_neg h2]

/-- Everything the body of FROMBI can answer once its named regions are inside LM. -/
theorem execFrombi_cases (w : View) (a c : Nat) (s : State) (hR : RegionsInside (.frombi w a c) s) :
    (∃ j, execFrombi w a c s = .fault (.unwrittenWord j)) ∨
    ∃ hdr, Memory.read s.lm (ea w a) = some hdr ∧
      ((¬ (frombiImage w a hdr).inside s.lmWords ∧
          execFrombi w a c s = .next (takeFault causeAddrRange (encode (.frombi w a c)) s)) ∨
        ((frombiImage w a hdr).inside s.lmWords ∧
          ∃ ws, readWords s.lm (ea w a + 1) (biWords (biBytes hdr)) = .ok ws ∧
            execFrombi w a c s = finish (.frombi w a c) s (frombiCommit w c hdr ws s))) := by
  rw [execFrombi, command_inside hR]
  cases hr : Memory.read s.lm (ea w a) with
  | none => exact .inl ⟨ea w a, by simp [readWord, hr, finish]⟩
  | some hdr =>
    simp only [readWord, hr]
    by_cases hk : (frombiImage w a hdr).inside s.lmWords
    · rw [chk_ok_iff.2 hk]
      cases hws : readWords s.lm (ea w a + 1) (biWords (biBytes hdr)) with
      | error e => obtain ⟨j, rfl⟩ := readWords_error hws; exact .inl ⟨j, rfl⟩
      | ok ws => exact .inr ⟨hdr, rfl, .inr ⟨hk, ws, hws, rfl⟩⟩
    · rw [chk, if_neg hk]
      exact .inr ⟨hdr, rfl, .inl ⟨hk, rfl⟩⟩

/-! ## What a command does not see -/

theorem chkAll_congr {s s' : State} (h : s'.lmWords = s.lmWords) (rs : List Region) : chkAll s' rs = chkAll s rs := by
  induction rs with
  | nil => rfl
  | cons r rs ih => rw [chkAll, chkAll, chk, chk, h, ih]

end Sys2Proof.Machine
end

