-- ==== Sys2Proof/Laws/Cycle.lean ====
section
/-! SUPPORT. One edge of the clock: what the step is for each thing the host can drive, the map of the host window, and
what `exec` can do to the fields that no command writes. -/

namespace Sys2Proof.Machine

/-! ## The step, by what the host drives -/

theorem step_nil {s : State} (h : s.host = []) : step s = idleEdge [] s := by
  rw [step, clockEdge, h]

theorem step_idle {s : State} {rest : List HostEvent} (h : s.host = .idle :: rest) : step s = idleEdge rest s := by
  rw [step, clockEdge, h]

theorem step_transfer {s : State} {t : Transfer} {rest : List HostEvent} (h : s.host = .transfer t :: rest) :
    step s = transferEdge t rest s := by
  rw [step, clockEdge, h]

theorem step_reset {s : State} {t : Option Transfer} {rest : List HostEvent} (h : s.host = .reset t :: rest) :
    step s = .next (resetEdge t rest s) := by
  rw [step, clockEdge, h]

/-- A transfer to an idle block past the first reset completes at its edge (70_reset_and_hazards.md R270). -/
theorem step_transfer_ready {s : State} {t : Transfer} {rest : List HostEvent} (hr : Ready s)
    (h : s.host = .transfer t :: rest) : step s = completeTransfer t { s with host := rest, phase := .running } := by
  obtain ⟨hf, hp⟩ := hr
  rw [step_transfer h, transferEdge, if_neg hp]
  simp [busy, hf, leaveReset, hp]

/-- With no command in flight an edge does nothing for one. -/
theorem advance_none {s : State} (h : s.flight = none) : advance s = .next s := by
  rw [advance, h]

/-- A command in flight, at the edge of its commit. -/
theorem advance_commit {s : State} {f : Flight} (h : s.flight = some f) (hc : f.commitsNow = true) :
    advance s = mapNext (tick f true) (runWord f.word s) := by
  rw [advance, h]; simp only; rw [if_pos hc]

/-- A command in flight, at any other edge. -/
theorem advance_wait {s : State} {f : Flight} (h : s.flight = some f) (hc : f.commitsNow = false) :
    advance s = .next (tick f f.done s) := by
  rw [advance, h]; simp [hc]

/-- Everything the command in flight can do at an edge. -/
theorem advance_next {s t : State} (h : advance s = .next t) :
    (s.flight = none ∧ t = s) ∨
    (∃ f, s.flight = some f ∧ f.commitsNow = false ∧ t = tick f f.done s) ∨
    ∃ f u, s.flight = some f ∧ f.commitsNow = true ∧ runWord f.word s = .next u ∧ t = tick f true u := by
  cases hf : s.flight with
  | none => rw [advance_none hf] at h; cases h; exact .inl ⟨rfl, rfl⟩
  | some f =>
    cases hc : f.commitsNow with
    | false => rw [advance_wait hf hc] at h; cases h; exact .inr (.inl ⟨f, rfl, hc, rfl⟩)
    | true =>
      rw [advance_commit hf hc] at h
      cases hr : runWord f.word s with
      | next u => rw [hr] at h; cases h; exact .inr (.inr ⟨f, u, rfl, hc, hr, rfl⟩)
      | fault r => rw [hr] at h; cases h
      | refused r => rw [hr] at h; cases h

@[simp] theorem sampleBus_flight (s : State) : (sampleBus s).flight = s.flight := by
  unfold sampleBus; split
  · split <;> rfl
  all_goals rfl

/-- With a command in flight past the first reset and no reset to come, the step is one edge of the command on the state
that the bus cycle leaves. -/
theorem step_busy {s : State} {f : Flight} (hf : s.flight = some f) (hp : s.phase ≠ .unreset)
    (hr : noReset s = true) : step s = advance (sampleBus s) := by
  unfold step clockEdge sampleBus
  split
  · rename_i h
    have e : { s with host := [] } = s := by rw [← h]
    simp only [h, idleEdge, e]
  · rename_i h; simp only [h]; rfl
  · rename_i t rest h
    have hb : busy s = true := by simp [busy, hf]
    simp only [h, transferEdge, if_neg hp, hb, if_true]
    cases t with
    | read addr => simp only [Transfer.read.injEq]; split <;> rfl
    | write addr v => simp
  · rename_i h; simp [noReset, h] at hr

/-- The decoded command of a word that decodes. -/
theorem runWord_ok {cw : DWord} {i : Instr} (h : decode cw = .ok i) (s : State) : runWord cw s = exec i s := by
  rw [runWord, h]

theorem runWord_error {cw : DWord} {e : DecodeError} (h : decode cw = .error e) (s : State) :
    runWord cw s = .next (takeFault (decodeCause e) cw s) := by
  rw [runWord, h]

/-- A next state of `mapNext` comes from a next state. -/
theorem mapNext_next {f : State → State} {o : Host.Outcome State Fault Refusal} {t : State}
    (h : mapNext f o = .next t) : ∃ u, o = .next u ∧ t = f u := by
  cases o with
  | next u => cases h; exact ⟨u, rfl, rfl⟩
  | fault r => cases h
  | refused r => cases h

/-! ## What a command does not see -/

/-- A state with other values in the fields that no command sees: the command in flight, the reset phase, the bus outputs and the stimulus. -/
abbrev withUnseen (fl : Option Flight) (ph : Phase) (rdy : Bool) (dat : Word) (ho : List HostEvent) (s : State) : State :=
  { s with flight := fl, phase := ph, hReady := rdy, hRdata := dat, host := ho }

/-- A frame whose body does not see those fields does not see them either. -/
theorem command_unseen {i : Instr} {s : State} {b b' : Except Stop State} (fl ph rdy dat ho)
    (h : b' = b.map (withUnseen fl ph rdy dat ho)) :
    command i (withUnseen fl ph rdy dat ho s) b' = mapNext (withUnseen fl ph rdy dat ho) (command i s b) := by
  subst h
  unfold command
  rw [chkAll_congr (s := s) (s' := withUnseen fl ph rdy dat ho s) rfl]
  cases chkAll s (namedRegions i) with
  | error e => cases e <;> rfl
  | ok _ => rcases b with (_ | _) | _ <;> rfl

theorem withOne_unseen {s : State} {x : Region} {k k' : Nat → Except Stop State} (fl ph rdy dat ho)
    (h : ∀ v, k' v = (k v).map (withUnseen fl ph rdy dat ho)) :
    withOne (withUnseen fl ph rdy dat ho s) x k' = (withOne s x k).map (withUnseen fl ph rdy dat ho) := by
  unfold withOne
  dsimp only
  cases memRead s.lm x with
  | error e => rfl
  | ok v => exact h v

/-- A command neither sees nor changes the command in flight, the reset phase and the bus. -/
theorem exec_unseen (i : Instr) (s : State) (fl ph rdy dat ho) :
    exec i (withUnseen fl ph rdy dat ho s) = mapNext (withUnseen fl ph rdy dat ho) (exec i s) := by
  cases i with
  | frombi w a c =>
    refine command_unseen fl ph rdy dat ho ?_
    dsimp only
    cases readWord s.lm (ea w a) with
    | error e => rfl
    | ok hdr =>
      have hk : chk (withUnseen fl ph rdy dat ho s) (frombiImage w a hdr) = chk s (frombiImage w a hdr) := rfl
      dsimp only at hk ⊢
      rw [hk]
      cases chk s (frombiImage w a hdr) with
      | error e => rfl
      | ok _ =>
        cases readWords s.lm (ea w a + 1) (biWords (biBytes hdr)) with
        | error e => rfl
        | ok ws =>
          dsimp only
          unfold frombiCommit
          dsimp only
          split_ifs <;> rfl
  | _ =>
    refine command_unseen fl ph rdy dat ho ?_
    first
      | rfl
      | exact withOne_unseen _ _ _ _ _ fun _ => rfl
      | exact withOne_unseen _ _ _ _ _ fun _ => withOne_unseen _ _ _ _ _ fun _ => rfl
      | exact withOne_unseen _ _ _ _ _ fun _ => withOne_unseen _ _ _ _ _ fun _ =>
          withOne_unseen _ _ _ _ _ fun _ => rfl

/-- Neither does the execution of a command word. -/
theorem runWord_unseen (cw : DWord) (s : State) (fl ph rdy dat ho) :
    runWord cw (withUnseen fl ph rdy dat ho s) = mapNext (withUnseen fl ph rdy dat ho) (runWord cw s) := by
  unfold runWord
  split
  · exact exec_unseen _ _ _ _ _ _ _
  · rfl

/-! ## Reset -/

/-- Free values in a region: the words outside it, and every field but LM and the draw counter, stay. -/
theorem scrambleWords_frame (a n : Nat) (s : State) :
    (∀ j, ¬ (a ≤ j ∧ j < a + n) → Memory.read (scrambleWords a n s).lm j = Memory.read s.lm j) ∧
      { scrambleWords a n s with lm := s.lm, draws := s.draws } = s := by
  induction n generalizing a s with
  | zero => exact ⟨fun _ _ => rfl, rfl⟩
  | succ n ih =>
    rw [scrambleWords]
    by_cases ha : a < s.lmWords
    · rw [if_pos ha]
      obtain ⟨h1, h2⟩ := ih (a + 1) { s with lm := Memory.write s.lm a (Config.freeWord s.draws), draws := s.draws + 1 }
      refine ⟨fun j hj => ?_, ?_⟩
      · rw [h1 j (by omega)]
        exact Memory.read_write_other _ _ _ _ (by omega)
      · exact congrArg (fun t : State => { t with lm := s.lm, draws := s.draws }) h2
    · rw [if_neg ha]
      exact ⟨fun j hj => (ih (a + 1) s).1 j (by omega), (ih (a + 1) s).2⟩

/-! ## The window's map (20_memory.md R71) -/

/-- Past the eight registers, a word of the window is an LM word or reserved. -/
theorem portOf_past_registers {n : Nat} {addr : BitVec 14} (h : 8 ≤ addr.toNat) :
    portOf n addr =
      if 0x1000 ≤ addr.toNat ∧ addr.toNat < 0x1000 + n then .lm (addr.toNat - 0x1000) else .reserved := by
  unfold portOf
  split <;> first | omega | rfl

/-- An LM word of the window. -/
theorem portOf_lm {n i : Nat} (hn : n ≤ 4096) (hi : i < n) :
    portOf n (BitVec.ofNat 14 ((0x4000 + 4 * i) / 4)) = .lm i := by
  have h1 : (BitVec.ofNat 14 ((0x4000 + 4 * i) / 4)).toNat = 0x1000 + i := by
    rw [BitVec.toNat_ofNat]; omega
  rw [portOf_past_registers (by omega), h1, if_pos (by omega), Nat.add_sub_cancel_left]

/-- A reserved word of the window. -/
theorem portOf_reserved {n off : Nat} (h : (0x20 ≤ off ∧ off < 0x4000) ∨ (0x4000 + 4 * n ≤ off ∧ off < 0x10000)) :
    portOf n (BitVec.ofNat 14 (off / 4)) = .reserved := by
  have h1 : (BitVec.ofNat 14 (off / 4)).toNat = off / 4 := by
    rw [BitVec.toNat_ofNat]; omega
  rw [portOf_past_registers (by omega), h1, if_neg (by omega)]

/-- The LM word a port stands for lies inside LM. -/
theorem portOf_eq_lm {n i : Nat} {addr : BitVec 14} (h : portOf n addr = .lm i) :
    addr.toNat = 0x1000 + i ∧ i < n := by
  by_cases h8 : 8 ≤ addr.toNat
  · rw [portOf_past_registers h8] at h
    split_ifs at h with hc
    injection h with h
    omega
  · unfold portOf at h
    generalize addr.toNat = k at h h8
    replace h8 : k < 8 := by omega
    interval_cases k <;> cases h

end Sys2Proof.Machine
end

