-- ==== Sys2Proof/Laws/Decode.lean ====
section
/-! SUPPORT. The fields of a command word and the opcode of a command. -/

namespace Sys2Proof

/-- The fields of the word that holds given fields are those fields. -/
@[simp] theorem fieldsOf_wordOf (f : Fields) : fieldsOf (wordOf f) = f := by
  cases f with
  | mk op w rsv a b c imm =>
    simp only [fieldsOf, wordOf, Fields.mk.injEq]
    refine ⟨?_, ?_, ?_, ?_, ?_, ?_, ?_⟩ <;>
      · ext i hi
        simp only [BitVec.getElem_extractLsb', BitVec.getLsbD_append]
        simp [hi, show ¬ (6 + i < 6) by omega]
        try (split_ifs <;> first | (exfalso; omega) | (congr 1; try omega))
        try (intro h; omega)

/-- The word that holds the fields of a word is that word. -/
@[simp] theorem wordOf_fieldsOf (cw : DWord) : wordOf (fieldsOf cw) = cw := by
  simp only [fieldsOf, wordOf]
  refine BitVec.eq_of_getLsbD_eq fun i hi => ?_
  simp only [BitVec.getLsbD_append, BitVec.getLsbD_extractLsb']
  split_ifs <;>
    (rw [decide_eq_true (by omega), Bool.true_and]; congr 1; omega)

end Sys2Proof
end

