-- ==== Sys2Proof/Laws/PerInstr.lean ====
section
/-! SUPPORT. A family of statements made per instruction: what the encoding of a command leaves in its fields
(30_encoding.md R97, R98). -/

namespace Sys2Proof.Laws.FieldsEncoded

/-- The word of a command has the command's OP, its view in W, RSV = 0 and 0 in every field the command does not use, and
its OP names the command again (R91, R97, R98). -/
def Statement (i : Instr) : Prop :=
  (fieldsOf (encode i)).op = opcode i ∧ (fieldsOf (encode i)).rsv = 0 ∧
    unusedZero (usedFields i) (fieldsOf (encode i)) = true ∧ (assignedOp (fieldsOf (encode i))).isSome = true

theorem clr (w : View) (c : Nat) : Statement (.clr w c) := by
  rw [Statement, encode, fieldsOf_wordOf]; exact ⟨rfl, rfl, rfl, rfl⟩

theorem clrx (w : View) (c : Nat) : Statement (.clrx w c) := by
  rw [Statement, encode, fieldsOf_wordOf]; exact ⟨rfl, rfl, rfl, rfl⟩

theorem add (w : View) (a b c : Nat) : Statement (.add w a b c) := by
  rw [Statement, encode, fieldsOf_wordOf]; exact ⟨rfl, rfl, rfl, rfl⟩

theorem addto (w : View) (a c : Nat) : Statement (.addto w a c) := by
  rw [Statement, encode, fieldsOf_wordOf]; exact ⟨rfl, rfl, rfl, rfl⟩

theorem addtoc (w : View) (a c : Nat) : Statement (.addtoc w a c) := by
  rw [Statement, encode, fieldsOf_wordOf]; exact ⟨rfl, rfl, rfl, rfl⟩

theorem addboth (w : View) (a b c : Nat) : Statement (.addboth w a b c) := by
  rw [Statement, encode, fieldsOf_wordOf]; exact ⟨rfl, rfl, rfl, rfl⟩

theorem addeach (w : View) (a c : Nat) : Statement (.addeach w a c) := by
  rw [Statement, encode, fieldsOf_wordOf]; exact ⟨rfl, rfl, rfl, rfl⟩

theorem sub (w : View) (a b c : Nat) : Statement (.sub w a b c) := by
  rw [Statement, encode, fieldsOf_wordOf]; exact ⟨rfl, rfl, rfl, rfl⟩

theorem subfrom (w : View) (a c : Nat) : Statement (.subfrom w a c) := by
  rw [Statement, encode, fieldsOf_wordOf]; exact ⟨rfl, rfl, rfl, rfl⟩

theorem subfromb (w : View) (a c : Nat) : Statement (.subfromb w a c) := by
  rw [Statement, encode, fieldsOf_wordOf]; exact ⟨rfl, rfl, rfl, rfl⟩

theorem subboth (w : View) (a b c : Nat) : Statement (.subboth w a b c) := by
  rw [Statement, encode, fieldsOf_wordOf]; exact ⟨rfl, rfl, rfl, rfl⟩

theorem diff (w : View) (a b c : Nat) : Statement (.diff w a b c) := by
  rw [Statement, encode, fieldsOf_wordOf]; exact ⟨rfl, rfl, rfl, rfl⟩

theorem mul (w : View) (a b c : Nat) : Statement (.mul w a b c) := by
  rw [Statement, encode, fieldsOf_wordOf]; exact ⟨rfl, rfl, rfl, rfl⟩

theorem muladd (w : View) (a b c : Nat) : Statement (.muladd w a b c) := by
  rw [Statement, encode, fieldsOf_wordOf]; exact ⟨rfl, rfl, rfl, rfl⟩

theorem sqr (w : View) (a c : Nat) : Statement (.sqr w a c) := by
  rw [Statement, encode, fieldsOf_wordOf]; exact ⟨rfl, rfl, rfl, rfl⟩

theorem eq (w : View) (a b : Nat) : Statement (.eq w a b) := by
  rw [Statement, encode, fieldsOf_wordOf]; exact ⟨rfl, rfl, rfl, rfl⟩

theorem gte (w : View) (a b : Nat) : Statement (.gte w a b) := by
  rw [Statement, encode, fieldsOf_wordOf]; exact ⟨rfl, rfl, rfl, rfl⟩

theorem iszero (w : View) (a : Nat) : Statement (.iszero w a) := by
  rw [Statement, encode, fieldsOf_wordOf]; exact ⟨rfl, rfl, rfl, rfl⟩

theorem isone (w : View) (a : Nat) : Statement (.isone w a) := by
  rw [Statement, encode, fieldsOf_wordOf]; exact ⟨rfl, rfl, rfl, rfl⟩

theorem getbit (w : View) (a : Nat) (n : Int) : Statement (.getbit w a n) := by
  rw [Statement, encode, fieldsOf_wordOf]; exact ⟨rfl, rfl, rfl, rfl⟩

theorem tobi (w : View) (a c : Nat) : Statement (.tobi w a c) := by
  rw [Statement, encode, fieldsOf_wordOf]; exact ⟨rfl, rfl, rfl, rfl⟩

theorem frombi (w : View) (a c : Nat) : Statement (.frombi w a c) := by
  rw [Statement, encode, fieldsOf_wordOf]; exact ⟨rfl, rfl, rfl, rfl⟩

end Sys2Proof.Laws.FieldsEncoded
end

