-- ==== Sys2Proof/Tests/Slice0.lean ====
section
/-! SUPPORT. Tests. Every expected value of a `test_` theorem about a command stands in 95_test_vectors.md under the
vector's id or follows by hand from the rule named. A `witness_` theorem shows a concrete state and operands that meet
the hypotheses of the statement of that name, clause by clause and at the ends of their ranges. -/

namespace Sys2Proof.Tests

open Sys2Proof Sys2Proof.Machine

/-! ## Helpers -/

/-- Words at rising addresses. -/
def cells : Nat → List Word → Memory
  | _, [] => []
  | a, v :: vs => (a, v) :: cells (a + 1) vs

/-- The block right after reset with some LM words written and a value in RES. -/
def block (m : Memory) (res : DWord := 0) : State := { State.reset with lm := m, res := res }

/-- LM holds the words from address `a` on. -/
def holds (t : State) : Nat → List Word → Bool
  | _, [] => true
  | a, v :: vs => decide (Memory.read t.lm a = some v) && holds t (a + 1) vs

/-- The outcome is a next state with a property. -/
def after (o : Host.Outcome State Fault Refusal) (p : State → Bool) : Bool :=
  match o with
  | .next t => p t
  | .fault _ => false
  | .refused _ => false

/-- The fault record of a state: ERR with a cause and a command word. -/
def recorded (t : State) (k : BitVec 4) (cw : DWord) : Bool := t.err && t.cause == k && t.errCmd == cw

/-- 2^128 - 1. -/
def ones : List Word := [0xFFFFFFFF, 0xFFFFFFFF, 0xFFFFFFFF, 0xFFFFFFFF]

/-- The value of vectors MU3 and MU9. -/
def digits : List Word := [0x76543210, 0xFEDCBA98, 0x89ABCDEF, 0x01234567]

/-! ## WellFormed refuses every operand out of range and admits the ends of the ranges (R94, R95) -/

theorem test_wellFormed_clr :
    ¬ WellFormed (.clr .w32 4096) ∧
      WellFormed (.clr .w64 4095) := by
  simp

theorem test_wellFormed_clrx :
    ¬ WellFormed (.clrx .w32 4096) ∧
      WellFormed (.clrx .w64 4095) := by
  simp

theorem test_wellFormed_add :
    ¬ WellFormed (.add .w32 4096 0 0) ∧
      ¬ WellFormed (.add .w32 0 4096 0) ∧
      ¬ WellFormed (.add .w32 0 0 4096) ∧
      WellFormed (.add .w64 4095 4095 4095) := by
  simp

theorem test_wellFormed_addto :
    ¬ WellFormed (.addto .w32 4096 0) ∧
      ¬ WellFormed (.addto .w32 0 4096) ∧
      WellFormed (.addto .w64 4095 4095) := by
  simp

theorem test_wellFormed_addtoc :
    ¬ WellFormed (.addtoc .w32 4096 0) ∧
      ¬ WellFormed (.addtoc .w32 0 4096) ∧
      WellFormed (.addtoc .w64 4095 4095) := by
  simp

theorem test_wellFormed_addboth :
    ¬ WellFormed (.addboth .w32 4096 0 0) ∧
      ¬ WellFormed (.addboth .w32 0 4096 0) ∧
      ¬ WellFormed (.addboth .w32 0 0 4096) ∧
      WellFormed (.addboth .w64 4095 4095 4095) := by
  simp

theorem test_wellFormed_addeach :
    ¬ WellFormed (.addeach .w32 4096 0) ∧
      ¬ WellFormed (.addeach .w32 0 4096) ∧
      WellFormed (.addeach .w64 4095 4095) := by
  simp

theorem test_wellFormed_sub :
    ¬ WellFormed (.sub .w32 4096 0 0) ∧
      ¬ WellFormed (.sub .w32 0 4096 0) ∧
      ¬ WellFormed (.sub .w32 0 0 4096) ∧
      WellFormed (.sub .w64 4095 4095 4095) := by
  simp

theorem test_wellFormed_subfrom :
    ¬ WellFormed (.subfrom .w32 4096 0) ∧
      ¬ WellFormed (.subfrom .w32 0 4096) ∧
      WellFormed (.subfrom .w64 4095 4095) := by
  simp

theorem test_wellFormed_subfromb :
    ¬ WellFormed (.subfromb .w32 4096 0) ∧
      ¬ WellFormed (.subfromb .w32 0 4096) ∧
      WellFormed (.subfromb .w64 4095 4095) := by
  simp

theorem test_wellFormed_subboth :
    ¬ WellFormed (.subboth .w32 4096 0 0) ∧
      ¬ WellFormed (.subboth .w32 0 4096 0) ∧
      ¬ WellFormed (.subboth .w32 0 0 4096) ∧
      WellFormed (.subboth .w64 4095 4095 4095) := by
  simp

theorem test_wellFormed_diff :
    ¬ WellFormed (.diff .w32 4096 0 0) ∧
      ¬ WellFormed (.diff .w32 0 4096 0) ∧
      ¬ WellFormed (.diff .w32 0 0 4096) ∧
      WellFormed (.diff .w64 4095 4095 4095) := by
  simp

theorem test_wellFormed_mul :
    ¬ WellFormed (.mul .w32 4096 0 0) ∧
      ¬ WellFormed (.mul .w32 0 4096 0) ∧
      ¬ WellFormed (.mul .w32 0 0 4096) ∧
      WellFormed (.mul .w64 4095 4095 4095) := by
  simp

theorem test_wellFormed_muladd :
    ¬ WellFormed (.muladd .w32 4096 0 0) ∧
      ¬ WellFormed (.muladd .w32 0 4096 0) ∧
      ¬ WellFormed (.muladd .w32 0 0 4096) ∧
      WellFormed (.muladd .w64 4095 4095 4095) := by
  simp

theorem test_wellFormed_sqr :
    ¬ WellFormed (.sqr .w32 4096 0) ∧
      ¬ WellFormed (.sqr .w32 0 4096) ∧
      WellFormed (.sqr .w64 4095 4095) := by
  simp

theorem test_wellFormed_eq :
    ¬ WellFormed (.eq .w32 4096 0) ∧
      ¬ WellFormed (.eq .w32 0 4096) ∧
      WellFormed (.eq .w64 4095 4095) := by
  simp

theorem test_wellFormed_gte :
    ¬ WellFormed (.gte .w32 4096 0) ∧
      ¬ WellFormed (.gte .w32 0 4096) ∧
      WellFormed (.gte .w64 4095 4095) := by
  simp

theorem test_wellFormed_iszero :
    ¬ WellFormed (.iszero .w32 4096) ∧
      WellFormed (.iszero .w64 4095) := by
  simp

theorem test_wellFormed_isone :
    ¬ WellFormed (.isone .w32 4096) ∧
      WellFormed (.isone .w64 4095) := by
  simp

theorem test_wellFormed_getbit :
    ¬ WellFormed (.getbit .w32 4096 0) ∧
      ¬ WellFormed (.getbit .w32 0 524288) ∧
      ¬ WellFormed (.getbit .w32 0 (-524289)) ∧
      WellFormed (.getbit .w64 4095 524287) ∧
      WellFormed (.getbit .w64 0 (-524288)) := by
  simp [IndexOk]

theorem test_wellFormed_tobi :
    ¬ WellFormed (.tobi .w32 4096 0) ∧
      ¬ WellFormed (.tobi .w32 0 4096) ∧
      WellFormed (.tobi .w64 4095 4095) := by
  simp

theorem test_wellFormed_frombi :
    ¬ WellFormed (.frombi .w32 4096 0) ∧
      ¬ WellFormed (.frombi .w32 0 4096) ∧
      WellFormed (.frombi .w64 4095 4095) := by
  simp

/-! ## Each command's word, from the vectors, decodes to it and is its encoding -/

/-- CL2. -/
theorem test_decode_clr : decode 0x0000000200000041 = .ok (.clr .w64 2) ∧ encode (.clr .w64 2) = 0x0000000200000041 := by decide

/-- CL3. -/
theorem test_decode_clrx : decode 0x0000001000000002 = .ok (.clrx .w32 16) ∧ encode (.clrx .w32 16) = 0x0000001000000002 := by decide

/-- R109, AD1. -/
theorem test_decode_add : decode 0x0000000800400008 = .ok (.add .w32 0 4 8) ∧ encode (.add .w32 0 4 8) = 0x0000000800400008 := by decide

/-- AD7. -/
theorem test_decode_addto : decode 0x0000000400000009 = .ok (.addto .w32 0 4) ∧ encode (.addto .w32 0 4) = 0x0000000400000009 := by decide

/-- AD13. -/
theorem test_decode_addtoc : decode 0x000000020000004A = .ok (.addtoc .w64 0 2) ∧ encode (.addtoc .w64 0 2) = 0x000000020000004A := by decide

/-- AD15. -/
theorem test_decode_addboth : decode 0x000000080040000B = .ok (.addboth .w32 0 4 8) ∧ encode (.addboth .w32 0 4 8) = 0x000000080040000B := by decide

/-- AD18. -/
theorem test_decode_addeach : decode 0x000000020000000C = .ok (.addeach .w32 0 2) ∧ encode (.addeach .w32 0 2) = 0x000000020000000C := by decide

/-- AD24. -/
theorem test_decode_sub : decode 0x0000000400200050 = .ok (.sub .w64 0 2 4) ∧ encode (.sub .w64 0 2 4) = 0x0000000400200050 := by decide

/-- AD25. -/
theorem test_decode_subfrom : decode 0x0000000400000011 = .ok (.subfrom .w32 0 4) ∧ encode (.subfrom .w32 0 4) = 0x0000000400000011 := by decide

/-- AD31. -/
theorem test_decode_subfromb : decode 0x0000000200000052 = .ok (.subfromb .w64 0 2) ∧ encode (.subfromb .w64 0 2) = 0x0000000200000052 := by decide

/-- AD33. -/
theorem test_decode_subboth : decode 0x0000000800400013 = .ok (.subboth .w32 0 4 8) ∧ encode (.subboth .w32 0 4 8) = 0x0000000800400013 := by decide

/-- AD36. -/
theorem test_decode_diff : decode 0x0000000800000414 = .ok (.diff .w32 4 0 8) ∧ encode (.diff .w32 4 0 8) = 0x0000000800000414 := by decide

/-- MU15. -/
theorem test_decode_mul : decode 0x000003F900400018 = .ok (.mul .w32 0 4 1017) ∧ encode (.mul .w32 0 4 1017) = 0x000003F900400018 := by decide

/-- MU7. -/
theorem test_decode_muladd : decode 0x0000000800400019 = .ok (.muladd .w32 0 4 8) ∧ encode (.muladd .w32 0 4 8) = 0x0000000800400019 := by decide

/-- MU14. -/
theorem test_decode_sqr : decode 0x000000040000005A = .ok (.sqr .w64 0 4) ∧ encode (.sqr .w64 0 4) = 0x000000040000005A := by decide

/-- EN14. -/
theorem test_decode_eq : decode 0x000000000007FF60 = .ok (.eq .w64 2047 0) ∧ encode (.eq .w64 2047 0) = 0x000000000007FF60 := by decide

/-- CP8. -/
theorem test_decode_gte : decode 0x0000000000000261 = .ok (.gte .w64 2 0) ∧ encode (.gte .w64 2 0) = 0x0000000000000261 := by decide

/-- CP9. -/
theorem test_decode_iszero : decode 0x0000000000000022 = .ok (.iszero .w32 0) ∧ encode (.iszero .w32 0) = 0x0000000000000022 := by decide

/-- CP11. -/
theorem test_decode_isone : decode 0x0000000000000023 = .ok (.isone .w32 0) ∧ encode (.isone .w32 0) = 0x0000000000000023 := by decide

/-- CP20. -/
theorem test_decode_getbit : decode 0x7FFFF00000000024 = .ok (.getbit .w32 0 524287) ∧ encode (.getbit .w32 0 524287) = 0x7FFFF00000000024 := by decide

/-- CV5. -/
theorem test_decode_tobi : decode 0x0000000400000068 = .ok (.tobi .w64 0 4) ∧ encode (.tobi .w64 0 4) = 0x0000000400000068 := by decide

/-- CV15. -/
theorem test_decode_frombi : decode 0x000000080003FC29 = .ok (.frombi .w32 1020 8) ∧ encode (.frombi .w32 1020 8) = 0x000000080003FC29 := by decide

/-- EN2, EN3, EN9 and R102: unassigned OP values at both ends of their ranges, RSV notwithstanding. -/
theorem test_decode_illegal :
    decode 0x00 = .error .illegalOpcode ∧ decode 0x07 = .error .illegalOpcode ∧ decode 0x0D = .error .illegalOpcode ∧
      decode 0x17 = .error .illegalOpcode ∧ decode 0x1B = .error .illegalOpcode ∧ decode 0x25 = .error .illegalOpcode ∧
      decode 0x2A = .error .illegalOpcode ∧ decode 0x30 = .error .illegalOpcode ∧ decode 0x3F = .error .illegalOpcode ∧
      decode 0x83 = .error .illegalOpcode := by decide

/-- CL8, EN5 to EN8: RSV = 1, and a nonzero unused A, IMM, B, C. -/
theorem test_decode_reserved :
    decode 0x0000000800400088 = .error .reservedField ∧ decode 0x0000000800000101 = .error .reservedField ∧
      decode 0x0000100800400008 = .error .reservedField ∧ decode 0x0000000400100009 = .error .reservedField ∧
      decode 0x0000000100000022 = .error .reservedField := by decide

/-- R106: the assembler's text of a command. -/
theorem test_asm : asm (.add .w32 0 4 8) = "ADD 8, 0, 4" ∧ asm (.getbit .w64 3 (-1)) = "GETBIT.D 3, #-1" := by decide

/-! ## Commands -/

/-- CL2. -/
theorem test_clr_zeroes : after (exec (.clr .w64 2) (block (cells 4 [9, 9, 9, 9]) 7))
    (fun t => holds t 4 [0, 0, 0, 0] && t.res == 7) = true := by decide

/-- CL6. -/
theorem test_clr_addr_range : after (exec (.clr .w32 1021) (block (cells 1021 [1, 2, 3])))
    (fun t => recorded t 3 0x000003FD00000001 && holds t 1021 [1, 2, 3]) = true := by decide

/-- CL4. -/
theorem test_clrx_zeroes : after (exec (.clrx .w64 4) (block (cells 8 [3, 3, 3, 3, 3, 3, 3, 3])))
    (fun t => holds t 8 [0, 0, 0, 0, 0, 0, 0, 0]) = true := by decide

/-- CL7. -/
theorem test_clrx_addr_range : after (exec (.clrx .w32 1017) (block (cells 1017 [1, 1])))
    (fun t => recorded t 3 0x000003F900000002 && holds t 1017 [1, 1]) = true := by decide

/-- AD1. -/
theorem test_add_carry_out : after (exec (.add .w32 0 4 8) (block (cells 0 (ones ++ [1, 0, 0, 0]))))
    (fun t => holds t 8 [0, 0, 0, 0] && t.res == 1) = true := by decide

/-- AD5. -/
theorem test_add_in_place : after (exec (.add .w32 0 0 0) (block (cells 0 [0x80000000, 1, 0, 0x80000000])))
    (fun t => holds t 0 [0, 3, 0, 0] && t.res == 1) = true := by decide

/-- AD7. -/
theorem test_addto_limb_carry : after (exec (.addto .w32 0 4) (block (cells 0 [1, 0, 0, 0, 0xFFFFFFFF, 0, 0, 0])))
    (fun t => holds t 4 [0, 1, 0, 0] && t.res == 0) = true := by decide

/-- AD9. -/
theorem test_addto_ignores_res : after (exec (.addto .w32 0 4) (block (cells 0 (ones ++ ones)) 5))
    (fun t => holds t 4 [0xFFFFFFFE, 0xFFFFFFFF, 0xFFFFFFFF, 0xFFFFFFFF] && t.res == 1) = true := by decide

/-- AD12. -/
theorem test_addtoc_carry_32 : after (exec (.addtoc .w32 0 4) (block (cells 0 [1, 0, 0, 0, 1, 0, 0, 0]) 0x100000001))
    (fun t => holds t 4 [3, 0, 0, 0] && t.res == 0) = true := by decide

/-- AD13. -/
theorem test_addtoc_carry_64 : after (exec (.addtoc .w64 0 2) (block (cells 0 [1, 0, 0, 0, 1, 0, 0, 0]) 0x100000001))
    (fun t => holds t 4 [3, 1, 0, 0] && t.res == 0) = true := by decide

/-- AD15. -/
theorem test_addboth_sum : after (exec (.addboth .w32 0 4 8) (block (cells 0 [1, 0, 0, 0, 2, 0, 0, 0, 3, 0, 0, 0])))
    (fun t => holds t 8 [6, 0, 0, 0] && t.res == 0) = true := by decide

/-- AD16. -/
theorem test_addboth_carry_two : after (exec (.addboth .w32 0 4 8) (block (cells 0 (ones ++ ones ++ ones))))
    (fun t => holds t 8 [0xFFFFFFFD, 0xFFFFFFFF, 0xFFFFFFFF, 0xFFFFFFFF] && t.res == 2) = true := by decide

/-- AD18. -/
theorem test_addeach_overlap : after (exec (.addeach .w32 0 2) (block (cells 0 [1, 2, 3, 4, 5, 6])))
    (fun t => holds t 0 [4, 6, 4, 6, 8, 10] && t.res == 0) = true := by decide

/-- AD19. -/
theorem test_addeach_carry : after (exec (.addeach .w32 0 4) (block (cells 0 (ones ++ [1, 0, 0, 0]))))
    (fun t => holds t 0 [0, 0, 0, 0, 0, 0, 0, 0] && t.res == 1) = true := by decide

/-- AD20. -/
theorem test_sub_borrow : after (exec (.sub .w32 0 4 8) (block (cells 0 [0, 0, 0, 0, 1, 0, 0, 0])))
    (fun t => holds t 8 ones && t.res == 0xFFFFFFFFFFFFFFFF) = true := by decide

/-- AD24. -/
theorem test_sub_64 : after (exec (.sub .w64 0 2 4) (block (cells 0 [0, 0, 1, 0, 1, 0, 0, 0])))
    (fun t => holds t 8 [0xFFFFFFFF, 0xFFFFFFFF, 0, 0] && t.res == 0) = true := by decide

/-- AD25. -/
theorem test_subfrom_limb_borrow : after (exec (.subfrom .w32 0 4) (block (cells 0 [1, 0, 0, 0, 0, 1, 0, 0])))
    (fun t => holds t 4 [0xFFFFFFFF, 0, 0, 0] && t.res == 0) = true := by decide

/-- AD26. -/
theorem test_subfrom_ignores_res : after (exec (.subfrom .w32 0 4) (block (cells 0 [1, 0, 0, 0, 0, 0, 0, 0]) 9))
    (fun t => holds t 4 ones && t.res == 0xFFFFFFFFFFFFFFFF) = true := by decide

/-- AD30. -/
theorem test_subfromb_borrow_32 : after (exec (.subfromb .w32 0 4) (block (cells 0 [1, 0, 0, 0, 5, 0, 0, 0]) 0xFFFFFFFF))
    (fun t => holds t 4 [3, 0, 0, 0] && t.res == 0) = true := by decide

/-- AD31. -/
theorem test_subfromb_borrow_64 : after (exec (.subfromb .w64 0 2) (block (cells 0 [1, 0, 0, 0, 5, 0, 0, 0]) 0xFFFFFFFF))
    (fun t => holds t 4 [3, 1, 0, 0] && t.res == 0) = true := by decide

/-- AD33. -/
theorem test_subboth_difference : after (exec (.subboth .w32 0 4 8) (block (cells 0 [3, 0, 0, 0, 4, 0, 0, 0, 10, 0, 0, 0])))
    (fun t => holds t 8 [3, 0, 0, 0] && t.res == 0) = true := by decide

/-- AD34. -/
theorem test_subboth_borrow_two : after (exec (.subboth .w32 0 4 8) (block (cells 0 (ones ++ ones ++ [0, 0, 0, 0]))))
    (fun t => holds t 8 [2, 0, 0, 0] && t.res == 0xFFFFFFFFFFFFFFFE) = true := by decide

/-- AD35. -/
theorem test_diff_below : after (exec (.diff .w32 0 4 8) (block (cells 0 [5, 0, 0, 0, 7, 0, 0, 0])))
    (fun t => holds t 8 [2, 0, 0, 0] && t.res == 0) = true := by decide

/-- AD37. -/
theorem test_diff_equal : after (exec (.diff .w32 0 4 8) (block (cells 0 (digits ++ digits))))
    (fun t => holds t 8 [0, 0, 0, 0] && t.res == 1) = true := by decide

/-- MU3. -/
theorem test_mul_product : after (exec (.mul .w32 0 4 8) (block (cells 0 (digits ++ [4, 3, 1, 2])) 3))
    (fun t => holds t 8 [0xD950C840, 0x5E6F8091, 0x99999999, 0x8D159E26, 0x8ACF1357, 0x147AE147, 0x02468ACF, 0] && t.res == 3) = true := by decide

/-- MU5. -/
theorem test_mul_overlap : after (exec (.mul .w32 0 4 0) (block (cells 0 [3, 0, 0, 0, 5, 0, 0, 0])))
    (fun t => holds t 0 [15, 0, 0, 0, 0, 0, 0, 0]) = true := by decide

/-- MU7b. -/
theorem test_muladd_carry : after (exec (.muladd .w32 0 4 8) (block (cells 0 (ones ++ ones ++ ones ++ ones))))
    (fun t => holds t 8 [0, 0, 0, 0, 0xFFFFFFFE, 0xFFFFFFFF, 0xFFFFFFFF, 0xFFFFFFFF] && t.res == 1) = true := by decide

/-- MU7c. -/
theorem test_muladd_writes_res : after (exec (.muladd .w32 0 4 8) (block (cells 0 ([0, 0, 0, 0] ++ ones ++ ones ++ ones)) 0xFFFFFFFFFFFFFFFF))
    (fun t => holds t 8 (ones ++ ones) && t.res == 0) = true := by decide

/-- MU9. -/
theorem test_sqr_square : after (exec (.sqr .w32 0 8) (block (cells 0 digits)))
    (fun t => holds t 8 [0xA44A4100, 0xDEEC6CD7, 0x939F74AC, 0x422871B7, 0xEBE253A6, 0xDEE9D609, 0xDC33F6AC, 0x00014B66]) = true := by decide

/-- MU13. -/
theorem test_sqr_in_place : after (exec (.sqr .w32 0 0) (block (cells 0 [0xFFFFFFFF, 0, 0, 0])))
    (fun t => holds t 0 [1, 0xFFFFFFFE, 0, 0, 0, 0, 0, 0]) = true := by decide

/-- CP2b. -/
theorem test_eq_low_limb : after (exec (.eq .w32 0 4) (block (cells 0 [0, 2, 3, 4, 1, 2, 3, 4])))
    (fun t => t.res == 0) = true := by decide

/-- CP2. -/
theorem test_eq_same : after (exec (.eq .w32 0 4) (block (cells 0 (digits ++ digits))))
    (fun t => t.res == 1) = true := by decide

/-- CP7. -/
theorem test_gte_unsigned : after (exec (.gte .w32 0 4) (block (cells 0 [0, 0, 0, 0x80000000, 0xFFFFFFFF, 0xFFFFFFFF, 0xFFFFFFFF, 0x7FFFFFFF])))
    (fun t => t.res == 1) = true := by decide

/-- CP8. -/
theorem test_gte_64 : after (exec (.gte .w64 2 0) (block (cells 0 [1, 0, 0, 0, 0, 0, 0, 0])))
    (fun t => t.res == 0) = true := by decide

/-- CP24. -/
theorem test_iszero_zero_extends : after (exec (.iszero .w32 0) (block (cells 0 [0, 0, 0, 0]) 0xFFFFFFFFFFFFFFFF))
    (fun t => t.res == 1) = true := by decide

/-- CP10. -/
theorem test_iszero_top_limb : after (exec (.iszero .w32 0) (block (cells 0 [0, 0, 0, 0x80000000])))
    (fun t => t.res == 0) = true := by decide

/-- CP11. -/
theorem test_isone_one : after (exec (.isone .w32 0) (block (cells 0 [1, 0, 0, 0])))
    (fun t => t.res == 1) = true := by decide

/-- CP12. -/
theorem test_isone_top_limb : after (exec (.isone .w32 0) (block (cells 0 [1, 0, 0, 1])))
    (fun t => t.res == 0) = true := by decide

/-- CP14. -/
theorem test_getbit_33 : after (exec (.getbit .w32 0 33) (block (cells 0 [0, 2, 0, 0])))
    (fun t => t.res == 1) = true := by decide

/-- CP19. -/
theorem test_getbit_negative : after (exec (.getbit .w32 0 (-1)) (block (cells 0 ones)))
    (fun t => t.res == 0) = true := by decide

/-- CV4. -/
theorem test_tobi_in_place : after (exec (.tobi .w32 0 0) (block (cells 0 digits)))
    (fun t => holds t 0 [0x10, 0x01234567, 0x89ABCDEF, 0xFEDCBA98, 0x76543210]) = true := by decide

/-- CV5. -/
theorem test_tobi_64 : after (exec (.tobi .w64 0 4) (block (cells 0 digits) 4))
    (fun t => holds t 8 [0x10, 0x01234567, 0x89ABCDEF, 0xFEDCBA98, 0x76543210] && t.res == 4) = true := by decide

/-- CV14. -/
theorem test_frombi_padding : after (exec (.frombi .w32 0 8) (block (cells 0 [9, 0x01020304, 0x05060708, 0x09000000])))
    (fun t => holds t 8 [0x06070809, 0x02030405, 1, 0]) = true := by decide

/-- CV10. -/
theorem test_frombi_range_violation : after (exec (.frombi .w32 0 8) (block (cells 0 [0x80000001, 0x05000000] ++ cells 8 [7, 7, 7, 7])))
    (fun t => recorded t 4 0x0000000800000029 && holds t 8 [7, 7, 7, 7]) = true := by decide

/-! ## The step and the host window -/

/-- AD1 through the step, with the word placed. -/
theorem test_step_runs_word : after (step ((block (cells 0 (ones ++ [1, 0, 0, 0]))).withFetchWord 64 0x0000000800400008))
    (fun t => holds t 8 [0, 0, 0, 0] && t.res == 1 && !busy t) = true := by decide

/-- The word that a table row of 64 bits stands for is read by the decoder. -/
theorem test_decodeTableWord : decodeTableWord 64 0xFFFFF00000000364 = some (.getbit .w64 3 (-1)) ∧
    decodeTableWord 64 0 = none := by decide

/-- DS1: OP 0x03 records ILLEGAL_OPCODE, STATUS = 0x12. -/
theorem test_step_illegal : after (step ((block []).withFetchWord 64 0x3))
    (fun t => statusWord t == 0x12 && t.errCmd == 0x3) = true := by decide

/-- The block after DS1, with the host's next transfer. -/
def faulted (h : HostEvent) : State := { block [] with err := true, cause := 1, errCmd := 3, cmdLo := 0x00400008, host := [h] }

/-- DS2: a command issued while ERR = 1 is discarded, STATUS = 0x16. -/
theorem test_issue_discarded : after (step (faulted (hw 0x04 8)))
    (fun t => statusWord t == 0x16 && t.errCmd == 3 && t.cmdHi == 8) = true := by decide

/-- DS3: the clear, STATUS = 0 and ERRCMD kept. -/
theorem test_status_clear : after (step (faulted (hw 0x08 2)))
    (fun t => statusWord t == 0 && t.errCmd == 3) = true := by decide

/-- HB9: a STATUS write with bit 1 = 0 changes nothing. -/
theorem test_status_write_other_bits : after (step (faulted (hw 0x08 0xFFFFFFFD)))
    (fun t => statusWord t == 0x12) = true := by decide

/-- R41, R42: a CMD_HI write issues the word of both halves. -/
theorem test_cmd_hi_issues : after (step { block [] with cmdLo := 0x00400008, host := [hw 0x04 8] })
    (fun t => busy t && (t.flight.map Flight.word == some 0x0000000800400008) && t.hReady) = true := by decide

/-- The data of one host read. -/
def reads (s : State) (offset : Nat) (v : Word) : Bool :=
  after (step { s with host := [hr offset] }) fun t => t.hReady && t.hRdata == v

/-- HB1 to HB3, HB5, HB6: STATUS, ID, RES, and reserved offsets after reset. -/
theorem test_reads_after_reset : reads (block []) 0x08 0 = true ∧ reads (block []) 0x0C 0x01280400 = true ∧
    reads (block []) 0x10 0 = true ∧ reads (block []) 0x14 0 = true ∧ reads (block []) 0x20 0 = true ∧
    reads (block []) 0x5000 0 = true := by decide

/-- The other registers and the last LM word. -/
theorem test_reads : reads (faulted .idle) 0x00 0x00400008 = true ∧ reads (faulted .idle) 0x18 3 = true ∧
    reads (faulted .idle) 0x1C 0 = true ∧ reads (block [(1023, 7)]) 0x4FFC 7 = true := by decide

/-- HB4, HB7: ID ignores a write; RES_HI takes one. -/
theorem test_writes : after (step { block [] with host := [hw 0x0C 0x12345678] }) (fun t => idWord t == 0x01280400) = true ∧
    after (step { block [] 0xFFFFFFFE with host := [hw 0x14 0xFFFFFFFF] }) (fun t => t.res == 0xFFFFFFFFFFFFFFFE) = true ∧
    after (step { block [] with host := [lmSet 1023 9] }) (fun t => holds t 1023 [9]) = true := by decide

/-- A host read of a word nothing has written stops the model (93_implementation_defined.md U1). -/
theorem test_read_unwritten : step { block [] with host := [hr 0x4000] } = .fault (.unwrittenWord 0) := by rfl

/-- A command in flight with two cycles to come that commits at its completion. -/
def inFlight (cw : DWord) : Flight := { word := cw, remaining := 2, lead := 0, done := false }

/-- R270: while BUSY = 1 a STATUS read completes with BUSY = 1, and another read is held. -/
theorem test_interlock :
    after (step { block [] with flight := some (inFlight 1), host := [hr 0x08] })
      (fun t => t.hReady && t.hRdata == 1 && t.host == []) = true ∧
    after (step { block [] with flight := some (inFlight 1), host := [hr 0x10] })
      (fun t => !t.hReady && t.host == [hr 0x10]) = true := by decide

/-- R262, U2: a reset in the middle of MUL 8, 0, 4 keeps words 0 to 7 and clears the registers. -/
theorem test_reset_abandons : after (step { block (cells 0 (ones ++ ones)) 5 with
      flight := some (inFlight 0x0000000800400018), host := [.reset none] })
    (fun t => holds t 0 (ones ++ ones) && !busy t && t.res == 0 && t.draws == 8) = true := by decide

/-- R262: while `rst` stays 1 a read returns 0. -/
theorem test_read_in_reset : after (step { block [(0, 7)] with host := [.reset (some (.read 0x1000))] })
    (fun t => t.hReady && t.hRdata == 0) = true := by decide

/-- R74, R78: a platform address of the window reaches the aligned word. -/
theorem test_windowAddr : windowAddr (Config.fw128Base + 0x4007) = some 0x1001 := by
  simp [windowAddr]

/-! ## Witnesses -/

/-- Words 0 to 15 and 1016 to 1023 written: x = 1 at 0, y = 2^128 - 1 at 4, 0 at 8 and 12, and the last legal regions of
an LM of 1024 words. -/
def edge (res : DWord := 0) : State :=
  block (cells 0 ([1, 0, 0, 0] ++ ones ++ [0, 0, 0, 0, 0, 0, 0, 0]) ++ cells 1016 [2, 0, 0, 0, 0, 0, 0, 0x80000000]) res

theorem witness_EncodeThenDecode : WellFormed (.add .w64 4095 0 4095) ∧ WellFormed (.getbit .w32 4095 (-524288)) := by
  simp [FieldOk, IndexOk]

theorem witness_DecodeThenEncode : decode 0x8000000000000024 = .ok (.getbit .w32 0 (-524288)) := by decide

theorem witness_DecoderAgreesWithOpcodeTable :
    (⟨0x08, "ADD", 0x0000000000000008, 0xFFFFF000000000BF⟩ : OpRow) ∈ opcodeTable ∧
      OpRow.selects ⟨0x08, "ADD", 0x0000000000000008, 0xFFFFF000000000BF⟩ 0x0000000800400008 := by decide

/-- A command in flight in its last cycle. -/
def lastCycle (cw : DWord) : Flight := { word := cw, remaining := 1, lead := 0, done := false }

/-- A command in flight that commits three cycles before its completion. -/
def earlyCommit (cw : DWord) : Flight := { word := cw, remaining := 4, lead := 3, done := false }

theorem witness_StepRunsDecodedCommand :
    { block [] with flight := some (lastCycle 1) }.flight = some (lastCycle 1) ∧ (lastCycle 1).commitsNow = true ∧
      (earlyCommit 1).commitsNow = true ∧ { block [] with flight := some (lastCycle 1) }.phase ≠ .unreset ∧
      noReset { block [] with flight := some (lastCycle 1) } = true ∧ decode (lastCycle 1).word = .ok (.clr .w32 0) := by
  decide

theorem witness_StepRecordsDecodeFault :
    { block [] with flight := some (lastCycle 3) }.flight = some (lastCycle 3) ∧ (lastCycle 3).commitsNow = true ∧
      { block [] with flight := some (lastCycle 3) }.phase ≠ .unreset ∧
      noReset { block [] with flight := some (lastCycle 3) } = true ∧
      decode (lastCycle 3).word = .error .illegalOpcode ∧ decode (lastCycle 0x81).word = .error .reservedField := by
  decide

/-- The block with a command in flight that does not commit at the coming edge, and the host's stimulus. -/
def waiting (h : List HostEvent) : State := { block [(0, 7)] 5 with flight := some (inFlight 1), host := h }

/-- R270: at an edge at which the command does not commit, a held write of RES_LO, of an LM word and of STATUS bit 1 has
no effect and stays the host's next transfer. -/
theorem test_held_writes :
    after (step (waiting [hw 0x10 9])) (fun t => !t.hReady && t.res == 5 && t.host == [hw 0x10 9]) = true ∧
      after (step (waiting [lmSet 0 9])) (fun t => !t.hReady && holds t 0 [7] && t.host == [lmSet 0 9]) = true ∧
      after (step { waiting [hw 0x08 2] with err := true, cause := 1 }) (fun t => !t.hReady && t.err && t.cause == 1) = true := by
  decide

theorem witness_InterlockHoldsTransfers :
    busy (waiting [hr 0x08]) = true ∧ (waiting [hr 0x08]).phase ≠ .unreset ∧ hr 0x08 = .transfer (.read statusAddr) ∧
      (∃ u, step (waiting [hr 0x08]) = .next u) ∧ (∃ u, step (waiting [hw 0x10 9]) = .next u) ∧
      noReset (waiting [hw 0x10 9]) = true ∧ (waiting [hw 0x10 9]).flight = some (inFlight 1) ∧
      (inFlight 1).commitsNow = false :=
  ⟨rfl, by decide, rfl, ⟨_, rfl⟩, ⟨_, rfl⟩, rfl, rfl, rfl⟩

/-- The block with a command just issued, and the host's stimulus. -/
def issued (h : List HostEvent) : State := { block [] with flight := some (newFlight 1 0), host := h }

theorem witness_CommandCompletesAfterLatency :
    (issued []).flight = some (newFlight 1 0) ∧ (issued []).phase ≠ .unreset ∧ (issued []).host = [] ∧
      (∃ u, runWord 1 (sampleBus (issued [])) = .next u) ∧
      (∀ e ∈ (issued [hr 0x08, .idle, hw 0x10 9]).host, ∀ t : Option Transfer, e ≠ .reset t) ∧
      ∃ u, runWord 1 (sampleBus (issued [hr 0x08, .idle, hw 0x10 9])) = .next u :=
  ⟨rfl, by decide, rfl, ⟨_, rfl⟩, by simp [issued, hr, hw], _, rfl⟩

theorem witness_ClrAndClrxZeroRegions :
    (fieldsOf 0x01).op = 0x01 ∧ (fieldsOf 0x102).op = 0x02 ∧ (fieldsOf 0x102).a ≠ 0 ∧
      ea .w32 1020 + 4 ≤ edge.lmWords ∧ ¬ ea .w32 1021 + 4 ≤ edge.lmWords ∧
      ea .w64 508 + 8 ≤ edge.lmWords ∧ ¬ ea .w64 509 + 8 ≤ edge.lmWords := by decide

/-- For the decoding clauses: the fields of a word with only OP set are as a command wants them, and with RSV set they are not. -/
theorem witness_decodeClauses : ∀ op : BitVec 6, (fieldsOf (BitVec.zeroExtend 64 op)).op = op ∧
    (fieldsOf (BitVec.zeroExtend 64 op)).rsv = 0 ∧ (fieldsOf (BitVec.zeroExtend 64 op)).imm = 0 ∧
    (fieldsOf (0x80 ||| BitVec.zeroExtend 64 op)).op = op ∧ (fieldsOf (0x80 ||| BitVec.zeroExtend 64 op)).rsv = 1 := by
  decide

theorem witness_AddStoresSumAndCarry :
    (fieldsOf 0x08).op = 0x08 ∧ (fieldsOf 0x100000000008).op = 0x08 ∧
      ea .w32 0 + 4 ≤ edge.lmWords ∧ ea .w32 4 + 4 ≤ edge.lmWords ∧ ea .w32 1020 + 4 ≤ edge.lmWords ∧
      memRead edge.lm ⟨ea .w32 0, 4⟩ = .ok 1 ∧ memRead edge.lm ⟨ea .w32 4, 4⟩ = .ok (2 ^ 128 - 1) ∧
      ¬ ea .w32 1021 + 4 ≤ edge.lmWords ∧ ¬ ea .w64 511 + 4 ≤ edge.lmWords := by decide

theorem witness_AddtoAccumulatesWithCarry :
    (fieldsOf 0x09).op = 0x09 ∧ (fieldsOf 0x100000000009).op = 0x09 ∧
      ea .w32 0 + 4 ≤ edge.lmWords ∧ ea .w32 1020 + 4 ≤ edge.lmWords ∧
      memRead edge.lm ⟨ea .w32 0, 4⟩ = .ok 1 ∧ memRead edge.lm ⟨ea .w32 1020, 4⟩ = .ok (2 ^ 127) ∧
      ¬ ea .w32 1021 + 4 ≤ edge.lmWords ∧ ¬ ea .w64 511 + 4 ≤ edge.lmWords := by decide

theorem witness_AddtocAddsCarryInFromRes :
    (fieldsOf 0x0A).op = 0x0A ∧ (fieldsOf 0x10000000000A).op = 0x0A ∧
      ea .w32 0 + 4 ≤ edge.lmWords ∧ ea .w32 1020 + 4 ≤ edge.lmWords ∧
      memRead edge.lm ⟨ea .w32 0, 4⟩ = .ok 1 ∧ memRead edge.lm ⟨ea .w32 1020, 4⟩ = .ok (2 ^ 127) ∧
      ¬ ea .w32 1021 + 4 ≤ edge.lmWords ∧ ¬ ea .w64 511 + 4 ≤ edge.lmWords := by decide

theorem witness_AddbothFusesThreeOperands :
    (fieldsOf 0x0B).op = 0x0B ∧ (fieldsOf 0x10000000000B).op = 0x0B ∧
      ea .w32 0 + 4 ≤ edge.lmWords ∧ ea .w32 4 + 4 ≤ edge.lmWords ∧ ea .w32 1020 + 4 ≤ edge.lmWords ∧
      memRead edge.lm ⟨ea .w32 0, 4⟩ = .ok 1 ∧ memRead edge.lm ⟨ea .w32 4, 4⟩ = .ok (2 ^ 128 - 1) ∧ memRead edge.lm ⟨ea .w32 1020, 4⟩ = .ok (2 ^ 127) ∧
      ¬ ea .w32 1021 + 4 ≤ edge.lmWords ∧ ¬ ea .w64 511 + 4 ≤ edge.lmWords := by decide

theorem witness_AddeachWritesBothSums :
    (fieldsOf 0x0C).op = 0x0C ∧ (fieldsOf 0x10000000000C).op = 0x0C ∧
      ea .w32 0 + 4 ≤ edge.lmWords ∧ ea .w32 1020 + 4 ≤ edge.lmWords ∧
      memRead edge.lm ⟨ea .w32 0, 4⟩ = .ok 1 ∧ memRead edge.lm ⟨ea .w32 1020, 4⟩ = .ok (2 ^ 127) ∧
      ¬ ea .w32 1021 + 4 ≤ edge.lmWords ∧ ¬ ea .w64 511 + 4 ≤ edge.lmWords := by decide

theorem witness_SubStoresDifferenceAndBorrow :
    (fieldsOf 0x10).op = 0x10 ∧ (fieldsOf 0x100000000010).op = 0x10 ∧
      ea .w32 0 + 4 ≤ edge.lmWords ∧ ea .w32 4 + 4 ≤ edge.lmWords ∧ ea .w32 1020 + 4 ≤ edge.lmWords ∧
      memRead edge.lm ⟨ea .w32 0, 4⟩ = .ok 1 ∧ memRead edge.lm ⟨ea .w32 4, 4⟩ = .ok (2 ^ 128 - 1) ∧
      ¬ ea .w32 1021 + 4 ≤ edge.lmWords ∧ ¬ ea .w64 511 + 4 ≤ edge.lmWords := by decide

theorem witness_SubfromStoresDifferenceAndBorrow :
    (fieldsOf 0x11).op = 0x11 ∧ (fieldsOf 0x100000000011).op = 0x11 ∧
      ea .w32 0 + 4 ≤ edge.lmWords ∧ ea .w32 1020 + 4 ≤ edge.lmWords ∧
      memRead edge.lm ⟨ea .w32 0, 4⟩ = .ok 1 ∧ memRead edge.lm ⟨ea .w32 1020, 4⟩ = .ok (2 ^ 127) ∧
      ¬ ea .w32 1021 + 4 ≤ edge.lmWords ∧ ¬ ea .w64 511 + 4 ≤ edge.lmWords := by decide

theorem witness_SubbothFusesThreeOperands :
    (fieldsOf 0x13).op = 0x13 ∧ (fieldsOf 0x100000000013).op = 0x13 ∧
      ea .w32 0 + 4 ≤ edge.lmWords ∧ ea .w32 4 + 4 ≤ edge.lmWords ∧ ea .w32 1020 + 4 ≤ edge.lmWords ∧
      memRead edge.lm ⟨ea .w32 0, 4⟩ = .ok 1 ∧ memRead edge.lm ⟨ea .w32 4, 4⟩ = .ok (2 ^ 128 - 1) ∧ memRead edge.lm ⟨ea .w32 1020, 4⟩ = .ok (2 ^ 127) ∧
      ¬ ea .w32 1021 + 4 ≤ edge.lmWords ∧ ¬ ea .w64 511 + 4 ≤ edge.lmWords := by decide

theorem witness_DiffStoresDistanceAndFlag :
    (fieldsOf 0x14).op = 0x14 ∧ (fieldsOf 0x100000000014).op = 0x14 ∧
      ea .w32 0 + 4 ≤ edge.lmWords ∧ ea .w32 4 + 4 ≤ edge.lmWords ∧ ea .w32 1020 + 4 ≤ edge.lmWords ∧
      memRead edge.lm ⟨ea .w32 0, 4⟩ = .ok 1 ∧ memRead edge.lm ⟨ea .w32 4, 4⟩ = .ok (2 ^ 128 - 1) ∧
      ¬ ea .w32 1021 + 4 ≤ edge.lmWords ∧ ¬ ea .w64 511 + 4 ≤ edge.lmWords := by decide

theorem witness_MulStoresExactProduct :
    (fieldsOf 0x18).op = 0x18 ∧ (fieldsOf 0x100000000018).op = 0x18 ∧
      ea .w32 0 + 4 ≤ edge.lmWords ∧ ea .w32 4 + 4 ≤ edge.lmWords ∧ ea .w32 1016 + 8 ≤ edge.lmWords ∧
      memRead edge.lm ⟨ea .w32 0, 4⟩ = .ok 1 ∧ memRead edge.lm ⟨ea .w32 4, 4⟩ = .ok (2 ^ 128 - 1) ∧
      ¬ ea .w32 1017 + 8 ≤ edge.lmWords ∧ ¬ ea .w64 509 + 8 ≤ edge.lmWords := by decide

theorem witness_MuladdAccumulatesWithCarry :
    (fieldsOf 0x19).op = 0x19 ∧ (fieldsOf 0x100000000019).op = 0x19 ∧
      ea .w32 0 + 4 ≤ edge.lmWords ∧ ea .w32 4 + 4 ≤ edge.lmWords ∧ ea .w32 1016 + 8 ≤ edge.lmWords ∧
      memRead edge.lm ⟨ea .w32 0, 4⟩ = .ok 1 ∧ memRead edge.lm ⟨ea .w32 4, 4⟩ = .ok (2 ^ 128 - 1) ∧ memRead edge.lm ⟨ea .w32 1016, 8⟩ = .ok (2 ^ 255 + 2) ∧
      ¬ ea .w32 1017 + 8 ≤ edge.lmWords ∧ ¬ ea .w64 509 + 8 ≤ edge.lmWords := by decide

theorem witness_SqrStoresExactSquare :
    (fieldsOf 0x1A).op = 0x1A ∧ (fieldsOf 0x10000000001A).op = 0x1A ∧
      ea .w32 0 + 4 ≤ edge.lmWords ∧ ea .w32 1016 + 8 ≤ edge.lmWords ∧
      memRead edge.lm ⟨ea .w32 0, 4⟩ = .ok 1 ∧
      ¬ ea .w32 1017 + 8 ≤ edge.lmWords ∧ ¬ ea .w64 509 + 8 ≤ edge.lmWords := by decide

theorem witness_SubfrombAddsBorrowInFromRes :
    (fieldsOf 0x12).op = 0x12 ∧ (fieldsOf 0x100012).op = 0x12 ∧
      ea .w32 0 + 4 ≤ edge.lmWords ∧ ea .w32 1020 + 4 ≤ edge.lmWords ∧
      memRead edge.lm ⟨ea .w32 0, 4⟩ = .ok 1 ∧ memRead edge.lm ⟨ea .w32 1020, 4⟩ = .ok (2 ^ 127) ∧
      borrowIn .w32 (edge 0x80000000).res = -2 ^ 31 ∧ borrowIn .w32 (edge 0xFFFFFFFF).res = -1 ∧ borrowIn .w64 (edge 0xFFFFFFFF).res = 2 ^ 32 - 1 ∧
      ¬ ea .w32 1021 + 4 ≤ edge.lmWords := by decide

theorem witness_EqAndGteCompareUnsigned :
    (fieldsOf 0x20).op = 0x20 ∧ (fieldsOf 0x21).op = 0x21 ∧ (fieldsOf 0x100000020).c ≠ 0 ∧
      ea .w32 0 + 4 ≤ edge.lmWords ∧ ea .w32 1020 + 4 ≤ edge.lmWords ∧
      memRead edge.lm ⟨ea .w32 0, 4⟩ = .ok 1 ∧ memRead edge.lm ⟨ea .w32 1020, 4⟩ = .ok (2 ^ 127) ∧
      ¬ ea .w32 1021 + 4 ≤ edge.lmWords := by decide

theorem witness_IszeroAndIsoneTestValue :
    (fieldsOf 0x22).op = 0x22 ∧ (fieldsOf 0x23).op = 0x23 ∧ (fieldsOf 0x100022).b ≠ 0 ∧
      ea .w32 1020 + 4 ≤ edge.lmWords ∧ ea .w32 8 + 4 ≤ edge.lmWords ∧
      memRead edge.lm ⟨ea .w32 0, 4⟩ = .ok 1 ∧ memRead edge.lm ⟨ea .w32 8, 4⟩ = .ok 0 ∧ memRead edge.lm ⟨ea .w32 1020, 4⟩ = .ok (2 ^ 127) ∧
      ¬ ea .w32 1021 + 4 ≤ edge.lmWords := by decide

theorem witness_GetbitExtractsIndexedBit :
    (fieldsOf 0x24).op = 0x24 ∧ (fieldsOf 0x100000024).c ≠ 0 ∧ (fieldsOf 0x8000000000000024).imm.getLsbD 19 = true ∧
      ea .w32 1020 + 4 ≤ edge.lmWords ∧
      memRead edge.lm ⟨ea .w32 1020, 4⟩ = .ok (2 ^ 127) ∧
      Memory.read edge.lm (ea .w32 1020 + (127 : Int).toNat / 32) = some 0x80000000 ∧ Memory.read edge.lm (ea .w32 0 + (0 : Int).toNat / 32) = some 1 ∧
      (0 : Int) ≤ 127 ∧ (127 : Int) ≤ 127 ∧ ¬ ((0 : Int) ≤ 128 ∧ (128 : Int) ≤ 127) ∧ ¬ ((0 : Int) ≤ -1 ∧ (-1 : Int) ≤ 127) ∧
      ¬ ea .w32 1021 + 4 ≤ edge.lmWords := by decide

theorem witness_TobiWritesImage :
    (fieldsOf 0x28).op = 0x28 ∧
      ea .w32 4 + 4 ≤ edge.lmWords ∧ ea .w32 1019 + 5 ≤ edge.lmWords ∧
      readWords edge.lm (ea .w32 4) 4 = .ok [0xFFFFFFFF, 0xFFFFFFFF, 0xFFFFFFFF, 0xFFFFFFFF] ∧
      ¬ ea .w32 1020 + 5 ≤ edge.lmWords := by decide

/-- An image of 12 bytes in the last four words (CV16), one of 16 that runs past the end (CV15). -/
def lastImage (hdr : Word) : State := block (cells 1020 [hdr, 1, 2, 3])

/-- An image at word 0. -/
def image (ws : List Word) : State := block (cells 0 ws)

theorem witness_FrombiStoresImageValue :
    (fieldsOf 0x29).op = 0x29 ∧ ea .w32 1020 + 1 ≤ (lastImage 12).lmWords ∧ ea .w32 8 + 4 ≤ (lastImage 12).lmWords ∧
      Memory.read (lastImage 12).lm (ea .w32 1020) = some 12 ∧
      ea .w32 1020 + (1 + ((12 : Word).toNat % 2 ^ 16 + 3) / 4) ≤ (lastImage 12).lmWords ∧
      readWords (lastImage 12).lm (ea .w32 1020 + 1) 3 = .ok [1, 2, 3] ∧ biMagnitude 12 [1, 2, 3] < 2 ^ 128 ∧
      ¬ ea .w32 1020 + (1 + ((16 : Word).toNat % 2 ^ 16 + 3) / 4) ≤ (lastImage 16).lmWords ∧
      ¬ ea .w32 1024 + 1 ≤ (lastImage 12).lmWords ∧
      readWords (image [0x80000001, 0x05000000]).lm 1 1 = .ok [0x05000000] ∧ (0x80000001 : Word).getLsbD 31 = true ∧
      biMagnitude 1 [0x05000000] = 5 ∧
      readWords (image [17, 0x01000000, 0, 0, 0, 0]).lm 1 5 = .ok [0x01000000, 0, 0, 0, 0] ∧
      biMagnitude 17 [0x01000000, 0, 0, 0, 0] = 2 ^ 128 ∧
      biMagnitude 17 [0x00FFFFFF, 0xFFFFFFFF, 0xFFFFFFFF, 0xFFFFFFFF, 0xFF000000] = 2 ^ 128 - 1 := by decide

theorem witness_ImageMagnitudeIsByteSum : ([1, 2, 3, 4, 5] : List Word).length = (17 + 3) / 4 ∧
    ([] : List Word).length = (0 + 3) / 4 := by decide

theorem witness_ConversionRoundTrips :
    (ea .w32 4 + 4 ≤ edge.lmWords ∧ ea .w32 1015 + 5 ≤ edge.lmWords ∧ ea .w32 1020 + 4 ≤ edge.lmWords ∧
      (ea .w32 1015 + 5 ≤ ea .w32 1020 ∨ ea .w32 1020 + 4 ≤ ea .w32 1015) ∧
      memRead edge.lm ⟨ea .w32 4, 4⟩ = .ok (2 ^ 128 - 1)) ∧
    ea .w32 1020 + (1 + (biBytes 12 + 3) / 4) ≤ (lastImage 12).lmWords ∧ ea .w32 1016 + 4 ≤ (lastImage 12).lmWords ∧
      ea .w32 0 + 5 ≤ (lastImage 12).lmWords ∧ Memory.read (lastImage 12).lm (ea .w32 1020) = some 12 ∧
      readWords (lastImage 12).lm (ea .w32 1020 + 1) ((biBytes 12 + 3) / 4) = .ok [1, 2, 3] ∧
      0 ≤ biValue 12 [1, 2, 3] ∧ biValue 12 [1, 2, 3] < 2 ^ 128 := by decide

theorem witness_SqrEqualsMulOfSame : ea .w32 0 + 4 ≤ edge.lmWords ∧ ea .w64 508 + 8 ≤ edge.lmWords := by decide

theorem witness_AddChainsTo256Bits :
    ea .w32 0 + 4 ≤ edge.lmWords ∧ ea .w32 4 + 4 ≤ edge.lmWords ∧ ea .w32 8 + 4 ≤ edge.lmWords ∧
      ea .w32 12 + 4 ≤ edge.lmWords ∧ ea .w32 1020 + 4 ≤ edge.lmWords ∧
      (ea .w32 8 + 4 ≤ ea .w32 12 ∨ ea .w32 12 + 4 ≤ ea .w32 8) ∧
      (ea .w32 8 + 4 ≤ ea .w32 1020 ∨ ea .w32 1020 + 4 ≤ ea .w32 8) ∧
      memRead edge.lm ⟨ea .w32 0, 4⟩ = .ok 1 ∧ memRead edge.lm ⟨ea .w32 4, 4⟩ = .ok (2 ^ 128 - 1) ∧
      memRead edge.lm ⟨ea .w32 12, 4⟩ = .ok 0 ∧ memRead edge.lm ⟨ea .w32 1020, 4⟩ = .ok (2 ^ 127) := by decide

/-- The hypotheses are those of the adder's chain. -/
theorem witness_SubChainsTo256Bits :
    ea .w64 0 + 4 ≤ edge.lmWords ∧ ea .w64 2 + 4 ≤ edge.lmWords ∧ ea .w64 4 + 4 ≤ edge.lmWords ∧
      ea .w64 6 + 4 ≤ edge.lmWords ∧ ea .w64 510 + 4 ≤ edge.lmWords ∧
      (ea .w64 4 + 4 ≤ ea .w64 6 ∨ ea .w64 6 + 4 ≤ ea .w64 4) ∧
      (ea .w64 4 + 4 ≤ ea .w64 510 ∨ ea .w64 510 + 4 ≤ ea .w64 4) ∧
      memRead edge.lm ⟨ea .w64 0, 4⟩ = .ok 1 ∧ memRead edge.lm ⟨ea .w64 2, 4⟩ = .ok (2 ^ 128 - 1) ∧
      memRead edge.lm ⟨ea .w64 6, 4⟩ = .ok 0 ∧ memRead edge.lm ⟨ea .w64 510, 4⟩ = .ok (2 ^ 127) := by decide

theorem witness_PseudoInstructionEffects :
    ea .w32 4 + 4 ≤ edge.lmWords ∧ ea .w32 1020 + 4 ≤ edge.lmWords ∧ memRead edge.lm ⟨ea .w32 4, 4⟩ = .ok (2 ^ 128 - 1) ∧
      memRead edge.lm ⟨ea .w32 1020, 4⟩ = .ok (2 ^ 127) := by decide

theorem witness_ViewChangesOnlyAddresses : readsRes (.add .w64 0 2 510) = false ∧ readsRes (.frombi .w64 510 4) = false := by
  decide

/-- For RippleFormsComputeValueForms, LimbMultipliersComputeProducts and LimbWalksCompareValues: the ends of the ranges of a
Nat128 and of a bit index. -/
theorem witness_limbForms : (0 : Nat) < 2 ^ 128 ∧ 2 ^ 128 - 1 < 2 ^ 128 ∧ 127 < 128 := by decide

theorem witness_FaultsArePrecise :
    edge.err = false ∧ ∃ t, runWord 0x000003FD00000001 edge = .next t ∧ t.err = true := ⟨rfl, _, rfl, rfl⟩

theorem witness_RangeViolationOnlyByFrombi :
    (∃ t, runWord 0x0000000800000029 (image [0x80000001, 0x05000000]) = .next t ∧ t.err = true ∧ t.cause = 4) ∧
      decode 0x0000000800000029 = .ok (.frombi .w32 0 8) ∧
      Memory.read (image [0x80000001, 0x05000000]).lm 0 = some 0x80000001 ∧
      readWords (image [0x80000001, 0x05000000]).lm 1 ((biBytes 0x80000001 + 3) / 4) = .ok [0x05000000] ∧
      biValue 0x80000001 [0x05000000] < 0 ∧
      2 ^ 128 ≤ biMagnitude (biBytes 17) [0x01000000, 0, 0, 0, 0] := by
  refine ⟨⟨_, rfl, rfl, rfl⟩, ?_⟩
  decide

theorem witness_FaultOrderOfOneCommand :
    decode 0x83 = .error .illegalOpcode ∧ decode 0x00000FFF00000101 = .error .reservedField ∧
      decode 0x00000000FFFFFF08 = .ok (.add .w32 4095 4095 0) ∧ ¬ ea .w32 4095 + 4 ≤ edge.lmWords := by decide

theorem witness_OnlyCarryInCommandsReadRes :
    readsRes (.add .w32 0 4 8) = false ∧ writesRes (.add .w32 0 4 8) = true ∧
      (∃ t, exec (.add .w32 0 4 8) edge = .next t) ∧ RegionsInside (.add .w32 0 4 8) edge ∧
      (0x100000001 : DWord).toNat % 2 ^ 32 = (edge 1).res.toNat % 2 ^ 32 ∧ RegionsInside (.addtoc .w32 0 4) (edge 1) := by
  refine ⟨rfl, rfl, ⟨_, rfl⟩, ?_, by decide, ?_⟩ <;> simp [RegionsInside, namedRegions, nat128, ea] <;> decide

theorem witness_CommandsChangeOnlyTheirTargets :
    (∃ t, exec (.mul .w32 0 4 8) edge = .next t) ∧ writesRes (.mul .w32 0 4 8) = false := ⟨⟨_, rfl⟩, rfl⟩

/-- The block after reset with one written LM word, the last one, and one host event. -/
def driven (h : HostEvent) : State := { block [(1023, 7)] with host := [h] }

theorem driven_ready (h : HostEvent) : Ready (driven h) := ⟨rfl, by simp [driven, block, State.reset, State.resetOf]⟩

theorem witness_StatusReadLayout : (driven (hr 0x08)).phase ≠ .unreset ∧ (driven (hr 0x08)).flight = none ∧
    (driven (hr 0x08)).host = [hr 0x08] := by decide

theorem witness_StatusWriteClearsRecord : Ready (driven (hw 0x08 2)) ∧ (driven (hw 0x08 2)).host = [hw 0x08 2] ∧
    (2 : Word).getLsbD 1 = true ∧ (0xFFFFFFFD : Word).getLsbD 1 = false := ⟨driven_ready _, rfl, rfl, rfl⟩

theorem witness_CmdHiWriteIssues : Ready (driven (hw 0x04 8)) ∧ (driven (hw 0x04 8)).err = false ∧
    (driven (hw 0x04 8)).host = [hw 0x04 8] ∧ (driven (hw 0x00 8)).host = [hw 0x00 8] ∧
    (driven (hr 0x00)).host = [hr 0x00] ∧ (driven (hr 0x04)).host = [hr 0x04] ∧
    (∃ t, step { block [] with flight := some (inFlight 1) } = .next t) :=
  ⟨driven_ready _, rfl, rfl, rfl, rfl, rfl, _, rfl⟩

theorem witness_IssueWhileErrIsDiscarded : Ready (faulted (hw 0x04 8)) ∧ (faulted (hw 0x04 8)).err = true ∧
    (faulted (hw 0x04 8)).host = [hw 0x04 8] := ⟨⟨rfl, by decide⟩, rfl, rfl⟩

theorem witness_ErrCmdHoldsFaultingWord : Ready (faulted (hr 0x18)) ∧ (faulted (hr 0x18)).host = [hr 0x18] ∧
    (faulted (hr 0x1C)).host = [hr 0x1C] ∧
    noReset { block [] with flight := some (lastCycle 3) } = true ∧
    (∃ t, step { block [] with flight := some (lastCycle 3) } = .next t ∧ t.errCmd ≠ 0) ∧
    ∃ t, runWord 3 (block []) = .next t ∧ t.err = true :=
  ⟨⟨rfl, by decide⟩, rfl, rfl, by decide, ⟨_, rfl, by decide⟩, _, rfl, rfl⟩

theorem witness_ResHalvesReadAndWrite : Ready (driven (hw 0x10 1)) ∧ (driven (hw 0x10 1)).host = [hw 0x10 1] ∧
    Ready (driven (hw 0x14 1)) ∧ (driven (hw 0x14 1)).host = [hw 0x14 1] ∧
    Ready (driven (hr 0x10)) ∧ Ready (driven (hr 0x14)) := ⟨driven_ready _, rfl, driven_ready _, rfl, driven_ready _, driven_ready _⟩

theorem witness_LmWindowReadsAndWrites : Ready (driven (hr 0x4FFC)) ∧ (driven (hr 0x4FFC)).lmWords ≤ 4096 ∧
    1023 < (driven (hr 0x4FFC)).lmWords ∧ (driven (hr 0x4FFC)).host = [hr (0x4000 + 4 * 1023)] ∧
    Memory.read (driven (hr 0x4FFC)).lm 1023 = some 7 ∧ (driven (lmSet 0 1)).host = [hw (0x4000 + 4 * 0) 1] :=
  ⟨driven_ready _, by decide, by decide, rfl, rfl, rfl⟩

/-- The reserved and read-only offsets at the ends of their ranges. -/
theorem witness_ReservedOffsetsReadZeroAndIgnoreWrites : Ready (driven (hr 0x20)) ∧ (driven (hr 0x20)).lmWords ≤ 4096 ∧
    (0x0020 ≤ 0x0020 ∧ 0x3FFF < 0x4000) ∧ (0x4000 + 4 * (driven (hr 0x5000)).lmWords ≤ 0x5000 ∧ 0xFFFF < 0x10000) ∧
    (driven (hr 0x5000)).host = [hr 0x5000] ∧ (driven (hw 0x1C 1)).host = [hw 0x1C 1] :=
  ⟨driven_ready _, by decide, by decide, by decide, rfl, rfl⟩

theorem block_invariant : MachineInv (block []) :=
  ⟨⟨rfl, by simp [block, State.reset, State.resetOf]⟩, by decide, fun _ => rfl,
    fun _ => ⟨fun h => absurd h (by decide), fun _ => ⟨rfl, rfl⟩⟩, fun _ h => nomatch h⟩

theorem witness_IdIsConstant : Ready (driven (hr 0x0C)) ∧ (driven (hr 0x0C)).lmWords ≤ 4096 ∧
    ∃ t, step (driven (hr 0x0C)) = .next t := ⟨driven_ready _, by decide, _, rfl⟩

theorem witness_HostTransfersNeverFault : Ready (driven (hw 0x04 1)) ∧ (∃ u, step (driven (hw 0x04 1)) = .next u) ∧
    step (driven (hr 0x4FF8)) = .fault (.unwrittenWord 1022) := ⟨driven_ready _, ⟨_, rfl⟩, rfl⟩

theorem witness_ResetEdgeKeepsLm :
    (driven (.reset none)).host = [.reset none] ∧ (driven (.reset none)).flight = none ∧
      (driven (.reset (some (.read 0)))).phase = .resetHeld ∧
      decode (inFlight 0x0000000800400018).word = .ok (.mul .w32 0 4 8) ∧
      decode (inFlight 3).word = .error .illegalOpcode := by decide

theorem witness_ResetHasInv : 16 ≤ 16 ∧ 16 ≤ 4096 ∧ 4096 ≤ 4096 := by decide

theorem witness_StepKeepsInv : MachineInv (block []) ∧ ∃ t, step (block []) = .next t := ⟨block_invariant, _, rfl⟩

theorem witness_WrittenWordsKeepAValue :
    (∃ t, step { block [(0, 7)] with host := [.reset none] } = .next t) ∧ Memory.read (block [(0, 7)]).lm 0 ≠ none :=
  ⟨⟨_, rfl⟩, by decide⟩

theorem witness_NothingChangesByItself :
    (block []).flight = none ∧ noReset { block [] with host := [hr 0x08] } = true ∧
      (∃ t, step { block [] with host := [hr 0x08] } = .next t) ∧
      ∀ a v rest, (block []).host ≠ .transfer (.write a v) :: rest := ⟨rfl, rfl, ⟨_, rfl⟩, by simp [block, State.reset, State.resetOf]⟩

end Sys2Proof.Tests
end

section
/-! Proofs. The step at the edge at which a command in flight commits (00_scope.md R20, 10_state.md R42). -/

namespace Sys2Proof.Machine

/-- Whether or not the word decodes, the commit edge runs it on the state that the edge's bus cycle leaves. -/
theorem step_commit {s : State} {f : Flight} (hf : s.flight = some f) (hc : f.commitsNow = true)
    (hp : s.phase ≠ .unreset) (hr : noReset s = true) :
    step s = mapNext (tick f true) (runWord f.word (sampleBus s)) := by
  have hf' : (sampleBus s).flight = some f := by rw [sampleBus_flight, hf]
  rw [step_busy hf hp hr, advance_commit hf' hc]

/-- Settles O6: the commit edge runs the command word, and running a word that decodes is the execution of its
command. -/
theorem stepRunsDecodedCommand : Obligations.StepRunsDecodedCommand := by
  intro s f i hf hc hp hr hd
  rw [step_commit hf hc hp hr, runWord_ok hd]

end Sys2Proof.Machine
end

section
/-! Proofs. Everything the execution of a command can do (00_scope.md R20): a run of single-word writes inside the
destination regions with RES beside it, or a fault record alone. Each later statement about a command reads this off. -/

namespace Sys2Proof

/-! ## The word of a decoded command -/

theorem viewBit_viewOf (w : BitVec 1) : viewBit (viewOf w) = w := by revert w; decide

/-- The fields of a word that decodes are those the encoder gives its command: RSV and the unused fields are 0. -/
theorem encodeFields_of_assignedOp {f : Fields} {i : Instr} (ha : assignedOp f = some i) (hr : f.rsv = 0)
    (hu : unusedZero (usedFields i) f = true) : encodeFields i = f := by
  obtain ⟨op, w, rsv, a, b, c, imm⟩ := f
  subst hr
  unfold assignedOp at ha
  dsimp only at ha
  split at ha <;> rename_i hop <;> cases ha
  all_goals
    replace hop := congrArg (BitVec.ofNat 6) hop
    simp_all [unusedZero, usedFields, encodeFields, opcode, viewBit_viewOf]

/-- The word that is issued is the encoding of the command it decodes to (30_encoding.md R96, R103), which is why a
fault in execution records the issued word (notes/assumptions/13.md). -/
theorem encode_of_decode {cw : DWord} {i : Instr} (h : decode cw = .ok i) : encode i = cw := by
  unfold decode at h
  split at h
  · cases h
  · rename_i i' ha
    split_ifs at h with hr hu
    cases h
    rw [encode, encodeFields_of_assignedOp ha (not_not.1 hr) hu, wordOf_fieldsOf]

end Sys2Proof

namespace Sys2Proof.Machine

/-! ## Runs of single-word writes to LM -/

/-- `m'` comes from `m` by writes of single words at addresses that satisfy `P`. -/
inductive Memory.Writes (P : Nat → Prop) : Memory → Memory → Prop
  | refl (m : Memory) : Memory.Writes P m m
  | write {m m' : Memory} {a : Nat} (v : Word) :
      P a → Memory.Writes P (Memory.write m a v) m' → Memory.Writes P m m'

namespace Memory.Writes

variable {P Q : Nat → Prop} {m m' m'' : Memory}

/-- What each of the writes keeps, the run keeps. -/
theorem preserves {I : Memory → Prop} (h : Memory.Writes P m m')
    (hI : ∀ m a v, P a → I m → I (Memory.write m a v)) (hm : I m) : I m' := by
  induction h with
  | refl => exact hm
  | write v ha _ ih => exact ih (hI _ _ v ha hm)

theorem trans (h : Memory.Writes P m m') (h' : Memory.Writes P m' m'') : Memory.Writes P m m'' := by
  induction h with
  | refl => exact h'
  | write v ha _ ih => exact .write v ha (ih h')

theorem mono (hPQ : ∀ j, P j → Q j) (h : Memory.Writes P m m') : Memory.Writes Q m m' := by
  induction h with
  | refl => exact .refl _
  | write v ha _ ih => exact .write v (hPQ _ ha) ih

/-- A word that has a value keeps one. -/
theorem read_ne_none (h : Memory.Writes P m m') {j : Nat} (hj : Memory.read m j ≠ none) :
    Memory.read m' j ≠ none := by
  refine h.preserves (I := fun m => Memory.read m j ≠ none) (fun m a v _ hm => ?_) hj
  by_cases hja : j = a
  · simp [hja]
  · simpa [hja] using hm

end Memory.Writes

theorem Memory.writes_writeWords {P : Nat → Prop} (m : Memory) (a n v : Nat) (hP : ∀ j, a ≤ j → j < a + n → P j) :
    Memory.Writes P m (Memory.writeWords m a n v) := by
  induction n generalizing m a v with
  | zero => exact .refl m
  | succ n ih => exact .write _ (hP a (by omega) (by omega)) (ih _ _ _ fun j h1 h2 => hP j (by omega) (by omega))

theorem Memory.writes_writeList {P : Nat → Prop} (m : Memory) (a : Nat) (vs : List Word)
    (hP : ∀ j, a ≤ j → j < a + vs.length → P j) : Memory.Writes P m (Memory.writeList m a vs) := by
  induction vs generalizing m a with
  | nil => exact .refl m
  | cons v vs ih =>
    rw [List.length_cons] at hP
    exact .write v (hP a (by omega) (by omega)) (ih _ _ fun j h1 h2 => hP j (by omega) (by omega))

/-! ## The commit of a command -/

/-- The command's commit: it writes words of its destination regions, RES if it is one of the commands of 10_state.md
R35, and nothing else. -/
structure Commits (i : Instr) (s t : State) : Prop where
  lm : Memory.Writes (fun j => ∃ r ∈ destRegions i, r.has j) s.lm t.lm
  res : writesRes i = false → t.res = s.res
  frame : t = { s with lm := t.lm, res := t.res }

namespace Commits

variable {i : Instr} {s t : State}

theorem refl (i : Instr) (s : State) : Commits i s s := ⟨.refl _, fun _ => rfl, rfl⟩

theorem writeLm (h : Commits i s t) {m : Memory}
    (hm : Memory.Writes (fun j => ∃ r ∈ destRegions i, r.has j) t.lm m) : Commits i s { t with lm := m } :=
  ⟨h.lm.trans hm, h.res, congrArg (fun u : State => { u with lm := m }) h.frame⟩

theorem store (h : Commits i s t) {r : Region} (hr : r ∈ destRegions i) (v : Nat) :
    Commits i s (store r v t) :=
  h.writeLm (Memory.writes_writeWords _ _ _ _ fun _ h1 h2 => ⟨r, hr, h1, h2⟩)

theorem setRes (h : Commits i s t) (hw : writesRes i = true) (v : DWord) : Commits i s (setRes v t) :=
  ⟨h.lm, fun hn => absurd hw (by simp [hn]), congrArg (fun u : State => { u with res := v }) h.frame⟩

theorem commitExact (h : Commits i s t) (hw : writesRes i = true) {r : Region} (hr : r ∈ destRegions i) (v : Int) :
    Commits i s (commitExact r v t) :=
  (h.store hr _).setRes hw _

end Commits

/-! ## The bodies -/

section
variable {Q : Except Stop State → Prop} (hu : ∀ j, Q (.error (.unwritten j)))
include hu

/-- What holds of an operand word without a value, and of the body for every operand value, holds of the body. -/
theorem withOne_of {s : State} {x : Region} {k : Nat → Except Stop State} (hk : ∀ v, Q (k v)) :
    Q (withOne s x k) := by
  obtain ⟨v, _, h⟩ | ⟨j, h⟩ := withOne_cases s x k <;> rw [h]
  · exact hk v
  · exact hu j

theorem withTwo_of {s : State} {x y : Region} {k : Nat → Nat → Except Stop State} (hk : ∀ v w, Q (k v w)) :
    Q (withTwo s x y k) :=
  withOne_of hu fun v => withOne_of hu (hk v)

theorem withThree_of {s : State} {x y z : Region} {k : Nat → Nat → Nat → Except Stop State}
    (hk : ∀ u v w, Q (k u v w)) : Q (withThree s x y z k) :=
  withTwo_of hu fun u v => withOne_of hu (hk u v)

end

/-- What the body of a command may answer: a commit, a fault that execution raises (60_exceptions.md R233, R234), or the
stop at an operand word without a value. -/
def BodyOk (i : Instr) (s : State) : Except Stop State → Prop
  | .ok t => Commits i s t
  | .error (.cause k) => k = causeAddrRange ∨ k = causeRangeViolation
  | .error (.unwritten _) => True

theorem bodyOk_unwritten (i : Instr) (s : State) (j : Nat) : BodyOk i s (.error (.unwritten j)) := trivial

/-- The last steps of FROMBI store inside C, or raise RANGE_VIOLATION. -/
theorem frombiCommit_bodyOk (w : View) (a c : Nat) (hdr : Word) (ws : List Word) (s : State) :
    BodyOk (.frombi w a c) s (frombiCommit w c hdr ws s) := by
  by_cases h : (biSign hdr = true ∧ biMagnitude (biBytes hdr) ws ≠ 0) ∨ 2 ^ 128 ≤ biMagnitude (biBytes hdr) ws
  · rw [frombiCommit_fault h]
    exact .inr rfl
  · rw [frombiCommit_store h]
    exact (Commits.refl _ s).store List.mem_cons_self _

/-- Everything the execution of a command can do: its commit, or the record of ADDR_RANGE or RANGE_VIOLATION. -/
def Executes (i : Instr) (s t : State) : Prop :=
  (RegionsInside i s ∧ Commits i s t) ∨
    ∃ k, (k = causeAddrRange ∨ k = causeRangeViolation) ∧ t = takeFault k (encode i) s

theorem finish_executes {i : Instr} {s t : State} {body : Except Stop State} (hR : RegionsInside i s)
    (hb : BodyOk i s body) (h : finish i s body = .next t) : Executes i s t := by
  match body, hb, h with
  | .ok u, hb, h => cases h; exact .inl ⟨hR, hb⟩
  | .error (.cause k), hb, h => cases h; exact .inr ⟨k, hb, rfl⟩

theorem command_executes {i : Instr} {s t : State} {body : Except Stop State} (hb : BodyOk i s body)
    (h : command i s body = .next t) : Executes i s t := by
  by_cases hR : RegionsInside i s
  · rw [command_inside hR] at h
    exact finish_executes hR hb h
  · rw [command_outside hR] at h
    cases h
    exact .inr ⟨_, .inl rfl, rfl⟩

theorem execFrombi_executes {w : View} {a c : Nat} {s t : State} (h : execFrombi w a c s = .next t) :
    Executes (.frombi w a c) s t := by
  by_cases hR : RegionsInside (.frombi w a c) s
  · obtain ⟨j, h'⟩ | ⟨hdr, _, ⟨_, h'⟩ | ⟨_, ws, _, h'⟩⟩ := execFrombi_cases w a c s hR <;> rw [h'] at h
    · cases h
    · cases h
      exact .inr ⟨_, .inl rfl, rfl⟩
    · exact finish_executes hR (frombiCommit_bodyOk w a c hdr ws s) h
  · rw [execFrombi, command_outside hR] at h
    cases h
    exact .inr ⟨_, .inl rfl, rfl⟩

/-- The inversion of `exec`, command by command: the values read are any, the commit is the rule's. -/
theorem exec_executes {i : Instr} {s t : State} (h : exec i s = .next t) : Executes i s t := by
  have h0 := Commits.refl i s
  have hu := bodyOk_unwritten i s
  cases i with
  | clr | clrx =>
    refine command_executes ?_ h
    exact h0.store (by simp [destRegions]) _
  | mul =>
    refine command_executes (withTwo_of hu fun _ _ => ?_) h
    exact h0.store (by simp [destRegions]) _
  | sqr =>
    refine command_executes (withOne_of hu fun _ => ?_) h
    exact h0.store (by simp [destRegions]) _
  | add | addto | addtoc | sub | subfrom | subfromb =>
    refine command_executes (withTwo_of hu fun _ _ => ?_) h
    exact h0.commitExact rfl (by simp [destRegions]) _
  | addboth | subboth | muladd =>
    refine command_executes (withThree_of hu fun _ _ _ => ?_) h
    exact h0.commitExact rfl (by simp [destRegions]) _
  | addeach =>
    refine command_executes (withTwo_of hu fun _ _ => ?_) h
    exact (h0.store (by simp [destRegions]) _).commitExact rfl (by simp [destRegions]) _
  | diff =>
    refine command_executes (withTwo_of hu fun _ _ => ?_) h
    exact (h0.store (by simp [destRegions]) _).setRes rfl _
  | eq | gte =>
    refine command_executes (withTwo_of hu fun _ _ => ?_) h
    exact h0.setRes rfl _
  | iszero | isone | getbit =>
    refine command_executes (withOne_of hu fun _ => ?_) h
    exact h0.setRes rfl _
  | tobi w a c =>
    refine command_executes (withOne_of hu fun _ => ?_) h
    refine h0.writeLm (Memory.writes_writeList _ _ _ fun _ h1 h2 => ?_)
    exact ⟨tobiImage w c, by simp [destRegions], h1, h2⟩
  | frombi => exact execFrombi_executes h

/-! ## Running a command word -/

/-- Every destination region is one of the regions the command checks (20_memory.md R65, R66). -/
theorem destRegions_subset (i : Instr) : destRegions i ⊆ namedRegions i := by
  cases i <;> simp [destRegions, namedRegions]

/-- The commit of a command whose regions lie inside LM writes words of LM alone. -/
theorem Commits.writes_inside {i : Instr} {s t : State} (h : Commits i s t) (hR : RegionsInside i s) :
    Memory.Writes (· < s.lmWords) s.lm t.lm :=
  h.lm.mono fun _ ⟨r, hr, hj⟩ => lt_of_lt_of_le hj.2 (hR r (destRegions_subset i hr))

/-- Everything the execution of a command word can do: LM words are written inside the store and RES takes some value, or
a fault of R231 is recorded with the word. -/
theorem runWord_next {cw : DWord} {s t : State} (h : runWord cw s = .next t) :
    (∃ m v, Memory.Writes (· < s.lmWords) s.lm m ∧ t = { s with lm := m, res := v }) ∨
      ∃ k, 1 ≤ k.toNat ∧ k.toNat ≤ 4 ∧ t = takeFault k cw s := by
  cases hd : decode cw with
  | ok i =>
    rw [runWord_ok hd] at h
    obtain ⟨hR, hc⟩ | ⟨k, hk, ht⟩ := exec_executes h
    · exact .inl ⟨t.lm, t.res, hc.writes_inside hR, hc.frame⟩
    · rw [encode_of_decode hd] at ht
      refine .inr ⟨k, ?_, ?_, ht⟩ <;> obtain rfl | rfl := hk <;> decide
  | error e =>
    rw [runWord_error hd] at h
    cases h
    refine .inr ⟨decodeCause e, ?_, ?_, rfl⟩ <;> cases e <;> decide

end Sys2Proof.Machine
end

section
/-! Proofs. Everything a step can do: a reset edge, a bus cycle with one cycle of the command in flight, or a host write
that completes (70_reset_and_hazards.md R260 to R272). Each later statement about every step is read off these three. -/

namespace Sys2Proof.Machine

/-! ## A reset edge -/

/-- Free values go to words of the store alone (70_reset_and_hazards.md R262). -/
theorem scrambleWords_eq (a n : Nat) (s : State) : ∃ m d, Memory.Writes (· < s.lmWords) s.lm m ∧
    scrambleWords a n s = { s with lm := m, draws := d } := by
  induction n generalizing a s with
  | zero => exact ⟨s.lm, s.draws, .refl _, rfl⟩
  | succ n ih =>
    rw [scrambleWords]
    split_ifs with ha
    · obtain ⟨m, d, hm, he⟩ :=
        ih (a + 1) { s with lm := Memory.write s.lm a (Config.freeWord s.draws), draws := s.draws + 1 }
      exact ⟨m, d, .write _ ha hm, he⟩
    · exact ih (a + 1) s

theorem scrambleRegions_eq (rs : List Region) (s : State) : ∃ m d, Memory.Writes (· < s.lmWords) s.lm m ∧
    scrambleRegions rs s = { s with lm := m, draws := d } := by
  induction rs generalizing s with
  | nil => exact ⟨s.lm, s.draws, .refl _, rfl⟩
  | cons r rs ih =>
    obtain ⟨m, d, hm, he⟩ := scrambleWords_eq r.addr r.len s
    obtain ⟨m', d', hm', he'⟩ := ih { s with lm := m, draws := d }
    rw [scrambleRegions, he]
    exact ⟨m', d', hm.trans hm', he'⟩

theorem abandon_eq (s : State) : ∃ m d, Memory.Writes (· < s.lmWords) s.lm m ∧
    abandon s = { s with lm := m, draws := d, flight := none } := by
  unfold abandon
  split
  · rename_i hf
    exact ⟨s.lm, s.draws, .refl _, by rw [← hf]⟩
  · split
    · rename_i i _
      obtain ⟨m, d, hm, he⟩ := scrambleRegions_eq (destRegions i) s
      exact ⟨m, d, hm, by rw [he]⟩
    · exact ⟨s.lm, s.draws, .refl _, rfl⟩

theorem resetTransfer_eq (t : Option Transfer) (before s : State) :
    ∃ rdy dat d, resetTransfer t before s = { s with hReady := rdy, hRdata := dat, draws := d } := by
  unfold resetTransfer
  split
  · exact ⟨_, _, _, rfl⟩
  · exact ⟨_, _, _, rfl⟩
  · split_ifs <;> exact ⟨_, _, _, rfl⟩

/-- After a reset edge the block is the one right after reset but for LM, of which words of the store were written, and
for what stands beside the block: the bus outputs, the stimulus and the draw counter (10_state.md R49, R262). -/
theorem resetEdge_eq (t : Option Transfer) (rest : List HostEvent) (s : State) :
    ∃ m rdy dat d, Memory.Writes (· < s.lmWords) s.lm m ∧
      resetEdge t rest s =
        { State.resetOf s.lmWords with lm := m, hReady := rdy, hRdata := dat, host := rest, draws := d } := by
  obtain ⟨m, _, hm, ha⟩ := abandon_eq { s with host := rest }
  rw [resetEdge, ha]
  obtain ⟨rdy, dat, d, ht⟩ := resetTransfer_eq t s
    (resetRegisters { s with host := rest, lm := m, draws := _, flight := none })
  exact ⟨m, rdy, dat, d, hm, ht⟩

/-! ## The three kinds of step -/

/-- A cycle of the bus with no write: only the reset phase, the bus outputs and the stimulus may change, and the phase
does not become or leave `unreset`. -/
def BusCycle (s u : State) : Prop :=
  (u.phase = .unreset ↔ s.phase = .unreset) ∧ u = withUnseen s.flight u.phase u.hReady u.hRdata u.host s

theorem leaveReset_busCycle (s : State) (rest : List HostEvent) : BusCycle s (leaveReset { s with host := rest }) :=
  ⟨by by_cases h : s.phase = .unreset <;> simp [h], rfl⟩

theorem BusCycle.setReady {s u : State} (h : BusCycle s u) (b : Bool) : BusCycle s (setReady b u) :=
  ⟨h.1, congrArg (Machine.setReady b) h.2⟩

theorem BusCycle.readDone {s u : State} (h : BusCycle s u) (v : Word) : BusCycle s (readDone v u) :=
  ⟨h.1, congrArg (Machine.readDone v) h.2⟩

namespace BusCycle

variable {s u : State} (h : BusCycle s u)
include h

theorem lm : u.lm = s.lm := (congrArg State.lm h.2 :)
theorem flight : u.flight = s.flight := (congrArg State.flight h.2 :)
theorem errCmd : u.errCmd = s.errCmd := (congrArg State.errCmd h.2 :)
theorem cmdLo : u.cmdLo = s.cmdLo := (congrArg State.cmdLo h.2 :)
theorem lmWords : u.lmWords = s.lmWords := (congrArg State.lmWords h.2 :)
theorem cmdHi : u.cmdHi = s.cmdHi := (congrArg State.cmdHi h.2 :)

end BusCycle

/-- A host write that completes at the edge, on a block that is past its first reset and has no command in flight. -/
def WriteCompletes (s t : State) : Prop :=
  Ready s ∧ ∃ addr v rest, s.host = .transfer (.write addr v) :: rest ∧
    t = setReady true (busWrite addr v (leaveReset { s with host := rest }))

/-- An edge with `rst` = 0. -/
def Runs (s t : State) : Prop :=
  (∃ u, BusCycle s u ∧ advance u = .next t) ∨ WriteCompletes s t

theorem idleEdge_next {s t : State} {rest : List HostEvent} (h : idleEdge rest s = .next t) : Runs s t :=
  .inl ⟨_, (leaveReset_busCycle s rest).setReady false, h⟩

theorem transferEdge_next {s t : State} {tr : Transfer} {rest : List HostEvent}
    (hh : s.host = .transfer tr :: rest) (h : transferEdge tr rest s = .next t) : Runs s t := by
  have hcycle := leaveReset_busCycle s
  unfold transferEdge at h
  split_ifs at h with hp hb hst
  · exact .inl ⟨_, (hcycle rest).readDone _, h⟩
  · exact .inl ⟨_, (hcycle s.host).setReady false, h⟩
  · have hf : s.flight = none := by simpa [busy] using hb
    cases tr with
    | read addr =>
      rw [completeTransfer] at h
      split at h
      · cases h
        exact .inl ⟨_, (hcycle rest).readDone _, advance_none hf⟩
      · cases h
    | write addr v =>
      cases h
      exact .inr ⟨⟨hf, hp⟩, addr, v, rest, hh, rfl⟩

/-- Everything a step that answers a next state can have done. -/
theorem step_next {s t : State} (h : step s = .next t) :
    (∃ tr rest, s.host = .reset tr :: rest ∧ t = resetEdge tr rest s) ∨ (noReset s = true ∧ Runs s t) := by
  cases hh : s.host with
  | nil =>
    rw [step_nil hh] at h
    exact .inr ⟨by simp [noReset, hh], idleEdge_next h⟩
  | cons e rest =>
    cases e with
    | idle =>
      rw [step_idle hh] at h
      exact .inr ⟨by simp [noReset, hh], idleEdge_next h⟩
    | transfer tr =>
      rw [step_transfer hh] at h
      exact .inr ⟨by simp [noReset, hh], transferEdge_next hh h⟩
    | reset tr =>
      rw [step_reset hh] at h
      cases h
      exact .inl ⟨tr, rest, rfl, rfl⟩

/-- An edge at which the host drives no reset is one of the other two kinds. -/
theorem step_runs {s t : State} (hr : noReset s = true) (h : step s = .next t) : Runs s t := by
  obtain ⟨tr, rest, hh, -⟩ | ⟨-, hruns⟩ := step_next h
  · simp [noReset, hh] at hr
  · exact hruns

/-! ## What the command in flight and a host write leave -/

/-- The command in flight, at an edge, writes words of the store alone. -/
theorem advance_writes {s t : State} (h : advance s = .next t) : Memory.Writes (· < s.lmWords) s.lm t.lm := by
  obtain ⟨-, rfl⟩ | ⟨f, -, -, rfl⟩ | ⟨f, u, -, -, hu, rfl⟩ := advance_next h
  · exact .refl _
  · exact .refl _
  · obtain ⟨m, v, hm, rfl⟩ | ⟨k, -, -, rfl⟩ := runWord_next hu
    · exact hm
    · exact .refl _

/-- The command in flight changes at most LM, RES, the fault record but DROP, and its own progress. -/
theorem advance_frame {s t : State} (h : advance s = .next t) :
    t = { s with lm := t.lm, res := t.res, err := t.err, cause := t.cause, errCmd := t.errCmd, flight := t.flight } := by
  obtain ⟨-, rfl⟩ | ⟨f, -, -, rfl⟩ | ⟨f, u, -, -, hu, rfl⟩ := advance_next h
  · rfl
  · rfl
  · obtain ⟨m, v, -, rfl⟩ | ⟨k, -, -, rfl⟩ := runWord_next hu <;> rfl

/-- A host write changes LM words of the store alone. -/
theorem busWrite_writes (addr : BitVec 14) (v : Word) (s : State) :
    Memory.Writes (· < s.lmWords) s.lm (busWrite addr v s).lm := by
  unfold busWrite issue
  cases hport : portOf s.lmWords addr with
  | lm i => exact .write v (portOf_eq_lm hport).2 (.refl _)
  | cmdHi | status => dsimp only; split_ifs <;> exact .refl _
  | _ => exact .refl _

/-- A host write leaves ERRCMD, LM_WORDS, the reset phase, the bus outputs and the stimulus. -/
theorem busWrite_frame (addr : BitVec 14) (v : Word) (s : State) :
    { busWrite addr v s with
        lm := s.lm, res := s.res, err := s.err, drop := s.drop, cause := s.cause, cmdLo := s.cmdLo, cmdHi := s.cmdHi,
        flight := s.flight, draws := s.draws } = s := by
  unfold busWrite issue
  cases portOf s.lmWords addr with
  | cmdHi | status => dsimp only; split_ifs <;> rfl
  | _ => rfl

@[simp] theorem busWrite_errCmd (addr : BitVec 14) (v : Word) (s : State) : (busWrite addr v s).errCmd = s.errCmd :=
  (congrArg State.errCmd (busWrite_frame addr v s) :)

@[simp] theorem busWrite_lmWords (addr : BitVec 14) (v : Word) (s : State) : (busWrite addr v s).lmWords = s.lmWords :=
  (congrArg State.lmWords (busWrite_frame addr v s) :)

/-! ## LM and LM_WORDS under every step -/

/-- No step changes LM_WORDS (10_state.md R40). -/
theorem step_lmWords {s t : State} (h : step s = .next t) : t.lmWords = s.lmWords := by
  obtain ⟨tr, rest, -, rfl⟩ | ⟨-, ⟨u, hu, ha⟩ | ⟨-, addr, v, rest, -, rfl⟩⟩ := step_next h
  · obtain ⟨m, rdy, dat, d, -, he⟩ := resetEdge_eq tr rest s
    rw [he]
    rfl
  · calc t.lmWords = u.lmWords := (congrArg State.lmWords (advance_frame ha) :)
      _ = s.lmWords := hu.lmWords
  · simp

/-- Whatever a step does to LM, it does by writes of words of the store. -/
theorem step_writes {s t : State} (h : step s = .next t) : Memory.Writes (· < s.lmWords) s.lm t.lm := by
  obtain ⟨tr, rest, -, rfl⟩ | ⟨-, ⟨u, hu, ha⟩ | ⟨-, addr, v, rest, -, rfl⟩⟩ := step_next h
  · obtain ⟨m, rdy, dat, d, hm, he⟩ := resetEdge_eq tr rest s
    rwa [he]
  · rw [← hu.lm, ← hu.lmWords]
    exact advance_writes ha
  · exact busWrite_writes addr v (leaveReset { s with host := rest })

/-- Settles O59: a step writes single words, and a write takes no value from a word. -/
theorem writtenWordsKeepAValue : Obligations.WrittenWordsKeepAValue :=
  fun _ _ _ h hj => (step_writes h).read_ne_none hj

/-! ## The invariant -/

theorem resetOf_inv {n : Nat} (h1 : 16 ≤ n) (h2 : n ≤ 4096) : MachineInv (State.resetOf n) where
  lm := ⟨rfl, fun _ hc => absurd hc List.not_mem_nil⟩
  params := ⟨h1, h2⟩
  unreset := fun _ => rfl
  record := fun _ => ⟨fun he => (Bool.false_ne_true he).elim, fun _ => ⟨rfl, rfl⟩⟩
  flight := fun _ h => absurd h (Option.some_ne_none _).symm

/-- Settles O58: the state after reset has no word, no command in flight and an empty fault record. -/
theorem resetHasInv : Obligations.ResetHasInv :=
  ⟨fun _ => resetOf_inv, resetOf_inv (by decide) (by decide)⟩

theorem LmOk.writes {s : State} (h : LmOk s) {m : Memory} (hm : Memory.Writes (· < s.lmWords) s.lm m) :
    LmOk { s with lm := m } := by
  obtain ⟨hwf, hin⟩ := h
  refine ⟨hm.preserves (I := fun m => Memory.wf m = true) (fun _ a v _ h => Memory.write_wf a v h) hwf, ?_⟩
  refine hm.preserves (I := fun m => ∀ c ∈ m, c.1 < s.lmWords) (fun m a v ha h c hc => ?_) hin
  obtain rfl | hc := Memory.mem_write hc
  · exact ha
  · exact h c hc

namespace MachineInv

variable {s : State}

theorem writes (h : MachineInv s) {m : Memory} (hm : Memory.Writes (· < s.lmWords) s.lm m) :
    MachineInv { s with lm := m } :=
  ⟨h.lm.writes hm, h.params, h.unreset, h.record, h.flight⟩

/-- The invariant says nothing of RES, ERRCMD, the bus outputs, the stimulus and the draw counter. -/
theorem withOther (h : MachineInv s) (res ec rdy dat ho d) :
    MachineInv { s with res := res, errCmd := ec, hReady := rdy, hRdata := dat, host := ho, draws := d } :=
  ⟨h.lm, h.params, h.unreset, h.record, h.flight⟩

theorem busCycle {u : State} (h : MachineInv s) (hu : BusCycle s u) : MachineInv u := by
  obtain ⟨hp, hu⟩ := hu
  rw [hu]
  exact ⟨h.lm, h.params, fun h' => h.unreset (hp.1 h'), fun h' => h.record (mt hp.2 h'), h.flight⟩

/-- A reset edge leads to a state after reset with words of the store written. -/
theorem resetEdge (h : MachineInv s) (t : Option Transfer) (rest : List HostEvent) :
    MachineInv (resetEdge t rest s) := by
  obtain ⟨m, rdy, dat, d, hm, he⟩ := resetEdge_eq t rest s
  obtain ⟨h1, h2⟩ := h.params
  have h0 := resetOf_inv h1 h2
  rw [he]
  exact ⟨h.lm.writes hm, h0.params, h0.unreset, h0.record, h0.flight⟩

/-- A cycle of the command in flight passes; once it has committed, ERR is free. -/
theorem tick (h : MachineInv s) {f : Flight} (hf : s.flight = some f) {d : Bool} (hd : d = true ∨ d = f.done) :
    MachineInv (tick f d s) := by
  refine ⟨h.lm, h.params, fun h' => ?_, h.record, fun g hg => ?_⟩
  · have := h.unreset h'
    simp [hf] at this
  · obtain ⟨hword, -, hlat, herr⟩ := h.flight f hf
    rw [tick_flight] at hg
    split_ifs at hg with h1
    cases hg
    refine ⟨hword, by dsimp only; omega, by dsimp only; omega, fun hd' => herr ?_⟩
    obtain rfl | rfl := hd
    · cases hd'
    · exact hd'

/-- A fault of R231 is recorded by a command that counts as committed. -/
theorem takeFault (h : MachineInv s) (hdone : ∀ f, s.flight = some f → f.done = true) {k : BitVec 4}
    (h1 : 1 ≤ k.toNat) (h4 : k.toNat ≤ 4) (cw : DWord) : MachineInv (takeFault k cw s) := by
  refine ⟨h.lm, h.params, h.unreset, fun _ => ⟨fun _ => ⟨h1, h4⟩, fun he => by cases he⟩, fun f hf => ?_⟩
  obtain ⟨hword, hrem, hlat, -⟩ := h.flight f hf
  exact ⟨hword, hrem, hlat, fun hd => by simp [hdone f hf] at hd⟩

/-- The cycle of the commit may be taken to pass first: neither the commit nor the fault record looks at it. -/
theorem advance {t : State} (h : MachineInv s) (ha : advance s = .next t) : MachineInv t := by
  obtain ⟨-, rfl⟩ | ⟨f, hf, -, rfl⟩ | ⟨f, u, hf, -, hu, rfl⟩ := advance_next ha
  · exact h
  · exact h.tick hf (.inr rfl)
  · have htick := h.tick hf (.inl rfl)
    obtain ⟨m, v, hm, rfl⟩ | ⟨k, h1, h4, rfl⟩ := runWord_next hu
    · exact (htick.writes hm).withOther v _ _ _ _ _
    · refine htick.takeFault (fun g hg => ?_) h1 h4 f.word
      rw [tick_flight] at hg
      split_ifs at hg
      cases hg
      rfl

/-- A CMD_HI write issues the command of both halves, or sets DROP (10_state.md R41, 60_exceptions.md R238). -/
theorem issue (h : MachineInv s) (hr : Ready s) : MachineInv (issue s) := by
  obtain ⟨hf, hp⟩ := hr
  unfold Machine.issue
  split_ifs with he
  · exact ⟨h.lm, h.params, h.unreset, fun _ => ⟨(h.record hp).1, fun h' => by simp [he] at h'⟩, h.flight⟩
  · refine ⟨h.lm, h.params, fun h' => absurd h' hp, h.record, fun f h' => ?_⟩
    cases h'
    exact ⟨rfl, Nat.le_add_left _ _, le_rfl, fun _ => by simpa using he⟩

theorem busWrite (h : MachineInv s) (hr : Ready s) (addr : BitVec 14) (v : Word) :
    MachineInv (busWrite addr v s) := by
  have hnone : ∀ t : State, t.flight = s.flight → FlightOk t := fun t ht f hf => by simp [ht, hr.1] at hf
  unfold Machine.busWrite
  cases hport : portOf s.lmWords addr with
  | cmdLo => exact ⟨h.lm, h.params, h.unreset, h.record, hnone _ rfl⟩
  | cmdHi => exact MachineInv.issue ⟨h.lm, h.params, h.unreset, h.record, hnone _ rfl⟩ hr
  | status =>
    dsimp only
    split_ifs
    · refine ⟨h.lm, h.params, h.unreset, fun _ => ?_, hnone _ rfl⟩
      exact ⟨fun he => (Bool.false_ne_true he).elim, fun _ => ⟨rfl, rfl⟩⟩
    · exact h
  | resLo | resHi => exact h.withOther _ _ _ _ _ _
  | lm i => exact h.writes (.write v (portOf_eq_lm hport).2 (.refl _))
  | id | errCmdLo | errCmdHi | reserved => exact h

end MachineInv

/-- Settles O57, over the three kinds of step: a reset edge leads to the state after reset, a cycle of the command in flight
and a completed host write keep the invariant that the bus cycle leaves. -/
theorem stepKeepsInv : Obligations.StepKeepsInv := by
  intro s t h hst
  obtain ⟨tr, rest, -, rfl⟩ | ⟨-, ⟨u, hu, ha⟩ | ⟨⟨hf, hp⟩, addr, v, rest, -, rfl⟩⟩ := step_next hst
  · exact h.resetEdge tr rest
  · exact (h.busCycle hu).advance ha
  · have hcycle := leaveReset_busCycle s rest
    have hready : Ready (leaveReset { s with host := rest }) := ⟨hf, mt hcycle.1.1 hp⟩
    exact ((h.busCycle hcycle).busWrite hready addr v).withOther _ _ true _ _ _

end Sys2Proof.Machine
end

section
/-! Proofs. The registers of the host window (10_state.md R37 to R43): what a transfer that completes returns or stores, and
what a step may change in them. -/

namespace Sys2Proof.Machine

/-! ## Transfers that complete -/

/-- A read that has a value completes with it and changes nothing else of the block (20_memory.md R70, R76). -/
theorem step_read_ready {s : State} {addr : BitVec 14} {rest : List HostEvent} {v : Word} (hr : Ready s)
    (hh : s.host = .transfer (.read addr) :: rest) (hv : busRead addr s = .ok v) :
    step s = .next { s with host := rest, phase := .running, hReady := true, hRdata := v } := by
  have hv' : busRead addr { s with host := rest, phase := .running } = .ok v := hv
  rw [step_transfer_ready hr hh, completeTransfer, hv']
  rfl

/-- A write completes, on the state that the edge's bus cycle leaves. -/
theorem step_write_ready {s : State} {addr : BitVec 14} {v : Word} {rest : List HostEvent} (hr : Ready s)
    (hh : s.host = .transfer (.write addr v) :: rest) :
    step s = .next (setReady true (busWrite addr v { s with host := rest, phase := .running })) :=
  step_transfer_ready hr hh

/-! ## STATUS -/

/-- Each field of STATUS stands in its place, and the other bits are 0 (10_state.md R38). -/
theorem statusWord_fields (s : State) : (statusWord s).getLsbD 0 = s.flight.isSome ∧
    (statusWord s).getLsbD 1 = s.err ∧ (statusWord s).getLsbD 2 = s.drop ∧ (statusWord s).getLsbD 3 = false ∧
    (statusWord s).extractLsb' 4 4 = s.cause ∧ (statusWord s).extractLsb' 8 24 = 0 := by
  have hcause : (statusWord s).extractLsb' 4 4 = s.cause :=
    (BitVec.extractLsb'_append_eq_of_add_le (by decide)).trans BitVec.extractLsb'_append_eq_left
  refine ⟨?_, ?_, ?_, ?_, hcause, BitVec.extractLsb'_append_eq_left⟩
  all_goals
    simp only [statusWord, busy, BitVec.getLsbD_append]
    simp

/-- In the invariant CAUSE is a code of R231, or 0 when no fault is recorded. -/
theorem RecordOk.cause_le {s : State} (h : RecordOk s) : s.cause.toNat ≤ 4 := by
  obtain ⟨hset, hclear⟩ := h
  cases he : s.err with
  | true => exact (hset he).2
  | false => simp [(hclear he).1]

/-- Settles O44. -/
theorem statusReadLayout : Obligations.StatusReadLayout :=
  ⟨fun _ _ hp hf hh => ⟨_, step_read_ready ⟨hf, hp⟩ hh rfl, rfl, rfl, rfl⟩, statusWord_fields, by decide,
    fun _ h hp => (h.record hp).cause_le⟩

theorem busWrite_status (v : Word) (s : State) :
    busWrite statusAddr v s = if v.getLsbD 1 then clearFault s else s := rfl

/-- Settles O45. -/
theorem statusWriteClearsRecord : Obligations.StatusWriteClearsRecord := by
  intro s v rest hr hh
  refine ⟨_, step_write_ready (addr := statusAddr) hr hh, ?_⟩
  rw [busWrite_status]
  split_ifs <;> rfl

/-! ## ID -/

theorem idWord_congr {s t : State} (h : t.lmWords = s.lmWords) : idWord t = idWord s := by
  rw [idWord, idWord, h]

theorem idWord_hi (s : State) : (idWord s).extractLsb' 16 16 = 0x0128 := BitVec.extractLsb'_append_eq_left

theorem idWord_lo (s : State) : (idWord s).extractLsb' 0 16 = BitVec.ofNat 16 s.lmWords :=
  BitVec.extractLsb'_append_eq_right

/-- Settles O46; that no step changes ID is `step_lmWords`. -/
theorem idIsConstant : Obligations.IdIsConstant := by
  refine ⟨fun s => ⟨idWord_hi s, fun hn => ?_⟩, fun s rest hr hh => ?_, fun s v rest hr hh => ?_, fun s t h => ?_⟩
  · rw [idWord_lo, BitVec.toNat_ofNat]
    omega
  · exact ⟨_, step_read_ready hr hh rfl, rfl, rfl⟩
  · exact ⟨_, step_write_ready hr hh, rfl⟩
  · exact ⟨idWord_congr (step_lmWords h), step_lmWords h⟩

/-! ## RES -/

/-- Settles O50: each half is replaced beside the other half. -/
theorem resHalvesReadAndWrite : Obligations.ResHalvesReadAndWrite := by
  refine ⟨fun s v rest hr hh => ?_, fun s v rest hr hh => ?_, fun s rest hr hh => ?_, fun s rest hr hh => ?_, rfl⟩
  · exact ⟨_, step_write_ready hr hh, BitVec.extractLsb'_append_eq_right, BitVec.extractLsb'_append_eq_left, rfl⟩
  · exact ⟨_, step_write_ready hr hh, BitVec.extractLsb'_append_eq_left, BitVec.extractLsb'_append_eq_right, rfl⟩
  · exact step_read_ready hr hh rfl
  · exact step_read_ready hr hh rfl

/-! ## CMD_LO and CMD_HI -/

theorem issue_of_err_false {s : State} (h : s.err = false) :
    issue s = { s with flight := some (newFlight (joinWords s.cmdLo s.cmdHi) s.draws), draws := s.draws + 1 } := by
  rw [issue, h]
  rfl

/-- OP stands in CMD_LO (30_encoding.md R91). -/
theorem fieldsOf_joinWords_op (lo hi : Word) : (fieldsOf (joinWords lo hi)).op = lo.extractLsb' 0 6 :=
  BitVec.extractLsb'_append_eq_of_add_le (by decide)

/-- A command in flight changes neither half of the command registers: no host write completes beside it. -/
theorem step_busy_cmd {s t : State} {f : Flight} (hf : s.flight = some f) (hr : noReset s = true)
    (h : step s = .next t) : t.cmdLo = s.cmdLo ∧ t.cmdHi = s.cmdHi := by
  obtain ⟨u, hu, ha⟩ | ⟨⟨hnone, -⟩, -⟩ := step_runs hr h
  · have hlo : t.cmdLo = u.cmdLo := (congrArg State.cmdLo (advance_frame ha) :)
    have hhi : t.cmdHi = u.cmdHi := (congrArg State.cmdHi (advance_frame ha) :)
    exact ⟨hlo.trans hu.cmdLo, hhi.trans hu.cmdHi⟩
  · simp [hf] at hnone

/-- Settles O47. -/
theorem cmdHiWriteIssues : Obligations.CmdHiWriteIssues := by
  refine ⟨fun s v rest hr hh => ?_, fun s v rest hr he hh => ?_, fun s rest hr hh => ?_, fun s rest hr hh => ?_,
    fun s t f hf hr h => step_busy_cmd hf hr h, rfl, rfl⟩
  · exact ⟨_, step_write_ready hr hh, rfl⟩
  · have hst : step s = .next (setReady true (issue { s with host := rest, phase := .running, cmdHi := v })) :=
      step_write_ready hr hh
    rw [issue_of_err_false (by exact he)] at hst
    exact ⟨_, _, hst, rfl, rfl, congrArg Config.lat (fieldsOf_joinWords_op _ _), rfl, by rw [hr.1]; rfl⟩
  · exact step_read_ready hr hh rfl
  · exact step_read_ready hr hh rfl

/-! ## ERRCMD -/

/-- The execution of a word that changes the fault record records that word with its fault. -/
theorem runWord_record {cw : DWord} {s t : State} (h : runWord cw s = .next t) :
    (t.err = s.err ∧ t.errCmd = s.errCmd) ∨ (t.err = true ∧ t.errCmd = cw) := by
  obtain ⟨m, v, -, rfl⟩ | ⟨k, -, -, rfl⟩ := runWord_next h
  · exact .inl ⟨rfl, rfl⟩
  · exact .inr ⟨rfl, rfl⟩

theorem advance_errCmd {s t : State} (h : advance s = .next t) :
    t.errCmd = s.errCmd ∨ ∃ f, s.flight = some f ∧ f.commitsNow = true ∧ t.err = true ∧ t.errCmd = f.word := by
  obtain ⟨-, rfl⟩ | ⟨f, -, -, rfl⟩ | ⟨f, u, hf, hc, hu, rfl⟩ := advance_next h
  · exact .inl rfl
  · exact .inl rfl
  · obtain ⟨-, hcmd⟩ | ⟨herr, hcmd⟩ := runWord_record hu
    · exact .inl hcmd
    · exact .inr ⟨f, hf, hc, herr, hcmd⟩

/-- ERRCMD changes only by the commit of a command that faults: no host write reaches it (10_state.md R43). -/
theorem step_errCmd {s t : State} (hr : noReset s = true) (h : step s = .next t) :
    t.errCmd = s.errCmd ∨ ∃ f, s.flight = some f ∧ f.commitsNow = true ∧ t.err = true ∧ t.errCmd = f.word := by
  obtain ⟨u, hu, ha⟩ | ⟨-, addr, v, rest, -, rfl⟩ := step_runs hr h
  · rw [← hu.errCmd, ← hu.flight]
    exact advance_errCmd ha
  · exact .inl (by simp)

/-- Settles O49. -/
theorem errCmdHoldsFaultingWord : Obligations.ErrCmdHoldsFaultingWord := by
  refine ⟨fun s rest hr hh => step_read_ready hr hh rfl, fun s rest hr hh => step_read_ready hr hh rfl,
    fun s t hr h hne => (step_errCmd hr h).resolve_left hne, fun cw s t he h ht => ?_, fun _ => rfl, rfl⟩
  obtain ⟨herr, -⟩ | ⟨-, hcmd⟩ := runWord_record h
  · simp [herr, he] at ht
  · exact hcmd

/-! ## After reset -/

/-- Settles O54: each value is the field of `State.resetOf`. -/
theorem resetValues : Obligations.ResetValues :=
  ⟨rfl, rfl, rfl, rfl, rfl, rfl, rfl, rfl, rfl, Memory.read_nil⟩

end Sys2Proof.Machine
end

section
/-! Proofs. Who reads RES (10_state.md R36): the body of every other command is the same whatever RES holds, and so are
the 32-bit forms of ADDTOC and SUBFROMB for the same RES[31:0]. -/

namespace Sys2Proof.Machine

/-! ## RES in the frame of a command -/

/-- A body that raises no fault of its own: it commits, or reads an operand word without a value. -/
def Faultless (b : Except Stop State) : Prop := ∀ k, b ≠ .error (.cause k)

theorem faultless_ok (s : State) : Faultless (.ok s) := fun _ h => by cases h

theorem faultless_unwritten (j : Nat) : Faultless (.error (.unwritten j)) := fun _ h => by cases h

/-- With the region checks passed and no fault to record, the outcome is the body's. -/
theorem command_setRes_inside {i : Instr} {s : State} {b : Except Stop State} (r : DWord) (hR : RegionsInside i s)
    (hb : Faultless b) : command i (setRes r s) b = command i s b := by
  rw [command_inside hR, command_inside (s := setRes r s) hR]
  match b, hb with
  | .ok _, _ => rfl
  | .error (.cause k), hb => exact absurd rfl (hb k)
  | .error (.unwritten _), _ => rfl

/-- A body that carries RES along gives an outcome that carries it along. -/
theorem command_setRes_map {i : Instr} {s : State} {b b' : Except Stop State} (r : DWord)
    (h : b' = b.map (setRes r)) : command i (setRes r s) b' = mapNext (setRes r) (command i s b) := by
  subst h
  unfold command
  rw [chkAll_congr (s := s) (s' := setRes r s) rfl]
  cases chkAll s (namedRegions i) with
  | error e => cases e <;> rfl
  | ok _ => rcases b with (_ | _) | _ <;> rfl

theorem withOne_setRes {s : State} {x : Region} {k k' : Nat → Except Stop State} (r : DWord)
    (h : ∀ v, k' v = (k v).map (setRes r)) : withOne (setRes r s) x k' = (withOne s x k).map (setRes r) := by
  unfold withOne
  rw [setRes_lm]
  cases memRead s.lm x with
  | error e => rfl
  | ok v => exact h v

/-- With a region past the end of LM every command records ADDR_RANGE (60_exceptions.md R233). -/
theorem exec_outside {i : Instr} {s : State} (h : ¬ RegionsInside i s) :
    exec i s = .next (takeFault causeAddrRange (encode i) s) := by
  cases i <;> exact command_outside h

/-! ## RES in the commands -/

/-- A command that writes RES and does not read it gives the same outcome, RES included, whatever RES holds. -/
theorem exec_setRes_of_writesRes {i : Instr} {s : State} (r : DWord) (hw : writesRes i = true)
    (hn : readsRes i = false) (hR : RegionsInside i s) : exec i (setRes r s) = exec i s := by
  have hu := faultless_unwritten
  cases i with
  | add | addto | sub | subfrom | addeach | diff | eq | gte =>
    exact command_setRes_inside r hR (withTwo_of hu fun _ _ => faultless_ok _)
  | addboth | subboth | muladd => exact command_setRes_inside r hR (withThree_of hu fun _ _ _ => faultless_ok _)
  | iszero | isone | getbit => exact command_setRes_inside r hR (withOne_of hu fun _ => faultless_ok _)
  | addtoc | subfromb => cases hn
  | clr | clrx | mul | sqr | tobi | frombi => cases hw

theorem frombiCommit_setRes (w : View) (c : Nat) (hdr : Word) (ws : List Word) (r : DWord) (s : State) :
    frombiCommit w c hdr ws (setRes r s) = (frombiCommit w c hdr ws s).map (setRes r) := by
  unfold frombiCommit
  dsimp only
  split_ifs <;> rfl

/-- A command that does not write RES carries it along. -/
theorem exec_setRes_of_not_writesRes {i : Instr} (r : DWord) (s : State) (hw : writesRes i = false) :
    exec i (setRes r s) = mapNext (setRes r) (exec i s) := by
  cases i with
  | clr | clrx => exact command_setRes_map r rfl
  | sqr | tobi => exact command_setRes_map r (withOne_setRes r fun _ => rfl)
  | mul => exact command_setRes_map r (withOne_setRes r fun _ => withOne_setRes r fun _ => rfl)
  | frombi w a c =>
    refine command_setRes_map r ?_
    rw [setRes_lm]
    cases readWord s.lm (ea w a) with
    | error e => rfl
    | ok hdr =>
      have hchk : chk (setRes r s) (frombiImage w a hdr) = chk s (frombiImage w a hdr) := rfl
      dsimp only
      rw [hchk]
      cases chk s (frombiImage w a hdr) with
      | error e => rfl
      | ok _ =>
        cases readWords s.lm (ea w a + 1) (biWords (biBytes hdr)) with
        | error e => rfl
        | ok ws => exact frombiCommit_setRes w c hdr ws r s
  | _ => cases hw

/-- Two runs of a command that does not read RES agree but for RES. -/
theorem exec_setRes_forget {i : Instr} (r : DWord) (s : State) (hn : readsRes i = false) :
    mapNext (setRes 0) (exec i (setRes r s)) = mapNext (setRes 0) (exec i s) := by
  cases hw : writesRes i with
  | false =>
    rw [exec_setRes_of_not_writesRes r s hw]
    cases exec i s <;> rfl
  | true =>
    by_cases hR : RegionsInside i s
    · rw [exec_setRes_of_writesRes r hw hn hR]
    · rw [exec_outside hR, exec_outside (s := setRes r s) hR]
      rfl

/-! ## The 32-bit forms of ADDTOC and SUBFROMB -/

/-- What a command reads of RES in the 32-bit view is its low half. -/
theorem extractLsb'_eq_of_mod {x y : DWord} (h : x.toNat % 2 ^ 32 = y.toNat % 2 ^ 32) :
    x.extractLsb' 0 32 = y.extractLsb' 0 32 :=
  BitVec.eq_of_toNat_eq (by simpa using h)

theorem execAddtoc_setRes {a c : Nat} {s : State} {r : DWord} (h : r.extractLsb' 0 32 = s.res.extractLsb' 0 32)
    (hR : RegionsInside (.addtoc .w32 a c) s) :
    execAddtoc .w32 a c (setRes r s) = execAddtoc .w32 a c s := by
  have hc : carryIn .w32 r = carryIn .w32 s.res := congrArg BitVec.toNat h
  rw [execAddtoc, setRes_res, hc]
  exact command_setRes_inside r hR (withTwo_of faultless_unwritten fun _ _ => faultless_ok _)

theorem execSubfromb_setRes {a c : Nat} {s : State} {r : DWord} (h : r.extractLsb' 0 32 = s.res.extractLsb' 0 32)
    (hR : RegionsInside (.subfromb .w32 a c) s) :
    execSubfromb .w32 a c (setRes r s) = execSubfromb .w32 a c s := by
  have hb : borrowIn .w32 r = borrowIn .w32 s.res := congrArg BitVec.toInt h
  rw [execSubfromb, setRes_res, hb]
  exact command_setRes_inside r hR (withTwo_of faultless_unwritten fun _ _ => faultless_ok _)

/-- Settles O42: a command that does not read RES either carries it along or overwrites it, and the 32-bit carry-in and
borrow-in are read from the low half. -/
theorem onlyCarryInCommandsReadRes : Obligations.OnlyCarryInCommandsReadRes := by
  refine ⟨fun i s r hn => ⟨exec_setRes_forget r s hn, fun t t' ht ht' hw hR => ?_⟩, fun a c s r h hR => ?_⟩
  · have hsame : exec i { s with res := r } = exec i s := exec_setRes_of_writesRes r hw hn hR
    rw [hsame, ht] at ht'
    cases ht'
    rfl
  · have hlow := extractLsb'_eq_of_mod h
    exact ⟨execAddtoc_setRes hlow hR, execSubfromb_setRes hlow hR⟩

end Sys2Proof.Machine
end

section
/-! Proofs. The scratchpad and its window (20_memory.md R61 to R79): what a command leaves of LM and of the registers, what
a transfer to the LM window or to a reserved offset does, and that an edge with nothing to do leaves the block as it is. -/

namespace Sys2Proof.Machine

/-! ## What a command leaves -/

/-- A run of writes leaves every word that it does not reach. -/
theorem Memory.Writes.read_outside {P : Nat → Prop} {m m' : Memory} (h : Memory.Writes P m m') {j : Nat} (hj : ¬ P j) :
    Memory.read m' j = Memory.read m j := by
  refine h.preserves (I := fun m₁ => Memory.read m₁ j = Memory.read m j) (fun m₁ a v ha hm => ?_) rfl
  have hja : j ≠ a := fun h => hj (h ▸ ha)
  rw [Memory.read_write_other m₁ a j v hja, hm]

theorem Commits.sameOutside {i : Instr} {s t : State} (h : Commits i s t) : SameOutside (destRegions i) s.lm t.lm :=
  fun _ hj => h.lm.read_outside fun ⟨r, hr, hin⟩ => hj r hr hin

/-- A commit changes no field but LM and RES. -/
theorem Commits.onlyLmRes {i : Instr} {s t : State} (h : Commits i s t) : OnlyLmRes s t :=
  (congrArg (fun u : State => { u with lm := s.lm, res := s.res }) h.frame :)

/-- Settles O43: a command either commits or records a fault. -/
theorem commandsChangeOnlyTheirTargets : Obligations.CommandsChangeOnlyTheirTargets := by
  intro i s t h
  obtain ⟨-, hc⟩ | ⟨k, -, rfl⟩ := exec_executes h
  · refine ⟨hc.sameOutside, hc.res, ?_⟩
    exact congrArg (fun u : State => { u with err := s.err, cause := s.cause, errCmd := s.errCmd }) hc.onlyLmRes
  · exact ⟨fun _ _ => rfl, fun _ => rfl, rfl⟩

/-! ## The LM window -/

theorem busRead_lm {s : State} {addr : BitVec 14} {i : Nat} {v : Word} (hp : portOf s.lmWords addr = .lm i)
    (hv : Memory.read s.lm i = some v) : busRead addr s = .ok v := by
  simp only [busRead, hp, hv]

theorem busWrite_lm {s : State} {addr : BitVec 14} {i : Nat} (v : Word) (hp : portOf s.lmWords addr = .lm i) :
    busWrite addr v s = { s with lm := Memory.write s.lm i v } := by
  rw [busWrite, hp]

/-- A write to the LM window completes with that word written. -/
theorem step_write_lm {s : State} {addr : BitVec 14} {i : Nat} {v : Word} {rest : List HostEvent} (hr : Ready s)
    (hh : s.host = .transfer (.write addr v) :: rest) (hp : portOf s.lmWords addr = .lm i) :
    step s = .next { s with lm := Memory.write s.lm i v, host := rest, phase := .running, hReady := true } := by
  have hw : busWrite addr v { s with host := rest, phase := .running } =
      { s with lm := Memory.write s.lm i v, host := rest, phase := .running } := busWrite_lm v hp
  rw [step_write_ready hr hh, hw]
  rfl

/-- Settles O51: the port of the offset is the LM word. -/
theorem lmWindowReadsAndWrites : Obligations.LmWindowReadsAndWrites := by
  refine ⟨fun s i v rest hr hn hi hh hv => ?_, fun s i v rest hr hn hi hh => ?_⟩
  · exact step_read_ready hr hh (busRead_lm (portOf_lm hn hi) hv)
  · exact ⟨_, step_write_lm hr hh (portOf_lm hn hi), Memory.read_write_same s.lm i v,
      fun j hj => Memory.read_write_other s.lm i j v hj, rfl⟩

/-! ## Reserved offsets and read-only registers -/

/-- The ports at which a write has no effect (20_memory.md R71, R73). -/
def Port.IgnoresWrites : Port → Prop
  | .id | .errCmdLo | .errCmdHi | .reserved => True
  | .cmdLo | .cmdHi | .status | .resLo | .resHi | .lm _ => False

theorem busWrite_of_ignoresWrites {s : State} {addr : BitVec 14} (v : Word)
    (hp : (portOf s.lmWords addr).IgnoresWrites) : busWrite addr v s = s := by
  unfold busWrite
  cases h : portOf s.lmWords addr with
  | id | errCmdLo | errCmdHi | reserved => rfl
  | _ => simp [h, Port.IgnoresWrites] at hp

theorem busRead_reserved {s : State} {addr : BitVec 14} (hp : portOf s.lmWords addr = .reserved) :
    busRead addr s = .ok 0 := by
  rw [busRead, hp]

/-- ID, the halves of ERRCMD and the reserved offsets are where a write has no effect. -/
theorem portOf_ignoresWrites {n off : Nat} (h : (0x0C ≤ off ∧ off < 0x10) ∨ (0x18 ≤ off ∧ off < 0x4000) ∨
    (0x4000 + 4 * n ≤ off ∧ off < 0x10000)) : (portOf n (BitVec.ofNat 14 (off / 4))).IgnoresWrites := by
  by_cases hres : (0x20 ≤ off ∧ off < 0x4000) ∨ (0x4000 + 4 * n ≤ off ∧ off < 0x10000)
  · rw [portOf_reserved hres]
    trivial
  · have hreg : off / 4 = 3 ∨ off / 4 = 6 ∨ off / 4 = 7 := by omega
    obtain hw | hw | hw := hreg <;> rw [hw] <;> trivial

/-- A write to such a port completes and changes only the reset phase, `h_ready` and the stimulus. -/
theorem step_write_ignored {s : State} {addr : BitVec 14} {v : Word} {rest : List HostEvent} (hr : Ready s)
    (hh : s.host = .transfer (.write addr v) :: rest) (hp : (portOf s.lmWords addr).IgnoresWrites) :
    step s = .next { s with host := rest, phase := .running, hReady := true } := by
  have hw : busWrite addr v { s with host := rest, phase := .running } =
      { s with host := rest, phase := .running } := busWrite_of_ignoresWrites v hp
  rw [step_write_ready hr hh, hw]
  rfl

/-- Settles O52. -/
theorem reservedOffsetsReadZeroAndIgnoreWrites : Obligations.ReservedOffsetsReadZeroAndIgnoreWrites := by
  refine ⟨fun s off rest hr _ hoff hh => ?_, fun s off v rest hr _ hoff hh => ?_⟩
  · exact step_read_ready hr hh (busRead_reserved (portOf_reserved hoff))
  · exact ⟨_, step_write_ignored hr hh (portOf_ignoresWrites hoff), rfl⟩

/-! ## An edge with nothing to do -/

/-- A bus cycle changes no register and no LM word. -/
theorem BusCycle.frame {s u : State} (h : BusCycle s u) :
    { u with host := s.host, phase := s.phase, hReady := s.hReady, hRdata := s.hRdata } = s :=
  congrArg (fun w : State => { w with host := s.host, phase := s.phase, hReady := s.hReady, hRdata := s.hRdata }) h.2

/-- Settles O60: without a reset or a write the edge is a bus cycle, and no command advances after it. -/
theorem nothingChangesByItself : Obligations.NothingChangesByItself := by
  intro s t hf hr hw h
  obtain ⟨u, hu, ha⟩ | ⟨-, addr, v, rest, hh, -⟩ := step_runs hr h
  · rw [advance_none (hu.flight.trans hf)] at ha
    cases ha
    exact hu.frame
  · exact absurd hh (hw addr v rest)

end Sys2Proof.Machine
end

section
/-! Proofs. The command word (30_encoding.md R90 to R109): decoding and encoding undo each other, OP alone decides
whether a word is illegal, and each row of the opcode table is the decoder's checks for one command as a mask. -/

namespace Sys2Proof

/-! ## The fields of a command -/

theorem viewOf_viewBit (w : View) : viewOf (viewBit w) = w := by cases w <;> rfl

/-- An address field loses nothing in its 12 bits (R94). -/
theorem toNat_ofNat_of_fieldOk {f : Nat} (h : FieldOk f) : (BitVec.ofNat 12 f).toNat = f := by
  rw [BitVec.toNat_ofNat, Nat.mod_eq_of_lt (by omega)]

/-- GETBIT's index loses nothing in its signed 20 bits (R95). -/
theorem toInt_ofInt_of_indexOk {n : Int} (h : IndexOk n) : (BitVec.ofInt 20 n).toInt = n :=
  BitVec.toInt_ofInt_eq_self (by decide) (by omega) (by omega)

theorem fieldOk_toNat (f : BitVec 12) : FieldOk f.toNat := by omega

theorem indexOk_toInt (n : BitVec 20) : IndexOk n.toInt := by
  have hlo := n.le_toInt
  have hhi := n.toInt_lt
  exact ⟨by omega, by omega⟩

/-- The fields of a well-formed command name that command with its operands, form by form of R97. -/
theorem assignedOp_encodeFields {i : Instr} (h : WellFormed i) : assignedOp (encodeFields i) = some i := by
  have hf := @toNat_ofNat_of_fieldOk
  cases i <;> simp only [assignedOp, encodeFields, opcode, BitVec.ofNat_eq_ofNat, BitVec.reduceToNat, viewOf_viewBit]
  case clr | clrx | iszero | isone => rw [hf h]
  case addto | addtoc | addeach | subfrom | subfromb | sqr | eq | gte | tobi | frombi =>
    obtain ⟨h1, h2⟩ := h
    rw [hf h1, hf h2]
  case add | addboth | sub | subboth | diff | mul | muladd =>
    obtain ⟨ha, hb, hc⟩ := h
    rw [hf ha, hf hb, hf hc]
  case getbit =>
    obtain ⟨ha, hn⟩ := h
    rw [hf ha, toInt_ofInt_of_indexOk hn]

/-- An encoding has RSV = 0 and 0 in every field its command does not use (R98). -/
theorem encodeFields_reserved (i : Instr) :
    (encodeFields i).rsv = 0 ∧ unusedZero (usedFields i) (encodeFields i) = true := by
  cases i <;> exact ⟨rfl, rfl⟩

/-- The command that OP names has that OP, and operands no wider than its fields. -/
theorem opcode_wellFormed_of_assignedOp {f : Fields} {i : Instr} (h : assignedOp f = some i) :
    opcode i = f.op ∧ WellFormed i := by
  unfold assignedOp at h
  dsimp only at h
  split at h <;> cases h
  all_goals
    rename_i hop
    refine ⟨BitVec.eq_of_toNat_eq hop.symm, ?_⟩
    simp only [WellFormed, IndexOk, fieldOk_toNat, indexOk_toInt, and_self]

/-! ## The decoder (R96) -/

theorem decode_eq_ok_iff {cw : DWord} {i : Instr} : decode cw = .ok i ↔
    assignedOp (fieldsOf cw) = some i ∧ (fieldsOf cw).rsv = 0 ∧ unusedZero (usedFields i) (fieldsOf cw) = true := by
  unfold decode
  cases assignedOp (fieldsOf cw) with
  | none => simp
  | some j =>
    dsimp only
    split_ifs with hr hu
    · exact iff_of_false (by simp) fun ⟨_, hr0, _⟩ => hr hr0
    · simp only [Except.ok.injEq, Option.some.injEq]
      constructor
      · rintro rfl
        exact ⟨rfl, not_not.1 hr, hu⟩
      · exact And.left
    · exact iff_of_false (by simp) fun ⟨hj, _, hu0⟩ => hu (Option.some.inj hj ▸ hu0)

theorem decode_eq_illegalOpcode_iff {cw : DWord} :
    decode cw = .error .illegalOpcode ↔ assignedOp (fieldsOf cw) = none := by
  unfold decode
  cases assignedOp (fieldsOf cw) with
  | none => simp
  | some j =>
    dsimp only
    split_ifs <;> simp

/-- Settles O1: the fields of the encoding pass the decoder's three checks. -/
theorem encodeThenDecode : Obligations.EncodeThenDecode := by
  intro i hw
  rw [decode_eq_ok_iff, encode, fieldsOf_wordOf]
  exact ⟨assignedOp_encodeFields hw, encodeFields_reserved i⟩

/-- Settles O2: the operands come from fields of their width, and the word has no other nonzero bit. -/
theorem decodeThenEncode : Obligations.DecodeThenEncode := by
  intro cw i h
  obtain ⟨ha, -⟩ := decode_eq_ok_iff.1 h
  exact ⟨(opcode_wellFormed_of_assignedOp ha).2, encode_of_decode h⟩

/-! ## The assigned OP values -/

/-- The fields of a word with nothing but an OP. -/
def opOnly (op : BitVec 6) : Fields := { op := op, w := 0, rsv := 0, a := 0, b := 0, c := 0, imm := 0 }

/-- Whether a word names a command depends on its OP alone (R97). -/
theorem isSome_assignedOp (f : Fields) : (assignedOp f).isSome = (assignedOp (opOnly f.op)).isSome := by
  unfold assignedOp opOnly
  dsimp only
  split <;> simp_all

theorem isSome_assignedOp_opOnly_iff (op : BitVec 6) :
    (assignedOp (opOnly op)).isSome = true ↔ ∃ r ∈ opcodeTable, r.op = op := by
  revert op; decide

/-- A word names a command exactly when its OP stands in the opcode table. -/
theorem exists_assignedOp_iff_row (f : Fields) :
    (∃ i, assignedOp f = some i) ↔ ∃ r ∈ opcodeTable, r.op = f.op := by
  rw [← isSome_assignedOp_opOnly_iff, ← isSome_assignedOp, Option.isSome_iff_exists]

/-- The OP values of R102 are those without a row in the opcode table. -/
theorem no_row_iff (op : BitVec 6) : (¬ ∃ r ∈ opcodeTable, r.op = op) ↔
    (op = 0x00 ∨ (0x03 ≤ op ∧ op ≤ 0x07) ∨ (0x0D ≤ op ∧ op ≤ 0x0F) ∨ (0x15 ≤ op ∧ op ≤ 0x17) ∨
      (0x1B ≤ op ∧ op ≤ 0x1F) ∨ (0x25 ≤ op ∧ op ≤ 0x27) ∨ (0x2A ≤ op ∧ op ≤ 0x2F) ∨ 0x30 ≤ op) := by
  revert op; decide

/-- Settles O3: a word is illegal exactly when its OP has no row. -/
theorem illegalOpcodeExactly : Obligations.IllegalOpcodeExactly := by
  intro cw
  rw [decode_eq_illegalOpcode_iff, ← no_row_iff, ← exists_assignedOp_iff_row, ← Option.isSome_iff_exists,
    Bool.not_eq_true, Option.isSome_eq_false_iff, Option.isNone_iff_eq_none]

/-! ## The rows of the opcode table -/

/-- The fields of the mask of a row: OP, RSV and the fields the command leaves unused (R97). -/
def maskFields (u : UsedFields) : Fields where
  op  := .allOnes 6
  w   := 0
  rsv := 1
  a   := if u.a then 0 else .allOnes 12
  b   := if u.b then 0 else .allOnes 12
  c   := if u.c then 0 else .allOnes 12
  imm := if u.imm then 0 else .allOnes 20

/-- Each command has a row: its OP under the mask of the bits that must be 0. -/
theorem exists_row (i : Instr) : ∃ r ∈ opcodeTable, r.op = opcode i ∧ r.base = wordOf (opOnly (opcode i)) ∧
    r.mask = wordOf (maskFields (usedFields i)) := by
  cases i <;> simp only [opcode, usedFields] <;> decide

theorem row_eq_of_op_eq : ∀ r ∈ opcodeTable, ∀ r' ∈ opcodeTable, r.op = r'.op → r = r' := by decide

/-- The fields of the bitwise and of two words are the bitwise ands of their fields. -/
theorem fieldsOf_and (x y : DWord) : fieldsOf (x &&& y) =
    { op := (fieldsOf x).op &&& (fieldsOf y).op, w := (fieldsOf x).w &&& (fieldsOf y).w,
      rsv := (fieldsOf x).rsv &&& (fieldsOf y).rsv, a := (fieldsOf x).a &&& (fieldsOf y).a,
      b := (fieldsOf x).b &&& (fieldsOf y).b, c := (fieldsOf x).c &&& (fieldsOf y).c,
      imm := (fieldsOf x).imm &&& (fieldsOf y).imm } := by
  simp only [fieldsOf, BitVec.extractLsb'_and]

theorem fieldsOf_inj {x y : DWord} : fieldsOf x = fieldsOf y ↔ x = y :=
  ⟨fun h => by rw [← wordOf_fieldsOf x, h, wordOf_fieldsOf], congrArg fieldsOf⟩

/-- A field under its part of the mask is 0 exactly when the field is used or 0. -/
theorem and_mask_eq_zero_iff {n : Nat} (u : Bool) (x : BitVec n) :
    (x &&& if u = true then 0#n else .allOnes n) = 0#n ↔ (u || x == 0#n) = true := by
  cases u <;> simp

/-- A word selects a command's row exactly when it has the command's OP and the decoder's zeros (R96, R97). -/
theorem and_mask_eq_iff (cw : DWord) (op : BitVec 6) (u : UsedFields) :
    cw &&& wordOf (maskFields u) = wordOf (opOnly op) ↔
      (fieldsOf cw).op = op ∧ (fieldsOf cw).rsv = 0 ∧ unusedZero u (fieldsOf cw) = true := by
  have hrsv (x : BitVec 1) : x &&& 1#1 = x := BitVec.and_allOnes
  rw [← fieldsOf_inj, fieldsOf_and, fieldsOf_wordOf, fieldsOf_wordOf]
  simp only [maskFields, opOnly, Fields.mk.injEq, BitVec.ofNat_eq_ofNat, and_mask_eq_zero_iff, unusedZero,
    Bool.and_eq_true, hrsv, BitVec.and_allOnes, BitVec.and_zero, true_and, and_assoc]

/-- Every mask covers OP, so a word that selects a row has the row's OP. -/
theorem op_eq_of_selects {r : OpRow} {cw : DWord} (hr : r ∈ opcodeTable) (h : r.selects cw) :
    (fieldsOf cw).op = r.op := by
  have hrow : ∀ r ∈ opcodeTable, (fieldsOf r.mask).op = .allOnes 6 ∧ (fieldsOf r.base).op = r.op := by decide
  obtain ⟨hmask, hbase⟩ := hrow r hr
  calc (fieldsOf cw).op
      = (fieldsOf (cw &&& r.mask)).op := by simp only [fieldsOf_and, hmask, BitVec.and_allOnes]
    _ = r.op := by rw [h, hbase]

/-- A word decodes to a command exactly when OP names it and the word selects its row. -/
theorem decode_eq_ok_iff_selects {cw : DWord} {i : Instr} {r : OpRow} (hr : r ∈ opcodeTable) (hop : r.op = opcode i)
    (ha : assignedOp (fieldsOf cw) = some i) : decode cw = .ok i ↔ r.selects cw := by
  obtain ⟨r', hr', hop', hbase, hmask⟩ := exists_row i
  obtain rfl := row_eq_of_op_eq r hr r' hr' (hop.trans hop'.symm)
  rw [decode_eq_ok_iff, OpRow.selects, hmask, hbase, and_mask_eq_iff]
  simp only [ha, (opcode_wellFormed_of_assignedOp ha).1, true_and]

theorem exists_selects_of_decode {cw : DWord} {i : Instr} (h : decode cw = .ok i) :
    ∃ r ∈ opcodeTable, r.selects cw ∧ r.op = opcode i := by
  obtain ⟨r, hr, hop, -⟩ := exists_row i
  obtain ⟨ha, -⟩ := decode_eq_ok_iff.1 h
  exact ⟨r, hr, (decode_eq_ok_iff_selects hr hop ha).1 h, hop⟩

theorem exists_decode_of_selects {cw : DWord} {r : OpRow} (hr : r ∈ opcodeTable) (h : r.selects cw) :
    ∃ i, decode cw = .ok i := by
  have hop := op_eq_of_selects hr h
  obtain ⟨i, ha⟩ := (exists_assignedOp_iff_row (fieldsOf cw)).2 ⟨r, hr, hop.symm⟩
  obtain ⟨hi, -⟩ := opcode_wellFormed_of_assignedOp ha
  exact ⟨i, (decode_eq_ok_iff_selects hr (hop.symm.trans hi.symm) ha).2 h⟩

/-- Settles O4: the row of a command is its check by the decoder, and OP tells the rows apart. -/
theorem decoderAgreesWithOpcodeTable : Obligations.DecoderAgreesWithOpcodeTable := by
  refine ⟨fun cw => ⟨fun ⟨i, h⟩ => ?_, fun ⟨r, hr, h⟩ => exists_decode_of_selects hr h⟩,
    fun cw i h => exists_selects_of_decode h, fun cw r hr r' hr' h h' => ?_⟩
  · obtain ⟨r, hr, hsel, -⟩ := exists_selects_of_decode h
    exact ⟨r, hr, hsel⟩
  · exact row_eq_of_op_eq r hr r' hr' ((op_eq_of_selects hr h).symm.trans (op_eq_of_selects hr' h'))

/-! ## The worked words -/

/-- Settles O5: the words of R109, read back by the round trip. -/
theorem encodingExamples : Obligations.EncodingExamples := by
  have hadd : encode (.add .w32 0 4 8) = 0x0000000800400008 := by decide
  have hgetbit : encode (.getbit .w64 3 (-1)) = 0xFFFFF00000000364 := by decide
  refine ⟨hadd, by decide, hgetbit, ?_, ?_⟩
  · rw [← hadd, encodeThenDecode _ (by simp)]
  · rw [← hgetbit, encodeThenDecode _ (by simp [IndexOk])]

end Sys2Proof
end

section
/-! Proofs. The limb view W and the pseudo-instructions (30_encoding.md R92, R107): a view moves the word addresses of a
command and nothing else, and each pseudo-instruction has the effect of the command it stands for. -/

namespace Sys2Proof.Machine

/-! ## The limb view -/

/-- The 32-bit form of a command checks the same LM words. -/
theorem namedRegions_inView32 (i : Instr) : namedRegions (inView32 i) = namedRegions i := by cases i <;> rfl

/-- A command that does not read RES runs one body in both views: the body sees W in its regions alone. -/
theorem exec_inView32_body {i : Instr} (s : State) (hn : readsRes i = false) :
    ∃ body, exec i s = command i s body ∧ exec (inView32 i) s = command (inView32 i) s body := by
  cases i with
  | addtoc | subfromb => cases hn
  | _ => exact ⟨_, rfl, rfl⟩

/-- A state without the recorded command word. -/
def forgetErrCmd (s : State) : State := { s with errCmd := 0 }

theorem next_takeFault_forgetErrCmd (k : BitVec 4) (cw cw' : DWord) (s : State) :
    mapNext forgetErrCmd (.next (takeFault k cw s)) = mapNext forgetErrCmd (.next (takeFault k cw' s)) := rfl

/-- Two commands with the same regions and the same body differ in the word that their faults record alone. -/
theorem command_forgetErrCmd {i j : Instr} {s : State} {body : Except Stop State}
    (h : namedRegions j = namedRegions i) :
    mapNext forgetErrCmd (command i s body) = mapNext forgetErrCmd (command j s body) := by
  by_cases hR : RegionsInside i s
  · have hR' : RegionsInside j s := by rwa [RegionsInside, h]
    rw [command_inside hR, command_inside hR']
    match body with
    | .ok _ => rfl
    | .error (.cause k) => exact next_takeFault_forgetErrCmd k _ _ s
    | .error (.unwritten _) => rfl
  · have hR' : ¬ RegionsInside j s := by rwa [RegionsInside, h]
    rw [command_outside hR, command_outside hR']
    exact next_takeFault_forgetErrCmd _ _ _ s

/-- Settles O35: the two forms have one body, the same regions to check, and words that only a fault shows. -/
theorem viewChangesOnlyAddresses : Obligations.ViewChangesOnlyAddresses := by
  intro i s hn
  obtain ⟨body, h, h32⟩ := exec_inView32_body s hn
  rw [h, h32]
  exact command_forgetErrCmd (namedRegions_inView32 i)

/-! ## The pseudo-instructions -/

/-- The carry out of doubling a value of n + 1 bits is its top bit. -/
theorem carryOut_double {n x : Nat} (hx : x < 2 ^ (n + 1)) :
    carryOut (n + 1) ((x : Int) + x) = if x.testBit n then 1 else 0 := by
  have hcarry : carryOut (n + 1) ((x : Int) + x) = ((x / 2 ^ n : Nat) : Int) := by
    rw [carryOut, pow_succ', ← two_mul, Int.mul_ediv_mul_of_pos _ _ two_pos]
    push_cast
    rfl
  have hbit : x / 2 ^ n < 2 := Nat.div_lt_of_lt_mul (by rwa [← pow_succ])
  rw [hcarry, Nat.testBit_eq_decide_div_mod_eq]
  interval_cases x / 2 ^ n <;> rfl

section
variable {w : View} {a b x y : Nat} {s : State} (ha : ea w a + 4 ≤ s.lmWords) (hx : memRead s.lm (nat128 w a) = .ok x)
include ha hx

theorem exec_le (hb : ea w b + 4 ≤ s.lmWords) (hy : memRead s.lm (nat128 w b) = .ok y) :
    exec (.le w a b) s = .next (setRes (boolScalar (decide (x ≤ y))) s) := by
  have hR : RegionsInside (.gte w b a) s := by simp [RegionsInside, namedRegions, nat128, ha, hb]
  exact (command_inside hR).trans (congrArg (finish _ s) (withTwo_ok hy hx))

theorem exec_dbl : exec (.dbl w a) s = .next (commitExact (nat128 w a) ((x : Int) + x) s) := by
  have hR : RegionsInside (.addto w a a) s := by simp [RegionsInside, namedRegions, nat128, ha]
  exact (command_inside hR).trans (congrArg (finish _ s) (withTwo_ok hx hx))

theorem exec_getbit (n : Int) : exec (.getbit w a n) s = .next (setRes (boolScalar (bitAt x n)) s) := by
  have hR : RegionsInside (.getbit w a n) s := by simp [RegionsInside, namedRegions, nat128, ha]
  exact (command_inside hR).trans (congrArg (finish _ s) (withOne_ok hx))

end

/-- What DBL leaves in C: twice the value, without its top bit. -/
theorem memRead_double (r : Region) (x : Nat) (s : State) :
    memRead (commitExact r ((x : Int) + x) s).lm r = .ok (2 * x % 2 ^ (32 * r.len)) := by
  rw [memRead_commitExact, ← Nat.cast_add, lowPart_natCast, ← two_mul]

/-- What DBL leaves in RES: the top bit of the value. -/
theorem commitExact_double_res {w : View} {a x : Nat} (hx : x < 2 ^ 128) (s : State) :
    (commitExact (nat128 w a) ((x : Int) + x) s).res = if x.testBit 127 then 1 else 0 := by
  have hcarry : carryOut 128 ((x : Int) + x) = if x.testBit 127 then 1 else 0 := carryOut_double hx
  calc (commitExact (nat128 w a) ((x : Int) + x) s).res
      = scalar (carryOut 128 ((x : Int) + x)) := rfl
    _ = if x.testBit 127 then 1 else 0 := by rw [hcarry]; split <;> rfl

theorem bitAt_natCast {x k : Nat} (hk : k ≤ 127) : bitAt x k = x.testBit k := by
  simp [bitAt, hk]

/-- Settles O34: each pseudo-instruction is the execution of the command it stands for. -/
theorem pseudoInstructionEffects : Obligations.PseudoInstructionEffects := by
  intro w a b s x y ha hb hx hy
  refine ⟨⟨_, exec_le ha hx hb hy, ?_, rfl⟩, ⟨_, exec_dbl ha hx, memRead_double _ x s, ?_, ?_, rfl⟩,
    ⟨_, exec_getbit ha hx 0, ?_, rfl⟩, ⟨_, exec_getbit ha hx 127, ?_, rfl⟩⟩
  · simp [boolScalar]
  · exact commitExact_double_res (memRead_lt hx) s
  · exact store_sameOutside (nat128 w a) _ s
  · exact congrArg boolScalar (bitAt_natCast (k := 0) (by omega))
  · exact congrArg boolScalar (bitAt_natCast (k := 127) (by omega))

end Sys2Proof.Machine
end

section
/-! Proofs. CLR and CLRX (40_construction.md R120, R121): one argument for both, over the region the command names. -/

namespace Sys2Proof

/-! ## The decoder on a word whose OP is assigned -/

/-- Once OP names a command, RSV and the fields it leaves unused decide between the command and RESERVED_FIELD (R96). -/
theorem decode_of_assignedOp {cw : DWord} {i : Instr} (ha : assignedOp (fieldsOf cw) = some i) :
    decode cw = if (fieldsOf cw).rsv = 0 ∧ unusedZero (usedFields i) (fieldsOf cw) = true then .ok i
      else .error .reservedField := by
  split_ifs with h
  · exact decode_eq_ok_iff.2 ⟨ha, h⟩
  · cases hd : decode cw with
    | ok j =>
      obtain ⟨hj, hz⟩ := decode_eq_ok_iff.1 hd
      obtain rfl := Option.some.inj (ha.symm.trans hj)
      exact absurd hz h
    | error e =>
      cases e with
      | reservedField => rfl
      | illegalOpcode => cases ha.symm.trans (decode_eq_illegalOpcode_iff.1 hd)

/-- A command that uses C alone wants 0 in A, B and IMM (R98). -/
theorem unusedZero_onlyC (f : Fields) : unusedZero { c := true } f = true ↔ f.a = 0 ∧ f.b = 0 ∧ f.imm = 0 := by
  simp [unusedZero, and_assoc]

/-- The OPs of CLR and CLRX (R97). -/
theorem assignedOp_zeroing {f : Fields} (h : f.op = 0x01 ∨ f.op = 0x02) :
    assignedOp f = some (if f.op = 0x01 then .clr (viewOf f.w) f.c.toNat else .clrx (viewOf f.w) f.c.toNat) := by
  obtain h | h := h <;> simp [assignedOp, h]

theorem usedFields_zeroing (p : Prop) [Decidable p] (w : View) (c : Nat) :
    usedFields (if p then .clr w c else .clrx w c) = { c := true } := by
  split <;> rfl

end Sys2Proof

namespace Sys2Proof.Machine

/-! ## Zeroing a region -/

/-- A command that names one region and stores 0 in it clears that region, or records ADDR_RANGE when the region runs past
the end of LM. -/
theorem exec_zeroing {i : Instr} {r : Region} {s : State} (hn : namedRegions i = [r])
    (he : exec i s = command i s (.ok (store r 0 s))) :
    if r.addr + r.len ≤ s.lmWords then
      ∃ t, exec i s = .next t ∧ memRead t.lm r = .ok 0 ∧ SameOutside [r] s.lm t.lm ∧ OnlyLm s t
    else exec i s = .next (takeFault causeAddrRange (encode i) s) := by
  have hR : RegionsInside i s ↔ r.inside s.lmWords := by simp [RegionsInside, hn]
  split_ifs with h
  · refine ⟨store r 0 s, ?_, ?_, store_sameOutside r 0 s, rfl⟩
    · rw [he, command_inside (hR.2 h), finish]
    · rw [memRead_store, Nat.zero_mod]
  · exact exec_outside (mt hR.1 h)

/-- Settles O10: both commands use C alone and store 0 in the one region they name. -/
theorem clrAndClrxZeroRegions : Obligations.ClrAndClrxZeroRegions := by
  refine ⟨?_, fun w c s => exec_zeroing (r := nat128 w c) rfl rfl, fun w c s => exec_zeroing (r := nat256 w c) rfl rfl⟩
  rintro cw f rfl h
  simp only [decode_of_assignedOp (assignedOp_zeroing h), usedFields_zeroing, unusedZero_onlyC]

end Sys2Proof.Machine
end

section
/-! Proofs. The adder and the subtractor (41_additive.md R130 to R145): how their words decode, when their regions are
legal, and what the commit of an exact integer result leaves in the destination region and in RES. -/

namespace Sys2Proof

/-! ## The words of the additive commands -/

/-- A command that uses A, B and C wants 0 in RSV and IMM (R93, R98). -/
theorem decode_usesABC {cw : DWord} {f : Fields} {i : Instr} (hf : f = fieldsOf cw) (ha : assignedOp f = some i)
    (hu : usedFields i = { a := true, b := true, c := true }) :
    decode cw = if f.rsv = 0 ∧ f.imm = 0 then .ok i else .error .reservedField := by
  subst hf
  simp only [decode_of_assignedOp ha, hu, unusedZero, Bool.true_or, Bool.false_or, Bool.true_and, beq_iff_eq]

/-- A command that uses A and C wants 0 in RSV, B and IMM (R93, R98). -/
theorem decode_usesAC {cw : DWord} {f : Fields} {i : Instr} (hf : f = fieldsOf cw) (ha : assignedOp f = some i)
    (hu : usedFields i = { a := true, c := true }) :
    decode cw = if f.rsv = 0 ∧ f.b = 0 ∧ f.imm = 0 then .ok i else .error .reservedField := by
  subst hf
  simp only [decode_of_assignedOp ha, hu, unusedZero, Bool.true_or, Bool.false_or, Bool.true_and, Bool.and_true,
    Bool.and_eq_true, beq_iff_eq]

end Sys2Proof

namespace Sys2Proof.Machine

/-! ## Legal regions -/

theorem regionsInside_two {i : Instr} {w : View} {a b : Nat} (s : State)
    (hn : namedRegions i = [nat128 w a, nat128 w b]) :
    RegionsInside i s ↔ ea w a + 4 ≤ s.lmWords ∧ ea w b + 4 ≤ s.lmWords := by
  simp [RegionsInside, hn, nat128]

theorem regionsInside_three {i : Instr} {w : View} {a b c : Nat} (s : State)
    (hn : namedRegions i = [nat128 w a, nat128 w b, nat128 w c]) :
    RegionsInside i s ↔ ea w a + 4 ≤ s.lmWords ∧ ea w b + 4 ≤ s.lmWords ∧ ea w c + 4 ≤ s.lmWords := by
  simp [RegionsInside, hn, nat128]

/-- The two cases of every command: its regions lie inside LM, or it records ADDR_RANGE (60_exceptions.md R233). -/
theorem exec_inside_or_fault {i : Instr} {s : State} {P Q : Prop} [Decidable P] (hP : RegionsInside i s ↔ P)
    (h : RegionsInside i s → Q) :
    if P then Q else exec i s = .next (takeFault causeAddrRange (encode i) s) := by
  split_ifs with hp
  · exact h (hP.2 hp)
  · exact exec_outside (mt hP.1 hp)

/-! ## Commands that commit for every value of their operands -/

theorem exec_withTwo {i : Instr} {s : State} {p q : Region} {x y : Nat} {k : Nat → Nat → State}
    (hR : RegionsInside i s) (he : exec i s = command i s (withTwo s p q fun x y => .ok (k x y)))
    (hx : memRead s.lm p = .ok x) (hy : memRead s.lm q = .ok y) : exec i s = .next (k x y) := by
  rw [he, command_inside hR, withTwo_ok hx hy, finish]

theorem exec_withThree {i : Instr} {s : State} {p q r : Region} {x y z : Nat} {k : Nat → Nat → Nat → State}
    (hR : RegionsInside i s) (he : exec i s = command i s (withThree s p q r fun x y z => .ok (k x y z)))
    (hx : memRead s.lm p = .ok x) (hy : memRead s.lm q = .ok y) (hz : memRead s.lm r = .ok z) :
    exec i s = .next (k x y z) := by
  rw [he, command_inside hR, withThree_ok hx hy hz, finish]

/-! ## The commit of a sum -/

/-- C holds the low 128 bits of the sum (R13). -/
theorem memRead_commitSum (w : View) (c n : Nat) (s : State) :
    memRead (commitExact (nat128 w c) n s).lm (nat128 w c) = .ok (n % 2 ^ 128) := by
  rw [memRead_commitExact, lowPart_natCast]
  rfl

/-- RES holds the carry (R14). -/
theorem commitSum_res (w : View) (c n : Nat) (s : State) :
    (commitExact (nat128 w c) n s).res = BitVec.ofNat 64 (n / 2 ^ 128) := by
  have hcarry : carryOut 128 (n : Int) = ((n / 2 ^ 128 : Nat) : Int) := rfl
  calc (commitExact (nat128 w c) n s).res
      = BitVec.ofInt 64 (carryOut 128 (n : Int)) := rfl
    _ = BitVec.ofNat 64 (n / 2 ^ 128) := by rw [hcarry, BitVec.ofInt_natCast]

/-- Every carry of the adder is far below 2^64, so that RES holds it exactly. -/
theorem commitSum_carry {n : Nat} (hn : n < 2 ^ 192) (w : View) (c : Nat) (s : State) :
    (commitExact (nat128 w c) n s).res.toNat = n / 2 ^ 128 := by
  rw [commitSum_res, BitVec.toNat_ofNat, Nat.mod_eq_of_lt (by omega)]

/-- The law of the adder: `z' + RES·2^128` is the exact sum. -/
theorem commitSum_law {n : Nat} (hn : n < 2 ^ 192) (w : View) (c : Nat) (s : State) :
    n % 2 ^ 128 + (commitExact (nat128 w c) n s).res.toNat * 2 ^ 128 = n := by
  rw [commitSum_carry hn, Nat.mod_add_div']

/-! ## The commit of a difference -/

/-- What C holds of a difference (R13), whatever its sign. -/
theorem natCast_lowPart (bits : Nat) (v : Int) : (lowPart bits v : Int) = v % 2 ^ bits :=
  Int.toNat_of_nonneg (Int.emod_nonneg v (by positivity))

/-- Every borrow of the subtractor fits RES as a signed integer. -/
theorem commitDifference_borrow {v : Int} (h1 : -2 ^ 190 ≤ v) (h2 : v < 2 ^ 190) (w : View) (c : Nat) (s : State) :
    (commitExact (nat128 w c) v s).res.toInt = v / 2 ^ 128 :=
  scalar_toInt (v := v / 2 ^ 128) (by omega) (by omega)

/-- The law of the subtractor: `z' + RES·2^128` is the exact difference. -/
theorem commitDifference_law {v : Int} (h1 : -2 ^ 190 ≤ v) (h2 : v < 2 ^ 190) (w : View) (c : Nat) (s : State) :
    (lowPart 128 v : Int) + (commitExact (nat128 w c) v s).res.toInt * 2 ^ 128 = v := by
  rw [commitDifference_borrow h1 h2]
  exact lowPart_add_carryOut 128 v

/-- The borrow of the difference of two Nat128 values (R140). -/
theorem scalar_borrow {x y : Nat} (hx : x < 2 ^ 128) (hy : y < 2 ^ 128) :
    scalar (carryOut 128 ((x : Int) - y)) = if x ≥ y then 0 else 0xFFFFFFFFFFFFFFFF := by
  unfold carryOut
  split_ifs with h
  · rw [show ((x : Int) - y) / 2 ^ 128 = 0 by omega]; rfl
  · rw [show ((x : Int) - y) / 2 ^ 128 = -1 by omega]; rfl

/-- A commit leaves every word outside its region. -/
theorem commitExact_sameOutside (r : Region) (v : Int) (s : State) : SameOutside [r] s.lm (commitExact r v s).lm :=
  store_sameOutside r _ s

/-! ## The carry-in and the borrow-in -/

/-- The carry-in is the low LW bits of RES (10_state.md R36). -/
theorem carryIn_eq (w : View) (res : DWord) : carryIn w res = res.toNat % 2 ^ limbWidth w := by
  cases w with
  | w32 => simp [carryIn, limbWidth]
  | w64 => exact (Nat.mod_eq_of_lt res.isLt).symm

/-- A two's-complement integer is the unsigned one less 2^n times its sign bit. -/
theorem toInt_eq_toNat_sub_sign {n : Nat} (v : BitVec n) :
    v.toInt = (v.toNat : Int) - 2 ^ n * (if v.getLsbD (n - 1) then 1 else 0) := by
  rw [BitVec.toInt_eq_msb_cond, BitVec.msb_eq_getLsbD_last]
  split_ifs <;> simp

/-- The borrow-in is the low LW bits of RES as a signed integer (10_state.md R36). -/
theorem borrowIn_eq (w : View) (res : DWord) : borrowIn w res =
    (res.toNat : Int) % 2 ^ limbWidth w - 2 ^ limbWidth w * (if res.getLsbD (limbWidth w - 1) then 1 else 0) := by
  cases w with
  | w32 =>
    rw [borrowIn, toInt_eq_toNat_sub_sign]
    simp [limbWidth]
  | w64 =>
    rw [borrowIn, toInt_eq_toNat_sub_sign, limbWidth, Int.emod_eq_of_lt (by omega) (by omega)]

theorem carryIn_lt (w : View) (res : DWord) : carryIn w res < 2 ^ 64 := by
  rw [carryIn_eq]
  exact (Nat.mod_le _ _).trans_lt res.isLt

theorem borrowIn_bounds (w : View) (res : DWord) : -2 ^ 63 ≤ borrowIn w res ∧ borrowIn w res < 2 ^ 63 := by
  cases w with
  | w32 =>
    have hlo := BitVec.le_toInt (res.extractLsb' 0 32)
    have hhi := BitVec.toInt_lt (x := res.extractLsb' 0 32)
    exact ⟨by rw [borrowIn]; omega, by rw [borrowIn]; omega⟩
  | w64 => exact ⟨BitVec.le_toInt res, BitVec.toInt_lt⟩

/-! ## The adder -/

/-- Settles O11: both operands are below 2^128, so the carry is 0 or 1. -/
theorem addStoresSumAndCarry : Obligations.AddStoresSumAndCarry := by
  refine ⟨fun cw f hf h => decode_usesABC hf (by simp [assignedOp, h]) rfl,
    fun w a b c s => exec_inside_or_fault (regionsInside_three s rfl) fun hR x y hx hy => ?_⟩
  have hx' : x < 2 ^ 128 := memRead_lt hx
  have hy' : y < 2 ^ 128 := memRead_lt hy
  have he : exec (.add w a b c) s = .next (commitExact (nat128 w c) ((x + y : Nat) : Int) s) :=
    exec_withTwo hR rfl hx hy
  have hcarry := commitSum_carry (n := x + y) (by omega) w c s
  refine ⟨_, _, he, memRead_commitSum w c _ s, rfl, commitSum_res w c _ s, commitSum_law (by omega) w c s, ?_,
    commitExact_sameOutside _ _ s, rfl⟩
  rw [← BitVec.toNat_inj, hcarry, show (1 : DWord).toNat = 1 from rfl]
  omega

/-- Settles O12: the accumulator is read before it is written, and RES is not read. -/
theorem addtoAccumulatesWithCarry : Obligations.AddtoAccumulatesWithCarry := by
  refine ⟨fun cw f hf h => decode_usesAC hf (by simp [assignedOp, h]) rfl,
    fun w a c s => exec_inside_or_fault (regionsInside_two s rfl) fun hR x z hx hz => ?_⟩
  have hx' : x < 2 ^ 128 := memRead_lt hx
  have hz' : z < 2 ^ 128 := memRead_lt hz
  have he : exec (.addto w a c) s = .next (commitExact (nat128 w c) ((x + z : Nat) : Int) s) :=
    exec_withTwo hR rfl hx hz
  have hcarry := commitSum_carry (n := x + z) (by omega) w c s
  exact ⟨_, _, he, memRead_commitSum w c _ s, rfl, commitSum_res w c _ s, commitSum_law (by omega) w c s,
    by omega, commitExact_sameOutside _ _ s, rfl⟩

/-- Settles O13: the carry-in adds less than 2^64, so the carry stays at most 2. -/
theorem addtocAddsCarryInFromRes : Obligations.AddtocAddsCarryInFromRes := by
  refine ⟨fun cw f hf h => decode_usesAC hf (by simp [assignedOp, h]) rfl,
    fun w a c s => exec_inside_or_fault (regionsInside_two s rfl) fun hR x z cin hx hz hcin => ?_⟩
  have hx' : x < 2 ^ 128 := memRead_lt hx
  have hz' : z < 2 ^ 128 := memRead_lt hz
  obtain rfl : cin = carryIn w s.res := hcin.trans (carryIn_eq w s.res).symm
  have hc' := carryIn_lt w s.res
  have he : exec (.addtoc w a c) s = .next (commitExact (nat128 w c) ((x + z + carryIn w s.res : Nat) : Int) s) :=
    exec_withTwo hR rfl hx hz
  have hcarry := commitSum_carry (n := x + z + carryIn w s.res) (by omega) w c s
  exact ⟨_, _, he, memRead_commitSum w c _ s, rfl, commitSum_res w c _ s, commitSum_law (by omega) w c s,
    by omega, fun _ => by omega, commitExact_sameOutside _ _ s, rfl⟩

/-- Settles O14: three operands below 2^128 carry at most 2. -/
theorem addbothFusesThreeOperands : Obligations.AddbothFusesThreeOperands := by
  refine ⟨fun cw f hf h => decode_usesABC hf (by simp [assignedOp, h]) rfl,
    fun w a b c s => exec_inside_or_fault (regionsInside_three s rfl) fun hR x y z hx hy hz => ?_⟩
  have hx' : x < 2 ^ 128 := memRead_lt hx
  have hy' : y < 2 ^ 128 := memRead_lt hy
  have hz' : z < 2 ^ 128 := memRead_lt hz
  have he : exec (.addboth w a b c) s = .next (commitExact (nat128 w c) ((x + y + z : Nat) : Int) s) :=
    exec_withThree hR rfl hx hy hz
  have hcarry := commitSum_carry (n := x + y + z) (by omega) w c s
  exact ⟨_, _, he, memRead_commitSum w c _ s, rfl, commitSum_res w c _ s, commitSum_law (by omega) w c s,
    by omega, commitExact_sameOutside _ _ s, rfl⟩

/-- A word of a stored sum that the later commit of C does not reach. -/
theorem read_store_commitExact (w : View) (a c n k : Nat) (v : Int) (s : State) (hk : k < 4)
    (hout : ¬ (ea w c ≤ ea w a + k ∧ ea w a + k < ea w c + 4)) :
    Memory.read (commitExact (nat128 w c) v (store (nat128 w a) n s)).lm (ea w a + k) =
      some (BitVec.ofNat 32 (n / 2 ^ (32 * k))) :=
  calc Memory.read (commitExact (nat128 w c) v (store (nat128 w a) n s)).lm (ea w a + k)
      = Memory.read (store (nat128 w a) n s).lm (ea w a + k) := Memory.read_writeWords_outside _ _ _ _ _ hout
    _ = some (BitVec.ofNat 32 (n / 2 ^ (32 * k))) := Memory.read_writeWords_inside _ _ _ _ _ hk

/-- Settles O15: the commit of C comes after the store of A, so A's words stand where C does not reach. -/
theorem addeachWritesBothSums : Obligations.AddeachWritesBothSums := by
  refine ⟨fun cw f hf h => decode_usesAC hf (by simp [assignedOp, h]) rfl,
    fun w a c s => exec_inside_or_fault (regionsInside_two s rfl) fun hR u v hu hv => ?_⟩
  have hu' : u < 2 ^ 128 := memRead_lt hu
  have hv' : v < 2 ^ 128 := memRead_lt hv
  have he : exec (.addeach w a c) s = .next (commitExact (nat128 w c) ((u + v : Nat) : Int)
      (store (nat128 w a) (lowPart 128 ((u + v : Nat) : Int)) s)) := exec_withTwo hR rfl hu hv
  rw [lowPart_natCast] at he
  have hcarry := commitSum_carry (n := u + v) (by omega) w c (store (nat128 w a) ((u + v) % 2 ^ 128) s)
  exact ⟨_, he, memRead_commitSum w c _ _, fun k hk hout => read_store_commitExact w a c _ k _ s hk hout,
    commitSum_res w c _ _, by omega, (commandsChangeOnlyTheirTargets _ _ _ he).1, rfl⟩

/-! ## The subtractor -/

/-- Settles O16: the floor quotient of the difference is 0 or -1. -/
theorem subStoresDifferenceAndBorrow : Obligations.SubStoresDifferenceAndBorrow := by
  refine ⟨fun cw f hf h => decode_usesABC hf (by simp [assignedOp, h]) rfl,
    fun w a b c s => exec_inside_or_fault (regionsInside_three s rfl) fun hR x y hx hy => ?_⟩
  have hx' : x < 2 ^ 128 := memRead_lt hx
  have hy' : y < 2 ^ 128 := memRead_lt hy
  exact ⟨_, _, exec_withTwo hR rfl hx hy, memRead_commitExact (nat128 w c) _ s, natCast_lowPart 128 _,
    scalar_borrow hx' hy', commitDifference_law (by omega) (by omega) w c s, commitExact_sameOutside _ _ s, rfl⟩

/-- Settles O17: as SUB, with the accumulator as the minuend, and RES is not read. -/
theorem subfromStoresDifferenceAndBorrow : Obligations.SubfromStoresDifferenceAndBorrow := by
  refine ⟨fun cw f hf h => decode_usesAC hf (by simp [assignedOp, h]) rfl,
    fun w a c s => exec_inside_or_fault (regionsInside_two s rfl) fun hR x z hx hz => ?_⟩
  have hx' : x < 2 ^ 128 := memRead_lt hx
  have hz' : z < 2 ^ 128 := memRead_lt hz
  exact ⟨_, _, exec_withTwo hR rfl hx hz, memRead_commitExact (nat128 w c) _ s, natCast_lowPart 128 _,
    scalar_borrow hz' hx', commitDifference_law (by omega) (by omega) w c s, commitExact_sameOutside _ _ s, rfl⟩

/-- Settles O18: the borrow-in is below 2^63 in size, so the floor quotient stays between -2 and 1. -/
theorem subfrombAddsBorrowInFromRes : Obligations.SubfrombAddsBorrowInFromRes := by
  refine ⟨fun cw f hf h => decode_usesAC hf (by simp [assignedOp, h]) rfl,
    fun w a c s => exec_inside_or_fault (regionsInside_two s rfl) fun hR x z lw bin hx hz hlw hbin => ?_⟩
  have hx' : x < 2 ^ 128 := memRead_lt hx
  have hz' : z < 2 ^ 128 := memRead_lt hz
  obtain rfl : lw = limbWidth w := hlw
  obtain rfl : bin = borrowIn w s.res := hbin.trans (borrowIn_eq w s.res).symm
  obtain ⟨hlo, hhi⟩ := borrowIn_bounds w s.res
  have hborrow := commitDifference_borrow (v := (z : Int) - x + borrowIn w s.res) (by omega) (by omega) w c s
  exact ⟨_, _, exec_withTwo hR rfl hx hz, memRead_commitExact (nat128 w c) _ s, natCast_lowPart 128 _, rfl,
    commitDifference_law (by omega) (by omega) w c s, by omega, by omega, fun _ _ => by omega,
    commitExact_sameOutside _ _ s, rfl⟩

/-- Settles O19: the floor quotient of the difference is 0, -1 or -2. -/
theorem subbothFusesThreeOperands : Obligations.SubbothFusesThreeOperands := by
  refine ⟨fun cw f hf h => decode_usesABC hf (by simp [assignedOp, h]) rfl,
    fun w a b c s => exec_inside_or_fault (regionsInside_three s rfl) fun hR x y z hx hy hz => ?_⟩
  have hx' : x < 2 ^ 128 := memRead_lt hx
  have hy' : y < 2 ^ 128 := memRead_lt hy
  have hz' : z < 2 ^ 128 := memRead_lt hz
  have hborrow := commitDifference_borrow (v := (z : Int) - x - y) (by omega) (by omega) w c s
  exact ⟨_, _, exec_withThree hR rfl hx hy hz, memRead_commitExact (nat128 w c) _ s, natCast_lowPart 128 _, rfl,
    commitDifference_law (by omega) (by omega) w c s, by omega, by omega, commitExact_sameOutside _ _ s, rfl⟩

/-- The greater less the smaller is the distance (R145). -/
theorem natCast_distance (x y : Nat) : (((if x ≥ y then x - y else y - x : Nat)) : Int) = |(x : Int) - y| := by
  split_ifs with h
  · rw [Nat.cast_sub h, abs_of_nonneg (by omega)]
  · rw [Nat.cast_sub (by omega), abs_of_neg (by omega)]
    omega

/-- Settles O20: the distance of two Nat128 values fits the region, so nothing of it is lost. -/
theorem diffStoresDistanceAndFlag : Obligations.DiffStoresDistanceAndFlag := by
  refine ⟨fun cw f hf h => decode_usesABC hf (by simp [assignedOp, h]) rfl,
    fun w a b c s => exec_inside_or_fault (regionsInside_three s rfl) fun hR x y hx hy => ?_⟩
  have hx' : x < 2 ^ 128 := memRead_lt hx
  have hy' : y < 2 ^ 128 := memRead_lt hy
  have hfit : (if x ≥ y then x - y else y - x) % 2 ^ 128 = if x ≥ y then x - y else y - x :=
    Nat.mod_eq_of_lt (by split_ifs <;> omega)
  refine ⟨_, _, exec_withTwo hR rfl hx hy, memRead_store (nat128 w c) _ s, ?_, ?_,
    store_sameOutside (nat128 w c) _ s, rfl⟩
  · exact (congrArg Nat.cast hfit).trans (natCast_distance x y)
  · simp [boolScalar]

end Sys2Proof.Machine
end

section
/-! Proofs. The 256-bit chains (41_additive.md R139, R146): the low halves by the command without a carry-in, the high
halves by the command that takes the carry or borrow from RES, each from the statement of its command. -/

namespace Sys2Proof.Machine

/-- A region that a command's writes do not overlap keeps its value. -/
theorem SameOutside.memRead_eq {r r' : Region} {m m' : Memory} (h : SameOutside [r] m m')
    (hd : r.addr + r.len ≤ r'.addr ∨ r'.addr + r'.len ≤ r.addr) : memRead m' r' = memRead m r' :=
  memRead_congr fun j hj => h j fun q hq => by
    obtain rfl := List.mem_singleton.1 hq
    omega

theorem OnlyLmRes.lmWords_eq {s t : State} (h : OnlyLmRes s t) : t.lmWords = s.lmWords :=
  (congrArg State.lmWords h :)

/-- The carry of ADD, 0 or 1, is the carry-in of ADDTOC in both views. -/
theorem carryIn_of_carry (w : View) {res : DWord} (h : res.toNat ≤ 1) : carryIn w res = res.toNat := by
  have hfits : 1 < 2 ^ limbWidth w := by cases w <;> decide
  rw [carryIn_eq, Nat.mod_eq_of_lt (h.trans_lt hfits)]

/-- Settles O32: the two laws add up, the first carry being the carry-in of the second. -/
theorem addChainsTo256Bits : Obligations.AddChainsTo256Bits := by
  intro w x0 y0 z0 x1 z1 s vx0 vy0 vx1 vy1 hx0 hy0 hz0 hx1 hz1 hdx hdz rx0 ry0 rx1 ry1
  have low := addStoresSumAndCarry.2 w x0 y0 z0 s
  rw [if_pos ⟨hx0, hy0, hz0⟩] at low
  obtain ⟨t, r0, ht, hr0, hv0, -, hlaw0, -, hout, honly⟩ := low vx0 vy0 rx0 ry0
  have hx0' : vx0 < 2 ^ 128 := memRead_lt rx0
  have hy0' : vy0 < 2 ^ 128 := memRead_lt ry0
  have hcarry : t.res.toNat ≤ 1 := by omega
  have hcin := (carryIn_of_carry w hcarry).symm.trans (carryIn_eq w t.res)
  have high := addtocAddsCarryInFromRes.2 w x1 z1 t
  rw [honly.lmWords_eq, if_pos ⟨hx1, hz1⟩] at high
  obtain ⟨u, r1, hu, hr1, -, -, hlaw1, -, hle, hout', -⟩ :=
    high vx1 vy1 t.res.toNat ((hout.memRead_eq hdx).trans rx1) ((hout.memRead_eq hdz).trans ry1) hcin
  exact ⟨t, u, r0, r1, ht, hu, (hout'.memRead_eq hdz.symm).trans hr0, hr1, by omega, hle hcarry⟩

/-- The borrow of SUB, 0 or all ones, is the borrow-in of SUBFROMB in both views. -/
theorem borrowIn_of_borrow (w : View) {p : Prop} [Decidable p] {res : DWord}
    (h : res = if p then 0 else 0xFFFFFFFFFFFFFFFF) : borrowIn w res = res.toInt := by
  subst h
  split_ifs <;> cases w <;> decide

/-- Settles O33: the two laws add up, the first borrow being the borrow-in of the second. -/
theorem subChainsTo256Bits : Obligations.SubChainsTo256Bits := by
  intro w x0 y0 z0 y1 z1 s vx0 vy0 vx1 vy1 hx0 hy0 hz0 hy1 hz1 hdy hdz rx0 ry0 ry1 rx1
  have low := subStoresDifferenceAndBorrow.2 w x0 y0 z0 s
  rw [if_pos ⟨hx0, hy0, hz0⟩] at low
  obtain ⟨t, r0, ht, hr0, -, hres, hlaw0, hout, honly⟩ := low vx0 vy0 rx0 ry0
  have hbin := (borrowIn_of_borrow w hres).symm.trans (borrowIn_eq w t.res)
  have hborrow : t.res.toInt = if vx0 ≥ vy0 then 0 else -1 := by rw [hres]; split_ifs <;> rfl
  have high := subfrombAddsBorrowInFromRes.2 w y1 z1 t
  rw [honly.lmWords_eq, if_pos ⟨hy1, hz1⟩] at high
  obtain ⟨u, r1, hu, hr1, -, -, hlaw1, -, -, hle, hout', -⟩ :=
    high vy1 vx1 _ t.res.toInt ((hout.memRead_eq hdy).trans ry1) ((hout.memRead_eq hdz).trans rx1) rfl hbin
  obtain ⟨hlo, hhi⟩ := hle (by omega) (by omega)
  exact ⟨t, u, r0, r1, ht, hu, (hout'.memRead_eq hdz.symm).trans hr0, hr1, by omega, by omega⟩

end Sys2Proof.Machine
end

section
/-! Proofs. Ripple carry and ripple borrow (41_additive.md R131, R144): whatever integers stand in the columns, the limbs
and the carry out that the accumulator leaves are those of the columns' exact value. -/

namespace Sys2Proof.Machine

/-! ## The limbs of an exact result -/

/-- The low limb of a result is the low part of that width. -/
theorem lowPart_mod (width bits : Nat) (v : Int) : lowPart (width + bits) v % 2 ^ width = lowPart width v := by
  zify
  rw [natCast_lowPart, natCast_lowPart]
  exact Int.emod_emod_of_dvd v (pow_dvd_pow 2 (Nat.le_add_right width bits))

/-- The other limbs of a result are those of its floor quotient. -/
theorem lowPart_div (width bits : Nat) (v : Int) :
    lowPart (width + bits) v / 2 ^ width = lowPart bits (v / 2 ^ width) := by
  have hpos : (2 : Int) ^ width ≠ 0 := by positivity
  zify
  rw [natCast_lowPart, natCast_lowPart, pow_add, Int.emod_def, Int.mul_assoc, Int.sub_mul_ediv_left _ _ hpos,
    Int.emod_def, Int.ediv_ediv_of_nonneg (by positivity)]

theorem limbsOf_lowPart_succ (width n : Nat) (v : Int) :
    limbsOf width (n + 1) (lowPart (width * (n + 1)) v) =
      lowPart width v :: limbsOf width n (lowPart (width * n) (v / 2 ^ width)) := by
  rw [limbsOf, Nat.mul_succ, Nat.add_comm, lowPart_mod, lowPart_div]

/-- The limbs of a value that fits them make up the value (R11). -/
theorem ofLimbs_limbsOf {width n v : Nat} (hv : v < 2 ^ (width * n)) : ofLimbs width (limbsOf width n v) = v := by
  induction n generalizing v with
  | zero => rw [Nat.mul_zero] at hv; simp only [limbsOf, ofLimbs]; omega
  | succ n ih =>
    rw [Nat.mul_succ, Nat.add_comm, pow_add] at hv
    rw [limbsOf, ofLimbs, ih (Nat.div_lt_of_lt_mul hv), Nat.mod_add_div]

/-- A value's limbs are its low limb and the limbs of its quotient, as integers. -/
theorem natCast_ofLimbs_limbsOf_succ (width n v : Nat) : (ofLimbs width (limbsOf width (n + 1) v) : Int) =
    (v % 2 ^ width : Nat) + 2 ^ width * ofLimbs width (limbsOf width n (v / 2 ^ width)) := by
  rw [limbsOf, ofLimbs]
  push_cast
  rfl

/-! ## Columns -/

/-- `ds` are `n` columns of `width` bits, the least significant first, of the integer `v`. -/
inductive ColumnsOf (width : Nat) : Nat → List Int → Int → Prop
  | nil : ColumnsOf width 0 [] 0
  | cons {n : Nat} {d : Int} {ds : List Int} {u v : Int} :
      ColumnsOf width n ds u → v = d + 2 ^ width * u → ColumnsOf width (n + 1) (d :: ds) v

/-- The ripple form computes the sum of its columns' value and the accumulator: its limbs and its carry or borrow. -/
theorem ColumnsOf.ripple_eq {width n : Nat} {ds : List Int} {v : Int} (h : ColumnsOf width n ds v) (acc : Int) :
    ripple width acc ds = (limbsOf width n (lowPart (width * n) (acc + v)), carryOut (width * n) (acc + v)) := by
  induction h generalizing acc with
  | nil => simp [ripple, limbsOf, carryOut]
  | @cons n d ds u v _ hv ih =>
    have hpos : (2 : Int) ^ width ≠ 0 := by positivity
    have hlow : lowPart width (acc + d) = lowPart width (acc + v) := by
      rw [lowPart, lowPart, hv, ← add_assoc, Int.add_mul_emod_self_left]
    have hquot : (acc + d) / 2 ^ width + u = (acc + v) / 2 ^ width := by
      rw [hv, ← add_assoc, Int.add_mul_ediv_left _ _ hpos]
    have hcarry : carryOut (width * n) ((acc + v) / 2 ^ width) = carryOut (width * (n + 1)) (acc + v) := by
      rw [carryOut, carryOut, Int.ediv_ediv_of_nonneg (by positivity), ← pow_add, Nat.mul_succ, Nat.add_comm width]
    rw [ripple, ih, hquot, hcarry, limbsOf_lowPart_succ, ← hlow]
    rfl

/-! ## The columns of the four forms -/

theorem addColumns_columnsOf (width n x y : Nat) :
    ColumnsOf width n (addColumns (limbsOf width n x) (limbsOf width n y))
      (ofLimbs width (limbsOf width n x) + ofLimbs width (limbsOf width n y)) := by
  induction n generalizing x y with
  | zero => exact .nil
  | succ n ih => exact .cons (ih _ _) (by simp only [natCast_ofLimbs_limbsOf_succ]; ring)

theorem subColumns_columnsOf (width n z x : Nat) :
    ColumnsOf width n (subColumns (limbsOf width n z) (limbsOf width n x))
      (ofLimbs width (limbsOf width n z) - ofLimbs width (limbsOf width n x)) := by
  induction n generalizing z x with
  | zero => exact .nil
  | succ n ih => exact .cons (ih _ _) (by simp only [natCast_ofLimbs_limbsOf_succ]; ring)

theorem addColumns3_columnsOf (width n x y z : Nat) :
    ColumnsOf width n (addColumns3 (limbsOf width n x) (limbsOf width n y) (limbsOf width n z))
      (ofLimbs width (limbsOf width n x) + ofLimbs width (limbsOf width n y) + ofLimbs width (limbsOf width n z)) := by
  induction n generalizing x y z with
  | zero => exact .nil
  | succ n ih => exact .cons (ih _ _ _) (by simp only [natCast_ofLimbs_limbsOf_succ]; ring)

theorem subColumns3_columnsOf (width n z x y : Nat) :
    ColumnsOf width n (subColumns3 (limbsOf width n z) (limbsOf width n x) (limbsOf width n y))
      (ofLimbs width (limbsOf width n z) - ofLimbs width (limbsOf width n x) - ofLimbs width (limbsOf width n y)) := by
  induction n generalizing z x y with
  | zero => exact .nil
  | succ n ih => exact .cons (ih _ _ _) (by simp only [natCast_ofLimbs_limbsOf_succ]; ring)

/-! ## The datapaths -/

/-- Both views make up 128 bits (R11). -/
theorem limbWidth_mul_limbCount (w : View) : limbWidth w * limbCount w = 128 := by cases w <;> rfl

theorem ofLimbs_limbsOf_view (w : View) {x : Nat} (hx : x < 2 ^ 128) :
    ofLimbs (limbWidth w) (limbsOf (limbWidth w) (limbCount w) x) = x :=
  ofLimbs_limbsOf (by rwa [limbWidth_mul_limbCount])

/-- The ripple form over the limbs of a view gives the limbs that a Nat128 region holds and the carry or borrow. -/
theorem ripple_viewColumns {w : View} {ds : List Int} {v : Int} (h : ColumnsOf (limbWidth w) (limbCount w) ds v)
    (acc : Int) : ripple (limbWidth w) acc ds = (viewLimbs w (lowPart 128 (acc + v)), carryOut 128 (acc + v)) := by
  rw [h.ripple_eq, limbWidth_mul_limbCount, viewLimbs]

/-- The limbs and the carry out of an exact result that is not negative. -/
theorem viewLimbs_natCast (w : View) {n : Nat} {v : Int} (h : v = n) :
    (viewLimbs w (lowPart 128 v), carryOut 128 v) = (viewLimbs w (n % 2 ^ 128), ((n / 2 ^ 128 : Nat) : Int)) := by
  rw [h, lowPart_natCast]
  rfl

/-- Settles O36: the columns of each form have the exact result as their value. -/
theorem rippleFormsComputeValueForms : Obligations.RippleFormsComputeValueForms := by
  intro w cin x y z bin hx hy hz
  have hX := ofLimbs_limbsOf_view w hx
  have hY := ofLimbs_limbsOf_view w hy
  have hZ := ofLimbs_limbsOf_view w hz
  refine ⟨?_, ?_, ?_, ?_⟩
  · have hcol := addColumns_columnsOf (limbWidth w) (limbCount w) x y
    rw [hX, hY] at hcol
    exact (ripple_viewColumns hcol cin).trans (viewLimbs_natCast w (by push_cast; ring))
  · have hcol := addColumns3_columnsOf (limbWidth w) (limbCount w) x y z
    rw [hX, hY, hZ] at hcol
    exact (ripple_viewColumns hcol 0).trans (viewLimbs_natCast w (by push_cast; ring))
  · have hcol := subColumns_columnsOf (limbWidth w) (limbCount w) z x
    rw [hZ, hX] at hcol
    rw [add_comm ((z : Int) - x)]
    exact ripple_viewColumns hcol bin
  · have hcol := subColumns3_columnsOf (limbWidth w) (limbCount w) z x y
    rw [hZ, hX, hY] at hcol
    rw [← zero_add ((z : Int) - x - y)]
    exact ripple_viewColumns hcol 0

end Sys2Proof.Machine
end

section
/-! Proofs. The multiplier and the squarer (42_multiplicative.md R170 to R175): the product fits the eight words of C, and
SQR is MUL of a value with itself. -/

namespace Sys2Proof.Machine

/-! ## Legal regions -/

theorem regionsInside_wide {i : Instr} {w : View} {a b c : Nat} (s : State)
    (hn : namedRegions i = [nat128 w a, nat128 w b, nat256 w c]) :
    RegionsInside i s ↔ ea w a + 4 ≤ s.lmWords ∧ ea w b + 4 ≤ s.lmWords ∧ ea w c + 8 ≤ s.lmWords := by
  simp [RegionsInside, hn, nat128, nat256]

theorem regionsInside_sqr (w : View) (a c : Nat) (s : State) :
    RegionsInside (.sqr w a c) s ↔ ea w a + 4 ≤ s.lmWords ∧ ea w c + 8 ≤ s.lmWords := by
  simp [RegionsInside, namedRegions, nat128, nat256]

/-! ## The multiplier -/

/-- The product of two Nat128 values fits a Nat256 region (R170). -/
theorem mul_lt_of_nat128 {x y : Nat} (hx : x < 2 ^ 128) (hy : y < 2 ^ 128) : x * y < 2 ^ 256 :=
  (Nat.mul_lt_mul'' hx hy).trans_eq (pow_add 2 128 128).symm

/-- Settles O21: nothing of the product is lost in the eight words of C. -/
theorem mulStoresExactProduct : Obligations.MulStoresExactProduct := by
  refine ⟨fun cw f hf h => decode_usesABC hf (by simp [assignedOp, h]) rfl,
    fun w a b c s => exec_inside_or_fault (regionsInside_wide s rfl) fun hR x y hx hy => ?_⟩
  have hfit : x * y % 2 ^ 256 = x * y := Nat.mod_eq_of_lt (mul_lt_of_nat128 (memRead_lt hx) (memRead_lt hy))
  exact ⟨_, exec_withTwo hR rfl hx hy, (memRead_store (nat256 w c) _ s).trans (congrArg _ hfit),
    store_sameOutside (nat256 w c) _ s, rfl⟩

/-! ## The accumulating multiplier -/

/-- RES holds the carry out of the region (10_state.md R34). -/
theorem commitExact_natCast_res (r : Region) (n : Nat) (s : State) :
    (commitExact r n s).res = BitVec.ofNat 64 (n / 2 ^ (32 * r.len)) := by
  have hcarry : carryOut (32 * r.len) (n : Int) = ((n / 2 ^ (32 * r.len) : Nat) : Int) := by simp [carryOut]
  calc (commitExact r n s).res
      = BitVec.ofInt 64 (carryOut (32 * r.len) (n : Int)) := rfl
    _ = BitVec.ofNat 64 (n / 2 ^ (32 * r.len)) := by rw [hcarry, BitVec.ofInt_natCast]

/-- Settles O22: accumulator and product together stay below 2^257, so the carry is 0 or 1 (R173). -/
theorem muladdAccumulatesWithCarry : Obligations.MuladdAccumulatesWithCarry := by
  refine ⟨fun cw f hf h => decode_usesABC hf (by simp [assignedOp, h]) rfl,
    fun w a b c s => exec_inside_or_fault (regionsInside_wide s rfl) fun hR x y zz hx hy hzz => ?_⟩
  have hxy : x * y < 2 ^ 256 := mul_lt_of_nat128 (memRead_lt hx) (memRead_lt hy)
  have hzz' : zz < 2 ^ 256 := memRead_lt hzz
  have he : exec (.muladd w a b c) s = .next (commitExact (nat256 w c) ((zz + x * y : Nat) : Int) s) :=
    exec_withThree hR rfl hx hy hzz
  have hlow : memRead (commitExact (nat256 w c) ((zz + x * y : Nat) : Int) s).lm (nat256 w c) =
      .ok ((zz + x * y) % 2 ^ 256) := (memRead_commitExact _ _ s).trans (congrArg _ (lowPart_natCast 256 _))
  have hres : (commitExact (nat256 w c) ((zz + x * y : Nat) : Int) s).res =
      BitVec.ofNat 64 ((zz + x * y) / 2 ^ 256) := commitExact_natCast_res (nat256 w c) _ s
  have hcarry := congrArg BitVec.toNat hres
  rw [BitVec.toNat_ofNat, Nat.mod_eq_of_lt (by omega)] at hcarry
  exact ⟨_, _, he, hlow, rfl, hres, by omega, by omega, commitExact_sameOutside _ _ s, rfl⟩

/-! ## The squarer -/

theorem exec_withOne {i : Instr} {s : State} {p : Region} {x : Nat} {k : Nat → State} (hR : RegionsInside i s)
    (he : exec i s = command i s (withOne s p fun x => .ok (k x))) (hx : memRead s.lm p = .ok x) :
    exec i s = .next (k x) := by
  rw [he, command_inside hR, withOne_ok hx, finish]

/-- Two reads of one region in the snapshot give the same value, or stop at the same word. -/
theorem withTwo_same (s : State) (p : Region) (k : Nat → Nat → Except Stop State) :
    withTwo s p p k = withOne s p fun x => k x x := by
  rw [withTwo, withOne, withOne]
  cases hx : memRead s.lm p with
  | ok x => exact withOne_ok hx
  | error e => rfl

/-- Without a recorded fault, the end of a command does not depend on which command it was. -/
theorem finish_congr_of_faultless {b : Except Stop State} (h : Faultless b) (i j : Instr) (s : State) :
    finish i s b = finish j s b := by
  cases b with
  | ok t => rfl
  | error e =>
    cases e with
    | cause k => exact absurd rfl (h k)
    | unwritten a => rfl

/-- A command that commits for every value of its one operand records no fault once its regions are inside LM. -/
theorem withOne_faultless (s : State) (p : Region) (k : Nat → State) :
    Faultless (withOne s p fun x => .ok (k x)) := by
  rcases withOne_cases s p (fun x => .ok (k x)) with ⟨x, -, h⟩ | ⟨j, h⟩
  · exact h ▸ faultless_ok _
  · exact h ▸ faultless_unwritten j

/-- Settles O31: MUL reads A twice in one snapshot, and with legal regions neither command records its own word. -/
theorem sqrEqualsMulOfSame : Obligations.SqrEqualsMulOfSame := by
  intro w a c s ha hc
  have hsqr := (regionsInside_sqr w a c s).2 ⟨ha, hc⟩
  have hmul := (regionsInside_wide (i := .mul w a a c) s rfl).2 ⟨ha, ha, hc⟩
  rw [exec, exec, execSqr, execMul, command_inside hsqr, command_inside hmul, withTwo_same]
  exact finish_congr_of_faultless (withOne_faultless s _ _) _ _ s

/-- Settles O23: SQR is MUL with A = B, which stores the exact product. -/
theorem sqrStoresExactSquare : Obligations.SqrStoresExactSquare := by
  refine ⟨fun cw f hf h => decode_usesAC hf (by simp [assignedOp, h]) rfl,
    fun w a c s => exec_inside_or_fault (regionsInside_sqr w a c s) fun hR x hx => ?_⟩
  obtain ⟨ha, hc⟩ := (regionsInside_sqr w a c s).1 hR
  have hmul := mulStoresExactProduct.2 w a a c s
  rw [if_pos ⟨ha, ha, hc⟩] at hmul
  rw [sqrEqualsMulOfSame w a c s ha hc, sq]
  exact hmul x x hx hx

end Sys2Proof.Machine
end

section
/-! Proofs. The schoolbook rows and squaring by symmetry (42_multiplicative.md R171, R176): a running list of limbs is the
limbs of a running value, and each step splits that value into its low limb and the quotient it hands on. -/

namespace Sys2Proof.Machine

/-! ## Limbs of a value given as a low column and the columns above -/

@[simp] theorem limbsOf_length (width n v : Nat) : (limbsOf width n v).length = n := by
  induction n generalizing v with
  | zero => rfl
  | succ n ih => rw [limbsOf, List.length_cons, ih]

/-- A value whose low column is `u`, which may exceed a limb: the excess goes into the limbs above. -/
theorem limbsOf_succ_of_column {width v u q : Nat} (n : Nat) (h : v = u + 2 ^ width * q) :
    limbsOf width (n + 1) v = u % 2 ^ width :: limbsOf width n (u / 2 ^ width + q) := by
  rw [limbsOf, h, Nat.add_mul_mod_self_left, Nat.add_mul_div_left _ _ (by positivity)]

/-- Without its low limb a value needs one limb fewer. -/
theorem div_lt_of_lt_succ {width n v : Nat} (h : v < 2 ^ (width * (n + 1))) : v / 2 ^ width < 2 ^ (width * n) :=
  Nat.div_lt_of_lt_mul (by rwa [← pow_add, Nat.add_comm, ← Nat.mul_succ])

/-- The running limbs as their lowest limb and the others, a limb that does not exist yet counting 0. -/
theorem ofLimbs_headD_tail (width : Nat) (zs : List Nat) :
    ofLimbs width zs = zs.headD 0 + 2 ^ width * ofLimbs width zs.tail := by
  cases zs <;> rfl

/-! ## The schoolbook product (R171) -/

/-- One row computes the limbs of `acc + x·y + z`, for running limbs of value z. -/
theorem mulRow_eq {width n x acc y : Nat} {zs : List Nat} (hy : y < 2 ^ (width * n)) (hlen : zs.length ≤ n)
    (hsum : acc + x * y + ofLimbs width zs < 2 ^ (width * (n + 1))) :
    mulRow width x acc (limbsOf width n y) zs = limbsOf width (n + 1) (acc + x * y + ofLimbs width zs) := by
  induction n generalizing acc y zs with
  | zero =>
    obtain rfl : y = 0 := by rw [Nat.mul_zero] at hy; omega
    obtain rfl := List.length_eq_zero_iff.1 (Nat.le_zero.1 hlen)
    have hacc : acc < 2 ^ width := by simpa [ofLimbs] using hsum
    simp [mulRow, limbsOf, ofLimbs, Nat.mod_eq_of_lt hacc]
  | succ n ih =>
    have hcolumns : acc + x * y + ofLimbs width zs = (acc + x * (y % 2 ^ width) + zs.headD 0) +
        2 ^ width * (x * (y / 2 ^ width) + ofLimbs width zs.tail) := by
      conv_lhs => rw [ofLimbs_headD_tail, ← Nat.mod_add_div y (2 ^ width)]
      ring
    have hquot : (acc + x * (y % 2 ^ width) + zs.headD 0) / 2 ^ width + x * (y / 2 ^ width) + ofLimbs width zs.tail <
        2 ^ (width * (n + 1)) := by
      rw [Nat.add_assoc, ← Nat.add_mul_div_left _ _ (by positivity), ← hcolumns]
      exact div_lt_of_lt_succ hsum
    have htail : zs.tail.length ≤ n := by rw [List.length_tail]; omega
    rw [limbsOf_succ_of_column _ hcolumns, limbsOf, mulRow, ← Nat.add_assoc (_ / _),
      ih (div_lt_of_lt_succ hy) htail hquot]

/-- A limb times a number, with a running number of the same length, needs one limb more (R171's accumulator bound). -/
theorem mul_add_lt_of_limb {width n x y z : Nat} (hx : x < 2 ^ width) (hy : y < 2 ^ (width * n))
    (hz : z < 2 ^ (width * n)) : x * y + z < 2 ^ (width * (n + 1)) := by
  calc x * y + z
      < x * 2 ^ (width * n) + 2 ^ (width * n) := Nat.add_lt_add_of_le_of_lt (Nat.mul_le_mul_left x hy.le) hz
    _ = (x + 1) * 2 ^ (width * n) := by ring
    _ ≤ 2 ^ width * 2 ^ (width * n) := Nat.mul_le_mul_right _ hx
    _ = 2 ^ (width * (n + 1)) := by rw [← pow_add, Nat.mul_succ, Nat.add_comm]

/-- One row makes its lowest limb final and hands the limbs of the quotient on. -/
theorem mulRows_cons {width n x y : Nat} {xs zs : List Nat} (hx : x < 2 ^ width) (hy : y < 2 ^ (width * n))
    (hlen : zs.length ≤ n) (hz : ofLimbs width zs < 2 ^ (width * n)) :
    mulRows width (x :: xs) (limbsOf width n y) zs = (x * y + ofLimbs width zs) % 2 ^ width ::
      mulRows width xs (limbsOf width n y) (limbsOf width n ((x * y + ofLimbs width zs) / 2 ^ width)) := by
  have hrow := mulRow_eq (acc := 0) hy hlen (by rw [Nat.zero_add]; exact mul_add_lt_of_limb hx hy hz)
  rw [mulRows, hrow, Nat.zero_add, limbsOf, List.headD_cons, List.tail_cons]

/-- The rows compute the limbs of `x·y + z`, for running limbs of value z. -/
theorem mulRows_limbsOf {width m n x y z : Nat} (hx : x < 2 ^ (width * m)) (hy : y < 2 ^ (width * n))
    (hz : z < 2 ^ (width * n)) :
    mulRows width (limbsOf width m x) (limbsOf width n y) (limbsOf width n z) =
      limbsOf width (m + n) (x * y + z) := by
  induction m generalizing x z with
  | zero =>
    obtain rfl : x = 0 := by rw [Nat.mul_zero] at hx; omega
    rw [limbsOf, mulRows, Nat.zero_add, Nat.zero_mul, Nat.zero_add]
  | succ m ih =>
    have hlimb : x % 2 ^ width < 2 ^ width := Nat.mod_lt _ (by positivity)
    have hquot : (x % 2 ^ width * y + z) / 2 ^ width < 2 ^ (width * n) :=
      div_lt_of_lt_succ (mul_add_lt_of_limb hlimb hy hz)
    have hcolumns : x * y + z = (x % 2 ^ width * y + z) + 2 ^ width * (x / 2 ^ width * y) := by
      conv_lhs => rw [← Nat.mod_add_div x (2 ^ width)]
      ring
    have hz' : ofLimbs width (limbsOf width n z) = z := ofLimbs_limbsOf hz
    rw [limbsOf, mulRows_cons hlimb hy (limbsOf_length width n z).le (hz'.trans_lt hz), hz',
      ih (div_lt_of_lt_succ hx) hquot, Nat.succ_add, limbsOf_succ_of_column _ hcolumns,
      Nat.add_comm (x / 2 ^ width * y)]

/-- The first row takes missing running limbs as 0. -/
theorem mulRows_cons_nil {width n x y : Nat} {xs : List Nat} (hx : x < 2 ^ width) (hy : y < 2 ^ (width * n)) :
    mulRows width (x :: xs) (limbsOf width n y) [] =
      mulRows width (x :: xs) (limbsOf width n y) (limbsOf width n 0) := by
  have hzero : ofLimbs width (limbsOf width n 0) = 0 := ofLimbs_limbsOf (by positivity)
  have hpos : 0 < 2 ^ (width * n) := by positivity
  rw [mulRows_cons (zs := []) hx hy (Nat.zero_le n) hpos,
    mulRows_cons hx hy (limbsOf_length width n 0).le (hzero.trans_lt hpos), hzero, ofLimbs]

/-- The schoolbook rows compute the limbs of the product, for every width and every number of limbs. -/
theorem mulRows_product {width m n x y : Nat} (hx : x < 2 ^ (width * (m + 1))) (hy : y < 2 ^ (width * n)) :
    mulRows width (limbsOf width (m + 1) x) (limbsOf width n y) [] = limbsOf width (m + 1 + n) (x * y) := by
  rw [← Nat.add_zero (x * y), ← mulRows_limbsOf hx hy (by positivity), limbsOf]
  exact mulRows_cons_nil (Nat.mod_lt _ (by positivity)) hy

theorem schoolbook_eq (w : View) {x y : Nat} (hx : x < 2 ^ 128) (hy : y < 2 ^ 128) :
    schoolbook w x y = limbsOf (limbWidth w) (2 * limbCount w) (x * y) := by
  cases w with
  | w32 => exact mulRows_product (m := 3) hx hy
  | w64 => exact mulRows_product (m := 1) hx hy

/-! ## Squaring by symmetry (R176) -/

/-- The left shift with a ferried bit doubles the value and adds the bit that comes in. -/
theorem doubleLimbs_limbsOf (width n bit v : Nat) :
    doubleLimbs width bit (limbsOf width n v) = limbsOf width n (2 * v + bit) := by
  induction n generalizing bit v with
  | zero => rfl
  | succ n ih =>
    have hcolumns : 2 * v + bit = (2 * (v % 2 ^ width) + bit) + 2 ^ width * (2 * (v / 2 ^ width)) := by
      conv_lhs => rw [← Nat.mod_add_div v (2 ^ width)]
      ring
    rw [limbsOf, doubleLimbs, ih, limbsOf_succ_of_column _ hcolumns, Nat.add_comm (2 * (v / 2 ^ width))]

/-- The square of four limbs: the diagonal terms once and the cross terms twice. -/
theorem squareDiagonal_add_squareCross (x0 x1 x2 x3 : Nat) :
    squareDiagonal x0 x1 x2 x3 + 2 * squareCross x0 x1 x2 x3 = ofLimbs 32 [x0, x1, x2, x3] ^ 2 := by
  simp only [squareDiagonal, squareCross, ofLimbs]
  ring

/-- The doubled cross terms are part of a square below 2^256, so the shift drops no bit at the top. -/
theorem squareSymmetric_eq {x : Nat} (hx : x < 2 ^ 128) : squareSymmetric x = x ^ 2 := by
  obtain ⟨x0, x1, x2, x3, hlimbs⟩ : ∃ x0 x1 x2 x3, limbsOf 32 4 x = [x0, x1, x2, x3] := ⟨_, _, _, _, rfl⟩
  have hsquare : squareDiagonal x0 x1 x2 x3 + 2 * squareCross x0 x1 x2 x3 = x ^ 2 := by
    rw [squareDiagonal_add_squareCross, ← hlimbs, ofLimbs_limbsOf hx]
  have hfit : x ^ 2 < 2 ^ 256 := (sq x).trans_lt (mul_lt_of_nat128 hx hx)
  have hcross : 2 * squareCross x0 x1 x2 x3 + 0 < 2 ^ (32 * 8) := by omega
  calc squareSymmetric x
      = squareDiagonal x0 x1 x2 x3 + ofLimbs 32 (doubleLimbs 32 0 (limbsOf 32 8 (squareCross x0 x1 x2 x3))) := by
        rw [squareSymmetric, hlimbs]
    _ = squareDiagonal x0 x1 x2 x3 + 2 * squareCross x0 x1 x2 x3 := by
        rw [doubleLimbs_limbsOf, ofLimbs_limbsOf hcross, Nat.add_zero]
    _ = x ^ 2 := hsquare

/-- Settles O37: the rows keep a running sum of limbs, and the cross terms lose nothing when they are doubled. -/
theorem limbMultipliersComputeProducts : Obligations.LimbMultipliersComputeProducts :=
  ⟨fun w _ _ hx hy => schoolbook_eq w hx hy, fun _ hx => squareSymmetric_eq hx⟩

end Sys2Proof.Machine
end

section
/-! Proofs. The walks over limbs (43_relational.md R190 to R195): each walk decides what the value of its limbs decides, for
every width and every number of limbs; a view is one width and one number. -/

namespace Sys2Proof.Machine

/-! ## Equality and order, from the top limb down (R190, R191) -/

/-- The walk of EQ compares the limbs one by one, so it decides whether the lists are equal. -/
theorem eqTopDown_eq_decide {xs ys : List Nat} (hlen : xs.length = ys.length) :
    eqTopDown xs ys = decide (xs = ys) := by
  induction xs generalizing ys with
  | nil =>
    obtain rfl := List.length_eq_zero_iff.1 hlen.symm
    rfl
  | cons x xs ih =>
    cases ys with
    | nil => cases hlen
    | cons y ys => simp [eqTopDown, ih (Nat.succ.inj hlen), List.cons.injEq, Bool.decide_and]

/-- The lowest limbs come last, and decide only when all limbs above them are equal. -/
theorem gteTopDown_append_singleton {xs ys : List Nat} (hlen : xs.length = ys.length) (x y : Nat) :
    gteTopDown (xs ++ [x]) (ys ++ [y]) = if xs = ys then decide (x ≥ y) else gteTopDown xs ys := by
  induction xs generalizing ys with
  | nil =>
    obtain rfl := List.length_eq_zero_iff.1 hlen.symm
    simp only [List.nil_append, gteTopDown, if_true]
    split_ifs with h
    · exact (decide_eq_true h.ge).symm
    · exact decide_eq_decide.2 (by omega)
  | cons x' xs ih =>
    cases ys with
    | nil => cases hlen
    | cons y' ys =>
      simp only [List.cons_append, gteTopDown, ih (Nat.succ.inj hlen)]
      by_cases h : x' = y' <;> simp [h]

/-- Values that fit their limbs have the same limbs only when they are equal (R11). -/
theorem limbsOf_inj {width n x y : Nat} (hx : x < 2 ^ (width * n)) (hy : y < 2 ^ (width * n)) :
    limbsOf width n x = limbsOf width n y ↔ x = y := by
  refine ⟨fun h => ?_, fun h => by rw [h]⟩
  rw [← ofLimbs_limbsOf hx, h, ofLimbs_limbsOf hy]

theorem eqTopDown_limbsOf {width n x y : Nat} (hx : x < 2 ^ (width * n)) (hy : y < 2 ^ (width * n)) :
    eqTopDown (limbsOf width n x).reverse (limbsOf width n y).reverse = decide (x = y) := by
  rw [eqTopDown_eq_decide (by simp), decide_eq_decide, List.reverse_inj, limbsOf_inj hx hy]

/-- The quotients decide the order of two numbers, and the remainders do when the quotients are equal. -/
theorem ge_iff_div_mod (b x y : Nat) : x ≥ y ↔ if x / b = y / b then x % b ≥ y % b else x / b ≥ y / b := by
  split_ifs with h
  · have hx := Nat.div_add_mod x b
    have hy := Nat.div_add_mod y b
    rw [h] at hx
    omega
  · refine ⟨fun hge => Nat.div_le_div_right hge, fun hge => ?_⟩
    exact (Nat.lt_of_div_lt_div (lt_of_le_of_ne hge (Ne.symm h))).le

theorem gteTopDown_limbsOf {width n x y : Nat} (hx : x < 2 ^ (width * n)) (hy : y < 2 ^ (width * n)) :
    gteTopDown (limbsOf width n x).reverse (limbsOf width n y).reverse = decide (x ≥ y) := by
  induction n generalizing x y with
  | zero =>
    obtain rfl : y = 0 := by rw [Nat.mul_zero] at hy; omega
    exact (decide_eq_true (Nat.zero_le x)).symm
  | succ n ih =>
    have hx' := div_lt_of_lt_succ hx
    have hy' := div_lt_of_lt_succ hy
    have hge := ge_iff_div_mod (2 ^ width) x y
    rw [limbsOf, limbsOf, List.reverse_cons, List.reverse_cons, gteTopDown_append_singleton (by simp), ih hx' hy']
    simp only [List.reverse_inj, limbsOf_inj hx' hy']
    split_ifs at hge ⊢ <;> exact decide_eq_decide.2 hge.symm

/-! ## The tests for 0 and 1, from the low limb up (R192, R193) -/

theorem zeroLimbs_eq_decide (width : Nat) (ls : List Nat) : zeroLimbs ls = decide (ofLimbs width ls = 0) := by
  induction ls with
  | nil => rfl
  | cons l ls ih => simp [zeroLimbs, ofLimbs, ih, Bool.beq_eq_decide_eq]

/-- A limb above the low one counts 2^width at least, so the value 1 stands in the low limb alone. -/
theorem oneLimbs_eq_decide {width : Nat} (hw : 0 < width) (ls : List Nat) :
    oneLimbs ls = decide (ofLimbs width ls = 1) := by
  cases ls with
  | nil => rfl
  | cons l ls =>
    have hlimb : 1 < 2 ^ width := Nat.one_lt_two_pow hw.ne'
    have hvalue : l + 2 ^ width * ofLimbs width ls = 1 ↔ l = 1 ∧ ofLimbs width ls = 0 := by
      refine ⟨fun h => ?_, fun ⟨hl, hls⟩ => by rw [hl, hls, Nat.mul_zero]⟩
      have hzero : ofLimbs width ls = 0 := by
        by_contra hne
        have := Nat.le_mul_of_pos_right (2 ^ width) (Nat.pos_of_ne_zero hne)
        omega
      rw [hzero, Nat.mul_zero] at h
      exact ⟨h, hzero⟩
    rw [oneLimbs, ofLimbs, zeroLimbs_eq_decide width, decide_eq_decide.2 hvalue, Bool.decide_and]
    rfl

/-! ## One bit (R194) -/

/-- Bit `n mod width` of limb `n div width` is bit n of the value. -/
theorem bitOfLimbs_eq_testBit {width : Nat} (hw : 0 < width) {ls : List Nat} (hls : ∀ l ∈ ls, l < 2 ^ width) (n : Nat) :
    bitOfLimbs width ls n = (ofLimbs width ls).testBit n := by
  induction ls generalizing n with
  | nil => simp [bitOfLimbs, ofLimbs]
  | cons l ls ih =>
    obtain ⟨hl, hls⟩ := List.forall_mem_cons.1 hls
    rw [ofLimbs, Nat.add_comm, Nat.testBit_two_pow_mul_add _ hl]
    split_ifs with hn
    · rw [bitOfLimbs, Nat.div_eq_of_lt hn, Nat.mod_eq_of_lt hn, List.getD_cons_zero]
    · obtain ⟨k, rfl⟩ := Nat.exists_eq_add_of_le (Nat.le_of_not_lt hn)
      rw [Nat.add_sub_cancel_left, ← ih hls, bitOfLimbs, bitOfLimbs, Nat.add_div_left _ hw, Nat.add_mod_left,
        List.getD_cons_succ]

theorem lt_of_mem_limbsOf {width n v l : Nat} (h : l ∈ limbsOf width n v) : l < 2 ^ width := by
  induction n generalizing v with
  | zero => cases h
  | succ n ih =>
    obtain rfl | h := List.mem_cons.1 h
    · exact Nat.mod_lt _ (by positivity)
    · exact ih h

/-! ## The two views -/

theorem limbWidth_pos (w : View) : 0 < limbWidth w := by cases w <;> decide

/-- Settles O38: a Nat128 value fits the limbs of either view, and each walk decides by the value of the limbs. -/
theorem limbWalksCompareValues : Obligations.LimbWalksCompareValues := by
  intro w x y n hx hy _
  have hvalue : ofLimbs (limbWidth w) (viewLimbs w x) = x := ofLimbs_limbsOf_view w hx
  have hone := oneLimbs_eq_decide (limbWidth_pos w) (viewLimbs w x)
  have hzero := zeroLimbs_eq_decide (limbWidth w) (viewLimbs w x)
  have hbit := bitOfLimbs_eq_testBit (limbWidth_pos w) (fun l (hl : l ∈ viewLimbs w x) => lt_of_mem_limbsOf hl) n
  rw [hvalue] at hone hzero hbit
  rw [← limbWidth_mul_limbCount w] at hx hy
  exact ⟨eqTopDown_limbsOf hx hy, gteTopDown_limbsOf hx hy, hzero, hone, hbit⟩

end Sys2Proof.Machine
end

section
/-! Proofs. The comparator and the bit extractor (43_relational.md R190 to R194): how their words decode, and that each
writes one Boolean of its operands to RES and nothing else. -/

namespace Sys2Proof

/-- RSV and the fields a command leaves unused decide between the command and RESERVED_FIELD (R96), whatever is said of
those fields. -/
theorem decode_of_unusedZero_iff {cw : DWord} {f : Fields} {i : Instr} {P : Prop} [Decidable P] (hf : f = fieldsOf cw)
    (ha : assignedOp f = some i) (hz : unusedZero (usedFields i) f = true ↔ P) :
    decode cw = if f.rsv = 0 ∧ P then .ok i else .error .reservedField := by
  subst hf
  simp only [decode_of_assignedOp ha, hz]

/-- EQ and GTE use A and B (R97). -/
theorem unusedZero_onlyAB (f : Fields) : unusedZero { a := true, b := true } f = true ↔ f.c = 0 ∧ f.imm = 0 := by
  simp [unusedZero]

/-- ISZERO and ISONE use A alone (R97). -/
theorem unusedZero_onlyA (f : Fields) : unusedZero { a := true } f = true ↔ f.b = 0 ∧ f.c = 0 ∧ f.imm = 0 := by
  simp [unusedZero, and_assoc]

/-- GETBIT uses A and IMM (R97). -/
theorem unusedZero_onlyAImm (f : Fields) : unusedZero { a := true, imm := true } f = true ↔ f.b = 0 ∧ f.c = 0 := by
  simp [unusedZero]

end Sys2Proof

namespace Sys2Proof.Machine

/-! ## Boolean results -/

theorem regionsInside_one {i : Instr} {w : View} {a : Nat} (s : State) (hn : namedRegions i = [nat128 w a]) :
    RegionsInside i s ↔ ea w a + 4 ≤ s.lmWords := by
  simp [RegionsInside, hn, nat128]

/-- What a command with a Boolean result leaves: 1 or 0 in RES (10_state.md R34), and everything else as it was. -/
theorem exists_next_of_boolScalar {i : Instr} {s : State} {p : Prop} [Decidable p]
    (he : exec i s = .next (setRes (boolScalar (decide p)) s)) :
    ∃ t : State, exec i s = .next t ∧ t.res = (if p then 1 else 0) ∧ OnlyRes s t :=
  ⟨_, he, by simp [boolScalar], rfl⟩

theorem exec_comparison {i : Instr} {s : State} {p q : Region} {x y : Nat} {P : Nat → Nat → Prop}
    [∀ x y, Decidable (P x y)] (hR : RegionsInside i s)
    (he : exec i s = command i s (withTwo s p q fun x y => .ok (setRes (boolScalar (decide (P x y))) s)))
    (hx : memRead s.lm p = .ok x) (hy : memRead s.lm q = .ok y) :
    ∃ t : State, exec i s = .next t ∧ t.res = (if P x y then 1 else 0) ∧ OnlyRes s t :=
  exists_next_of_boolScalar (exec_withTwo hR he hx hy)

theorem exec_valueTest {i : Instr} {s : State} {p : Region} {x : Nat} {P : Nat → Prop} [DecidablePred P]
    (hR : RegionsInside i s)
    (he : exec i s = command i s (withOne s p fun x => .ok (setRes (boolScalar (decide (P x))) s)))
    (hx : memRead s.lm p = .ok x) : ∃ t : State, exec i s = .next t ∧ t.res = (if P x then 1 else 0) ∧ OnlyRes s t :=
  exists_next_of_boolScalar (exec_withOne (x := x) hR he hx)

/-! ## The comparator -/

/-- Settles O24: both commands check and read the same two regions. -/
theorem eqAndGteCompareUnsigned : Obligations.EqAndGteCompareUnsigned := by
  refine ⟨?_, fun w a b s => ?_⟩
  · intro cw f hf h
    exact decode_of_unusedZero_iff hf (by obtain h | h := h <;> simp [assignedOp, h])
      (by split <;> exact unusedZero_onlyAB f)
  · split_ifs with h
    · intro x y hx hy
      exact ⟨exec_comparison (P := fun x y => x = y) ((regionsInside_two s rfl).2 h) rfl hx hy,
        exec_comparison (P := fun x y => x ≥ y) ((regionsInside_two s rfl).2 h) rfl hx hy⟩
    · exact ⟨exec_outside (mt (regionsInside_two s rfl).1 h), exec_outside (mt (regionsInside_two s rfl).1 h)⟩

/-- Settles O25: both commands check and read the one region of A. -/
theorem iszeroAndIsoneTestValue : Obligations.IszeroAndIsoneTestValue := by
  refine ⟨?_, fun w a s => ?_⟩
  · intro cw f hf h
    exact decode_of_unusedZero_iff hf (by obtain h | h := h <;> simp [assignedOp, h])
      (by split <;> exact unusedZero_onlyA f)
  · split_ifs with h
    · intro x hx
      exact ⟨exec_valueTest (P := fun x => x = 0) ((regionsInside_one s rfl).2 h) rfl hx,
        exec_valueTest (P := fun x => x = 1) ((regionsInside_one s rfl).2 h) rfl hx⟩
    · exact ⟨exec_outside (mt (regionsInside_one s rfl).1 h), exec_outside (mt (regionsInside_one s rfl).1 h)⟩

/-! ## The bit extractor -/

/-- The words of a region are the 32-bit limbs of its value (R62). -/
theorem valueOf_eq_ofLimbs (vs : List Word) : valueOf vs = ofLimbs 32 (vs.map BitVec.toNat) := by
  induction vs with
  | nil => rfl
  | cons v vs ih => rw [valueOf, ih, List.map_cons, ofLimbs]

theorem exists_readWords_of_memRead {m : Memory} {r : Region} {x : Nat} (h : memRead m r = .ok x) :
    ∃ vs, readWords m r.addr r.len = .ok vs ∧ valueOf vs = x := by
  unfold memRead at h
  split at h
  · exact ⟨_, ‹_›, Except.ok.inj h⟩
  · cases h

/-- Bit k of a region's value is bit `k mod 32` of its word `k div 32` (R194). -/
theorem getLsbD_eq_testBit_of_memRead {m : Memory} {r : Region} {x k : Nat} {l : Word} (hx : memRead m r = .ok x)
    (hk : k < 32 * r.len) (hl : Memory.read m (r.addr + k / 32) = some l) : l.getLsbD (k % 32) = x.testBit k := by
  obtain ⟨vs, hvs, rfl⟩ := exists_readWords_of_memRead hx
  have hindex : k / 32 < vs.length := by rw [readWords_length hvs]; omega
  obtain rfl : l = vs[k / 32] := Option.some.inj (hl.symm.trans (readWords_get hvs _ hindex))
  have hwords : ∀ v ∈ vs.map BitVec.toNat, v < 2 ^ 32 := by
    simp only [List.mem_map]
    rintro _ ⟨v, -, rfl⟩
    exact v.isLt
  rw [valueOf_eq_ofLimbs, ← bitOfLimbs_eq_testBit (by decide) hwords, bitOfLimbs,
    List.getD_eq_getElem _ _ (by simpa using hindex), List.getElem_map]
  rfl

theorem bitAt_of_outside {x : Nat} {n : Int} (h : ¬ (0 ≤ n ∧ n ≤ 127)) : bitAt x n = false := by
  rw [bitAt, decide_eq_false h, Bool.false_and]

theorem bitAt_of_inside {x : Nat} {n : Int} (h : 0 ≤ n ∧ n ≤ 127) : bitAt x n = x.testBit n.toNat := by
  rw [bitAt, decide_eq_true h, Bool.true_and]

/-- Settles O26: IMM is the index in two's complement, and the words of A are the limbs that hold the bit. -/
theorem getbitExtractsIndexedBit : Obligations.GetbitExtractsIndexedBit := by
  refine ⟨fun cw f hf h => ?_,
    fun w a n s => exec_inside_or_fault (regionsInside_one s rfl) fun hR x hx => ?_⟩
  · rw [← toInt_eq_toNat_sub_sign f.imm]
    exact decode_of_unusedZero_iff hf (by simp [assignedOp, h]) (unusedZero_onlyAImm f)
  · refine ⟨_, exec_getbit ((regionsInside_one s rfl).1 hR) hx n, rfl, ?_⟩
    rw [setRes_res]
    by_cases hn : 0 ≤ n ∧ n ≤ 127
    · have hindex : n.toNat < 32 * 4 := by omega
      rw [if_pos hn, bitAt_of_inside hn]
      exact ⟨rfl, fun l hl => by rw [getLsbD_eq_testBit_of_memRead hx hindex hl]; rfl⟩
    · rw [if_neg hn, bitAt_of_outside hn]
      rfl

end Sys2Proof.Machine
end

section
/-! Proofs. BI images (44_conversion.md R210, R211): the magnitude grows byte by byte as the sum of R211, and a run of whole
words denotes the value of those words with the least significant last. -/

namespace Sys2Proof.Machine

/-! ## The bytes of an image -/

/-- Byte `k` of an image, from the word and the bits of it that R210 names. -/
def imageByte (ws : List Word) (k : Nat) : Nat := (ws.getD (k / 4) 0).toNat / 2 ^ (24 - 8 * (k % 4)) % 256

theorem imageByte_cons_of_lt (v : Word) (ws : List Word) {k : Nat} (hk : k < 4) :
    imageByte (v :: ws) k = v.toNat / 2 ^ (24 - 8 * k) % 256 := by
  rw [imageByte, Nat.div_eq_of_lt hk, Nat.mod_eq_of_lt hk, List.getD_cons_zero]

theorem imageByte_cons_add_four (v : Word) (ws : List Word) (k : Nat) :
    imageByte (v :: ws) (k + 4) = imageByte ws k := by
  rw [imageByte, Nat.add_div_right k (by decide), Nat.add_mod_right, List.getD_cons_succ, imageByte]

theorem toNat_wordBytes_get (v : Word) (k : Nat) (hk : k < (wordBytes v).length) :
    (wordBytes v)[k].toNat = v.toNat / 2 ^ (24 - 8 * k) % 256 := by
  have hlen : (wordBytes v).length = 4 := rfl
  rw [hlen] at hk
  interval_cases k <;> simp [wordBytes, Nat.shiftRight_eq_div_pow]

theorem flatMap_wordBytes_length (ws : List Word) : (ws.flatMap wordBytes).length = 4 * ws.length := by
  induction ws with
  | nil => rfl
  | cons v ws ih =>
    rw [List.flatMap_cons, List.length_append, ih, List.length_cons]
    exact (Nat.add_comm _ _).trans (Nat.mul_succ 4 _).symm

/-- The bytes of a list of words stand in the order of R210. -/
theorem toNat_flatMap_wordBytes_get (ws : List Word) (k : Nat) (hk : k < (ws.flatMap wordBytes).length) :
    (ws.flatMap wordBytes)[k].toNat = imageByte ws k := by
  induction ws generalizing k with
  | nil => simp at hk
  | cons v ws ih =>
    simp only [List.flatMap_cons]
    have hlen : (wordBytes v).length = 4 := rfl
    by_cases h : k < 4
    · rw [List.getElem_append_left (hlen ▸ h), toNat_wordBytes_get, imageByte_cons_of_lt v ws h]
    · obtain ⟨j, rfl⟩ := Nat.exists_eq_add_of_le' (Nat.le_of_not_lt h)
      rw [List.getElem_append_right (by omega), imageByte_cons_add_four]
      exact ih j _

/-! ## The magnitude -/

theorem bytesValueFrom_append (acc : Nat) (bs cs : List (BitVec 8)) :
    bytesValueFrom acc (bs ++ cs) = bytesValueFrom (bytesValueFrom acc bs) cs := by
  induction bs generalizing acc with
  | nil => rfl
  | cons b bs ih => exact ih _

/-- One more byte: what was read before moves up by one place (R211). -/
theorem biMagnitude_succ {nb : Nat} {ws : List Word} (h : nb < 4 * ws.length) :
    biMagnitude (nb + 1) ws = biMagnitude nb ws * 256 + imageByte ws nb := by
  have hk : nb < (ws.flatMap wordBytes).length := by rwa [flatMap_wordBytes_length]
  rw [biMagnitude, imageBytes, List.take_succ_eq_append_getElem hk, bytesValueFrom_append, bytesValueFrom,
    bytesValueFrom, toNat_flatMap_wordBytes_get, biMagnitude, imageBytes]

theorem biMagnitude_eq_sum {nb : Nat} {ws : List Word} (h : nb ≤ 4 * ws.length) :
    biMagnitude nb ws = ∑ k ∈ Finset.range nb, imageByte ws k * 256 ^ (nb - 1 - k) := by
  induction nb with
  | zero => rfl
  | succ nb ih =>
    have hshift : ∀ k ∈ Finset.range nb,
        imageByte ws k * 256 ^ (nb - 1 - k) * 256 = imageByte ws k * 256 ^ (nb + 1 - 1 - k) := by
      intro k hk
      have hexp : nb + 1 - 1 - k = nb - 1 - k + 1 := by have := Finset.mem_range.1 hk; omega
      rw [hexp, pow_succ, mul_assoc]
    rw [biMagnitude_succ h, ih (Nat.le_of_succ_le h), Finset.sum_mul, Finset.sum_congr rfl hshift,
      Finset.sum_range_succ, Nat.add_sub_cancel, Nat.sub_self, pow_zero, mul_one]

/-- Settles O29: the words hold at least `nb` bytes, and what they hold beyond is dropped. -/
theorem imageMagnitudeIsByteSum : Obligations.ImageMagnitudeIsByteSum := fun _ _ hlen =>
  biMagnitude_eq_sum (by omega)

/-! ## Whole words -/

theorem bytesValueFrom_wordBytes (acc : Nat) (v : Word) : bytesValueFrom acc (wordBytes v) = acc * 2 ^ 32 + v.toNat := by
  simp only [wordBytes, bytesValueFrom, BitVec.extractLsb'_toNat, Nat.shiftRight_eq_div_pow]
  omega

/-- An image of whole words is big-endian across and within them (20_memory.md R68). -/
theorem biMagnitude_wholeWords (ws : List Word) : biMagnitude (4 * ws.length) ws = valueOf ws.reverse := by
  rw [biMagnitude, imageBytes, ← flatMap_wordBytes_length, List.take_length]
  induction ws using List.reverseRecOn with
  | nil => rfl
  | append_singleton ws v ih =>
    rw [List.flatMap_append, List.flatMap_singleton, bytesValueFrom_append, ih, bytesValueFrom_wordBytes,
      List.reverse_concat, valueOf]
    omega

/-- The words of a region in reverse order are an image of the region's value. -/
theorem biMagnitude_reverse {vs : List Word} (h : vs.length = 4) : biMagnitude 16 vs.reverse = valueOf vs := by
  have := biMagnitude_wholeWords vs.reverse
  rwa [List.length_reverse, h, List.reverse_reverse] at this

/-! ## The header and the value -/

theorem biBytes_eq (hdr : Word) : biBytes hdr = hdr.toNat % 2 ^ 16 := by simp [biBytes]

/-- An image that denotes a value of a Nat128 is one that FROMBI accepts, and its magnitude is that value (R211, R214). -/
theorem magnitude_of_value_in_range {hdr : Word} {ws : List Word} (h0 : 0 ≤ biValue hdr ws)
    (h1 : biValue hdr ws < 2 ^ 128) :
    ¬ ((biSign hdr = true ∧ biMagnitude (biBytes hdr) ws ≠ 0) ∨ 2 ^ 128 ≤ biMagnitude (biBytes hdr) ws) ∧
      (biMagnitude (biBytes hdr) ws : Int) = biValue hdr ws := by
  by_cases hs : biSign hdr = true
  · rw [biValue, if_pos hs] at h0 ⊢
    exact ⟨not_or.2 ⟨fun ⟨_, hm⟩ => hm (by omega), by omega⟩, by omega⟩
  · rw [biValue, if_neg hs] at h1 ⊢
    exact ⟨not_or.2 ⟨fun ⟨hs', _⟩ => hs hs', by omega⟩, rfl⟩

end Sys2Proof.Machine
end

section
/-! Proofs. TOBI and FROMBI (44_conversion.md R212 to R216): what each leaves in LM, in the order of its checks, and that
each undoes the other. -/

namespace Sys2Proof.Machine

/-! ## Legal regions and reads -/

theorem regionsInside_tobi (w : View) (a c : Nat) (s : State) :
    RegionsInside (.tobi w a c) s ↔ ea w a + 4 ≤ s.lmWords ∧ ea w c + 5 ≤ s.lmWords := by
  simp [RegionsInside, namedRegions, nat128, tobiImage]

theorem regionsInside_frombi (w : View) (a c : Nat) (s : State) :
    RegionsInside (.frombi w a c) s ↔ ea w a + 1 ≤ s.lmWords ∧ ea w c + 4 ≤ s.lmWords := by
  simp [RegionsInside, namedRegions, nat128, biHeader]

theorem OnlyLm.lmWords_eq {s t : State} (h : OnlyLm s t) : t.lmWords = s.lmWords :=
  (congrArg State.lmWords h :)

/-- An image is its header and the words after it. -/
theorem read_of_readWords_cons {m : Memory} {a n : Nat} {v : Word} {vs : List Word}
    (h : readWords m a (n + 1) = .ok (v :: vs)) : Memory.read m a = some v ∧ readWords m (a + 1) n = .ok vs := by
  have hlen : vs.length = n := Nat.succ.inj (readWords_length h)
  refine ⟨readWords_get h 0 (Nat.zero_lt_succ _), hlen ▸ readWords_ok_of fun k hk => ?_⟩
  rw [Nat.add_assoc, Nat.add_comm 1 k]
  exact readWords_get h (k + 1) (Nat.succ_lt_succ hk)

theorem memRead_of_readWords {m : Memory} {r : Region} {vs : List Word} (h : readWords m r.addr r.len = .ok vs) :
    memRead m r = .ok (valueOf vs) := by
  rw [memRead, h]

/-! ## TOBI -/

/-- The words of a value are determined by it. -/
theorem wordsOf_valueOf (vs : List Word) : wordsOf vs.length (valueOf vs) = vs := by
  induction vs with
  | nil => rfl
  | cons v vs ih =>
    have hlow : BitVec.ofNat 32 (v.toNat + 2 ^ 32 * valueOf vs) = v := by
      apply BitVec.eq_of_toNat_eq
      rw [BitVec.toNat_ofNat, Nat.add_mul_mod_self_left, Nat.mod_eq_of_lt v.isLt]
    have hhigh : (v.toNat + 2 ^ 32 * valueOf vs) / 2 ^ 32 = valueOf vs := by
      rw [Nat.add_mul_div_left _ _ (by decide), Nat.div_eq_of_lt v.isLt, Nat.zero_add]
    rw [List.length_cons, valueOf, wordsOf, hlow, hhigh, ih]

theorem tobiWords_eq (x : Nat) : tobiWords x = 0x00000010 :: (wordsOf 4 x).reverse := by
  simp [tobiWords, wordsOf, Nat.div_div_eq_div_mul]

/-- The image of a region's value is the header and the region's words from the top down (R212). -/
theorem tobiWords_valueOf {vs : List Word} (h : vs.length = 4) : tobiWords (valueOf vs) = 0x00000010 :: vs.reverse := by
  rw [tobiWords_eq, ← h, wordsOf_valueOf]

/-- What TOBI leaves: the image of the region it reads, overlap included, since the whole region is read first. -/
theorem exec_tobi {w : View} {a c : Nat} {s : State} {vs : List Word} (hR : RegionsInside (.tobi w a c) s)
    (hvs : readWords s.lm (ea w a) 4 = .ok vs) :
    ∃ t : State, exec (.tobi w a c) s = .next t ∧ readWords t.lm (ea w c) 5 = .ok (0x00000010 :: vs.reverse) ∧
      SameOutside [⟨ea w c, 5⟩] s.lm t.lm ∧ OnlyLm s t := by
  have hx : memRead s.lm (nat128 w a) = .ok (valueOf vs) := memRead_of_readWords hvs
  refine ⟨_, exec_withOne hR rfl hx, ?_, fun j hj => ?_, rfl⟩
  · rw [← tobiWords_valueOf (readWords_length hvs)]
    exact readWords_writeList s.lm (ea w c) (tobiWords (valueOf vs))
  · exact Memory.read_writeList_outside _ _ _ _ (hj _ List.mem_cons_self)

/-- Settles O27: TOBI stores the one image of the value it reads. -/
theorem tobiWritesImage : Obligations.TobiWritesImage :=
  ⟨fun cw f hf h => decode_usesAC hf (by simp [assignedOp, h]) rfl,
    fun w a c s => exec_inside_or_fault (regionsInside_tobi w a c s) fun hR _ _ _ _ hx => exec_tobi hR hx⟩

/-! ## FROMBI -/

section
variable {w : View} {a c : Nat} {s : State} {hdr : Word} (hR : RegionsInside (.frombi w a c) s)
  (hhdr : Memory.read s.lm (ea w a) = some hdr)
include hR hhdr

theorem exec_frombi_imageOutside (hk : ¬ (frombiImage w a hdr).inside s.lmWords) :
    exec (.frombi w a c) s = .next (takeFault causeAddrRange (encode (.frombi w a c)) s) := by
  rw [exec, execFrombi, command_inside hR]
  simp only [readWord, hhdr, chk, if_neg hk, finish]

theorem exec_frombi_imageInside {ws : List Word} (hk : (frombiImage w a hdr).inside s.lmWords)
    (hws : readWords s.lm (ea w a + 1) (biWords (biBytes hdr)) = .ok ws) :
    exec (.frombi w a c) s = finish (.frombi w a c) s (frombiCommit w c hdr ws s) := by
  rw [exec, execFrombi, command_inside hR]
  simp only [readWord, hhdr, chk_ok_iff.2 hk, hws]

/-- What FROMBI leaves when it refuses the image's value: the fault record (R214). -/
theorem exec_frombi_fault {ws : List Word} (hk : (frombiImage w a hdr).inside s.lmWords)
    (hws : readWords s.lm (ea w a + 1) (biWords (biBytes hdr)) = .ok ws)
    (h : (biSign hdr = true ∧ biMagnitude (biBytes hdr) ws ≠ 0) ∨ 2 ^ 128 ≤ biMagnitude (biBytes hdr) ws) :
    exec (.frombi w a c) s = .next (takeFault causeRangeViolation (encode (.frombi w a c)) s) := by
  rw [exec_frombi_imageInside hR hhdr hk hws, frombiCommit_fault h, finish]

/-- What FROMBI leaves when it accepts the image's value: the magnitude, of which the region loses nothing (R214). -/
theorem exec_frombi_store {ws : List Word} (hk : (frombiImage w a hdr).inside s.lmWords)
    (hws : readWords s.lm (ea w a + 1) (biWords (biBytes hdr)) = .ok ws)
    (h : ¬ ((biSign hdr = true ∧ biMagnitude (biBytes hdr) ws ≠ 0) ∨ 2 ^ 128 ≤ biMagnitude (biBytes hdr) ws)) :
    ∃ t : State, exec (.frombi w a c) s = .next t ∧ memRead t.lm ⟨ea w c, 4⟩ = .ok (biMagnitude (biBytes hdr) ws) ∧
      SameOutside [⟨ea w c, 4⟩] s.lm t.lm ∧ OnlyLm s t := by
  have hfit : biMagnitude (biBytes hdr) ws % 2 ^ 128 = biMagnitude (biBytes hdr) ws :=
    Nat.mod_eq_of_lt (Nat.lt_of_not_le (not_or.1 h).2)
  refine ⟨_, ?_, (memRead_store (nat128 w c) _ s).trans (congrArg _ hfit), store_sameOutside (nat128 w c) _ s, rfl⟩
  rw [exec_frombi_imageInside hR hhdr hk hws, frombiCommit_store h, finish]

end

/-- Settles O28: the three outcomes once header and destination are inside LM. -/
theorem frombiStoresImageValue : Obligations.FrombiStoresImageValue := by
  refine ⟨fun cw f hf h => decode_usesAC hf (by simp [assignedOp, h]) rfl,
    fun w a c s => exec_inside_or_fault (regionsInside_frombi w a c s) fun hR hdr nb hhdr hnb => ?_⟩
  obtain rfl : nb = biBytes hdr := hnb.trans (biBytes_eq hdr).symm
  split_ifs with hk
  · rintro ws m hws rfl
    split_ifs with hm
    · exact exec_frombi_fault hR hhdr hk hws hm
    · exact exec_frombi_store hR hhdr hk hws hm
  · exact exec_frombi_imageOutside hR hhdr hk

/-! ## The round trips (R216) -/

/-- The image TOBI writes of a region's words denotes the region's value. -/
theorem biValue_tobi {vs : List Word} (h : vs.length = 4) : biValue 0x00000010 vs.reverse = valueOf vs :=
  congrArg Nat.cast (biMagnitude_reverse h)

/-- TOBI then FROMBI: the image's value is the region's, which FROMBI accepts because it fits a Nat128. -/
theorem frombi_of_tobi {w : View} {a h c : Nat} {s : State} {x : Nat} (hRt : RegionsInside (.tobi w a h) s)
    (hRf : RegionsInside (.frombi w h c) s) (hx : memRead s.lm ⟨ea w a, 4⟩ = .ok x) :
    ∃ t u : State, exec (.tobi w a h) s = .next t ∧ exec (.frombi w h c) t = .next u ∧
      memRead u.lm ⟨ea w c, 4⟩ = .ok x := by
  obtain ⟨vs, hvs, rfl⟩ := exists_readWords_of_memRead hx
  obtain ⟨t, ht, himage, -, honly⟩ := exec_tobi hRt hvs
  obtain ⟨hhdr, hws⟩ := read_of_readWords_cons himage
  have hlen := readWords_length hvs
  have hlt : valueOf vs < 2 ^ 128 := memRead_lt hx
  have hvalue := biValue_tobi hlen
  obtain ⟨hok, -⟩ := magnitude_of_value_in_range (hdr := 0x00000010) (ws := vs.reverse) (by omega) (by omega)
  have hk : (frombiImage w h 0x00000010).inside t.lmWords :=
    honly.lmWords_eq ▸ ((regionsInside_tobi w a h s).1 hRt).2
  have hR : RegionsInside (.frombi w h c) t := by rwa [RegionsInside, honly.lmWords_eq]
  obtain ⟨u, hu, hread, -, -⟩ := exec_frombi_store hR hhdr hk hws hok
  exact ⟨t, u, ht, hu, hread.trans (congrArg _ (biMagnitude_reverse hlen))⟩

/-- FROMBI then TOBI: the magnitude FROMBI stores is the image's value, and TOBI's image denotes what is stored. -/
theorem tobi_of_frombi {w : View} {h c h' : Nat} {s : State} {hdr : Word} {ws : List Word}
    (hRf : RegionsInside (.frombi w h c) s) (hRt : RegionsInside (.tobi w c h') s)
    (hk : (frombiImage w h hdr).inside s.lmWords) (hhdr : Memory.read s.lm (ea w h) = some hdr)
    (hws : readWords s.lm (ea w h + 1) (biWords (biBytes hdr)) = .ok ws) (h0 : 0 ≤ biValue hdr ws)
    (h1 : biValue hdr ws < 2 ^ 128) :
    ∃ (t u : State) (hdr' : Word) (ws' : List Word),
      exec (.frombi w h c) s = .next t ∧ exec (.tobi w c h') t = .next u ∧
      Memory.read u.lm (ea w h') = some hdr' ∧ biBytes hdr' = 16 ∧ readWords u.lm (ea w h' + 1) 4 = .ok ws' ∧
      biValue hdr' ws' = biValue hdr ws := by
  obtain ⟨hok, hvalue⟩ := magnitude_of_value_in_range h0 h1
  obtain ⟨t, ht, hread, -, honly⟩ := exec_frombi_store hRf hhdr hk hws hok
  obtain ⟨vs, hvs, hvs'⟩ := exists_readWords_of_memRead hread
  have hR : RegionsInside (.tobi w c h') t := by rwa [RegionsInside, honly.lmWords_eq]
  obtain ⟨u, hu, himage, -, -⟩ := exec_tobi hR hvs
  obtain ⟨hhdr', hws'⟩ := read_of_readWords_cons himage
  refine ⟨t, u, _, _, ht, hu, hhdr', by decide, hws', ?_⟩
  rw [biValue_tobi (readWords_length hvs), hvs', hvalue]

/-- Settles O30: neither direction needs T and D, or T and X, to lie apart, since each command reads before it writes. -/
theorem conversionRoundTrips : Obligations.ConversionRoundTrips := by
  refine ⟨fun w a h c s x ha hh hc _ hx => ?_, fun w h c h' s hdr ws hk hc hh' hhdr hws h0 h1 => ?_⟩
  · exact frombi_of_tobi ((regionsInside_tobi w a h s).2 ⟨ha, hh⟩)
      ((regionsInside_frombi w h c s).2 ⟨by omega, hc⟩) hx
  · exact tobi_of_frombi ((regionsInside_frombi w h c s).2 ⟨by omega, hc⟩)
      ((regionsInside_tobi w c h' s).2 ⟨hc, hh'⟩) hk hhdr hws h0 h1

end Sys2Proof.Machine
end

section
/-! Proofs. The fault record (60_exceptions.md R231 to R236): which faults are recorded, in what order they are looked for,
and that a command that faults leaves nothing but its record. -/

namespace Sys2Proof.Machine

/-! ## What a fault leaves -/

/-- Settles O39: with ERR = 0 before, ERR = 1 after tells the fault record from the commit. -/
theorem faultsArePrecise : Obligations.FaultsArePrecise := by
  intro cw s t he h ht
  obtain ⟨m, v, -, rfl⟩ | ⟨k, h1, h4, rfl⟩ := runWord_next h
  · exact absurd ht (by simp [he])
  · exact ⟨rfl, rfl, rfl, h1, h4, rfl⟩

/-! ## The decoder's faults and ADDR_RANGE -/

/-- With a region past the end of LM, a word that decodes records ADDR_RANGE with itself. -/
theorem runWord_outside {cw : DWord} {i : Instr} {s : State} (hd : decode cw = .ok i) (hR : ¬ RegionsInside i s) :
    runWord cw s = .next (takeFault causeAddrRange cw s) := by
  rw [runWord_ok hd, exec_outside hR, encode_of_decode hd]

/-- Settles O41: neither the decoder nor the region checks read LM. -/
theorem faultOrderOfOneCommand : Obligations.FaultOrderOfOneCommand := fun _ s =>
  ⟨fun h => runWord_error h s, fun h => runWord_error h s, fun _ => runWord_outside⟩

/-- Settles O7: the commit edge runs the word in flight, and running a word that does not decode is its fault record. -/
theorem stepRecordsDecodeFault : Obligations.StepRecordsDecodeFault := by
  intro s f e hf hc hp hr hd
  rw [step_commit hf hc hp hr, runWord_error hd]
  cases e <;> rfl

/-! ## RANGE_VIOLATION -/

theorem causeAddrRange_ne_causeRangeViolation : causeAddrRange ≠ causeRangeViolation := by decide

theorem decodeCause_ne_causeRangeViolation (e : DecodeError) : decodeCause e ≠ causeRangeViolation := by
  cases e <;> decide

/-- A body that leaves the fault record to the region checks: it commits, or reads an operand word without a value. -/
def RaisesNoFault (s : State) : Except Stop State → Prop
  | .ok t => t.err = s.err
  | .error (.cause _) => False
  | .error (.unwritten _) => True

/-- Every command but FROMBI runs such a body. -/
theorem exec_eq_command_of_not_frombi {i : Instr} (s : State) (hi : ∀ w a c, i ≠ .frombi w a c) :
    ∃ b, exec i s = command i s b ∧ RaisesNoFault s b := by
  have hu : ∀ j, RaisesNoFault s (.error (.unwritten j)) := fun _ => trivial
  cases i with
  | clr | clrx => exact ⟨_, rfl, rfl⟩
  | sqr | iszero | isone | getbit | tobi => exact ⟨_, rfl, withOne_of hu fun _ => rfl⟩
  | add | addto | addtoc | addeach | sub | subfrom | subfromb | diff | mul | eq | gte =>
    exact ⟨_, rfl, withTwo_of hu fun _ _ => rfl⟩
  | addboth | subboth | muladd => exact ⟨_, rfl, withThree_of hu fun _ _ _ => rfl⟩
  | frombi w a c => exact absurd rfl (hi w a c)

/-- The only fault that the execution of another command than FROMBI raises is ADDR_RANGE. -/
theorem exec_cause_of_not_frombi {i : Instr} {s t : State} (hi : ∀ w a c, i ≠ .frombi w a c) (he : s.err = false)
    (h : exec i s = .next t) (ht : t.err = true) : t.cause = causeAddrRange := by
  obtain ⟨b, hb, hkeep⟩ := exec_eq_command_of_not_frombi s hi
  obtain ⟨-, rfl⟩ | ⟨-, rfl⟩ | ⟨-, k, rfl, -⟩ := command_next (hb ▸ h)
  · have herr : t.err = s.err := hkeep
    simp [herr, he] at ht
  · rfl
  · exact hkeep.elim

/-- FROMBI refuses an image only if its value is no Nat128 (R211, R214). -/
theorem value_out_of_range {hdr : Word} {ws : List Word}
    (h : (biSign hdr = true ∧ biMagnitude (biBytes hdr) ws ≠ 0) ∨ 2 ^ 128 ≤ biMagnitude (biBytes hdr) ws) :
    biValue hdr ws < 0 ∨ 2 ^ 128 ≤ biValue hdr ws := by
  by_contra hv
  obtain ⟨h0, h1⟩ := not_or.1 hv
  exact (magnitude_of_value_in_range (not_lt.1 h0) (not_le.1 h1)).1 h

/-- A negative value has the sign and a magnitude. -/
theorem sign_of_value_neg {hdr : Word} {ws : List Word} (h : biValue hdr ws < 0) :
    biSign hdr = true ∧ biMagnitude (biBytes hdr) ws ≠ 0 := by
  unfold biValue at h
  split_ifs at h with hs
  · exact ⟨hs, by omega⟩
  · omega

/-- FROMBI raises RANGE_VIOLATION only for the value of an image that it has read. -/
theorem execFrombi_rangeViolation {w : View} {a c : Nat} {s t : State} (he : s.err = false)
    (h : execFrombi w a c s = .next t) (ht : t.err = true) (hk : t.cause = causeRangeViolation) :
    ∃ hdr ws, Memory.read s.lm (ea w a) = some hdr ∧ readWords s.lm (ea w a + 1) (biWords (biBytes hdr)) = .ok ws ∧
      (biValue hdr ws < 0 ∨ 2 ^ 128 ≤ biValue hdr ws) := by
  by_cases hR : RegionsInside (.frombi w a c) s
  · obtain ⟨j, h'⟩ | ⟨hdr, hhdr, ⟨-, h'⟩ | ⟨-, ws, hws, h'⟩⟩ := execFrombi_cases w a c s hR <;> rw [h'] at h
    · cases h
    · cases h
      exact absurd hk causeAddrRange_ne_causeRangeViolation
    · refine ⟨hdr, ws, hhdr, hws, ?_⟩
      by_contra hv
      rw [frombiCommit_store (mt value_out_of_range hv)] at h
      cases h
      simp [he] at ht
  · rw [execFrombi, command_outside hR] at h
    cases h
    exact absurd hk causeAddrRange_ne_causeRangeViolation

/-- Settles O40: FROMBI apart, execution raises ADDR_RANGE only, and FROMBI refuses an image by its value. -/
theorem rangeViolationOnlyByFrombi : Obligations.RangeViolationOnlyByFrombi := by
  refine ⟨fun cw s t he h ht hk => ?_, fun cw s w a c hdr ws hd ha hc hhdr hk hws hv => ?_⟩
  · cases hd : decode cw with
    | error e =>
      rw [runWord_error hd] at h
      cases h
      exact absurd hk (decodeCause_ne_causeRangeViolation e)
    | ok i =>
      rw [runWord_ok hd] at h
      by_cases hi : ∃ w a c, i = .frombi w a c
      · obtain ⟨w, a, c, rfl⟩ := hi
        obtain ⟨hdr, ws, hhdr, hws, hv⟩ := execFrombi_rangeViolation he h ht hk
        exact ⟨w, a, c, hdr, ws, rfl, hhdr, hws, hv⟩
      · have hother : ∀ w a c, i ≠ .frombi w a c := fun w a c hi' => hi ⟨w, a, c, hi'⟩
        rw [exec_cause_of_not_frombi hother he h ht] at hk
        exact absurd hk causeAddrRange_ne_causeRangeViolation
  · have hR : RegionsInside (.frombi w a c) s := (regionsInside_frombi w a c s).2 ⟨ha, hc⟩
    rw [runWord_ok hd, exec_frombi_fault hR hhdr hk hws (hv.imp_left sign_of_value_neg), encode_of_decode hd]
    rfl

end Sys2Proof.Machine
end

section
/-! Proofs. Host transfers to a block with no command in flight (60_exceptions.md R238, R239): none raises a fault, none is
refused, and a CMD_HI write while ERR = 1 issues nothing. -/

namespace Sys2Proof.Machine

/-! ## Issue while ERR = 1 -/

theorem issue_of_err {s : State} (h : s.err = true) : issue s = { s with drop := true } := by
  rw [issue, if_pos h]

/-- Settles O48: the issue that the CMD_HI write asks for sets DROP alone. -/
theorem issueWhileErrIsDiscarded : Obligations.IssueWhileErrIsDiscarded := by
  intro s v rest hr he hh
  have hst : step s = .next (setReady true (issue { s with host := rest, phase := .running, cmdHi := v })) :=
    step_write_ready hr hh
  rw [issue_of_err (by exact he)] at hst
  exact ⟨_, hst, rfl⟩

/-! ## Transfers raise no fault -/

/-- ERR is not set, CAUSE stays or is cleared, and ERRCMD stays. -/
def RecordsNoFault (s t : State) : Prop :=
  (t.err = true → s.err = true) ∧ (t.cause = s.cause ∨ t.cause = 0) ∧ t.errCmd = s.errCmd

theorem issue_recordsNoFault (s : State) : RecordsNoFault s (issue s) := by
  unfold issue
  split_ifs <;> exact ⟨id, .inl rfl, rfl⟩

theorem clearFault_recordsNoFault (s : State) : RecordsNoFault s (clearFault s) :=
  ⟨fun h => (Bool.false_ne_true h).elim, .inr rfl, rfl⟩

/-- A host write reaches the fault record through an issue or a clear only. -/
theorem busWrite_recordsNoFault (addr : BitVec 14) (v : Word) (s : State) :
    RecordsNoFault s (busWrite addr v s) := by
  have hsame : RecordsNoFault s s := ⟨id, .inl rfl, rfl⟩
  unfold busWrite
  cases portOf s.lmWords addr with
  | cmdHi => exact issue_recordsNoFault { s with cmdHi := v }
  | status =>
    dsimp only
    split_ifs
    · exact clearFault_recordsNoFault s
    · exact hsame
  | _ => exact hsame

/-- The only read without data is that of an LM word without a value (10_state.md R33). -/
theorem busRead_error {addr : BitVec 14} {s : State} {r : Fault} (h : busRead addr s = .error r) :
    ∃ i, portOf s.lmWords addr = .lm i ∧ Memory.read s.lm i = none ∧ r = .unwrittenWord i := by
  unfold busRead at h
  cases hp : portOf s.lmWords addr with
  | lm i =>
    simp only [hp] at h
    cases hv : Memory.read s.lm i with
    | none =>
      simp only [hv] at h
      cases h
      exact ⟨i, rfl, hv, rfl⟩
    | some v =>
      simp only [hv] at h
      cases h
  | _ =>
    simp only [hp] at h
    cases h

/-- A transfer completes and raises no fault, or reads an LM word without a value. -/
theorem step_transfer_cases {s : State} {t : Transfer} {rest : List HostEvent} (hr : Ready s)
    (hh : s.host = .transfer t :: rest) :
    (∃ u, step s = .next u ∧ RecordsNoFault s u) ∨
      ∃ addr i, t = .read addr ∧ portOf s.lmWords addr = .lm i ∧ Memory.read s.lm i = none ∧
        step s = .fault (.unwrittenWord i) := by
  cases t with
  | write addr v =>
    exact .inl ⟨_, step_write_ready hr hh, busWrite_recordsNoFault addr v { s with host := rest, phase := .running }⟩
  | read addr =>
    cases hv : busRead addr s with
    | ok v => exact .inl ⟨_, step_read_ready hr hh hv, id, .inl rfl, rfl⟩
    | error r =>
      have hv' : busRead addr { s with host := rest, phase := .running } = .error r := hv
      obtain ⟨i, hp, hnone, rfl⟩ := busRead_error hv
      refine .inr ⟨addr, i, rfl, hp, hnone, ?_⟩
      rw [step_transfer_ready hr hh, completeTransfer, hv']

/-- Settles O53. -/
theorem hostTransfersNeverFault : Obligations.HostTransfersNeverFault := by
  intro s t rest hr hh
  obtain ⟨u, hu, hrec⟩ | ⟨addr, i, rfl, hp, hnone, hf⟩ := step_transfer_cases hr hh
  · rw [hu]
    refine ⟨fun u' h => ?_, fun r h => ?_, fun r h => ?_⟩ <;> cases h
    exact hrec
  · rw [hf]
    refine ⟨fun u' h => ?_, fun r h => ?_, fun r h => ?_⟩ <;> cases h
    obtain ⟨haddr, hi⟩ := portOf_eq_lm hp
    exact ⟨addr, i, rfl, haddr, hi, hnone, rfl⟩

end Sys2Proof.Machine
end

section
/-! Proofs. The latency of a command (70_reset_and_hazards.md R270, R272): with no reset to come, each edge is one cycle of
the command in flight, and what the block becomes does not depend on the edge of the commit or on the host. -/

namespace Sys2Proof.Machine

/-! ## What the bus cannot change -/

/-- A state without the fields that no command sees: two states that differ in these alone run a command alike. -/
def forgetUnseen (s : State) : State := withUnseen none .running false 0 [] s

theorem runWord_forgetUnseen (cw : DWord) (s : State) :
    runWord cw (forgetUnseen s) = mapNext forgetUnseen (runWord cw s) :=
  runWord_unseen cw s none .running false 0 []

/-- The execution of a command word leaves those fields as they are. -/
theorem runWord_keepsUnseen {cw : DWord} {s u : State} (h : runWord cw s = .next u) :
    u = withUnseen s.flight s.phase s.hReady s.hRdata s.host u := by
  obtain ⟨m, v, -, rfl⟩ | ⟨k, -, -, rfl⟩ := runWord_next h <;> rfl

/-- With the command complete and the block running, only the bus is left to forget. -/
theorem forgetUnseen_eq_forgetBus {s : State} (hf : s.flight = none) (hp : s.phase = .running) :
    forgetUnseen s = forgetBus s := by
  rw [forgetUnseen, withUnseen, forgetBus, hf, hp]

theorem BusCycle.forgetUnseen_eq {s u : State} (h : BusCycle s u) : forgetUnseen u = forgetUnseen s :=
  (congrArg forgetUnseen h.2 :)

/-! ## One edge -/

/-- The host drives no reset at any coming edge. -/
def NoResetAhead (s : State) : Prop := ∀ e ∈ s.host, ∀ t : Option Transfer, e ≠ .reset t

theorem NoResetAhead.noReset {s : State} (h : NoResetAhead s) : noReset s = true := by
  unfold Machine.noReset
  split
  · rename_i t rest hh
    exact absurd rfl (h (.reset t) (by simp [hh]) t)
  · rfl

theorem sampleBus_busCycle (s : State) : BusCycle s (sampleBus s) := by
  have hcycle := leaveReset_busCycle s
  unfold sampleBus
  split
  · split_ifs
    · exact (hcycle _).readDone _
    · exact (hcycle s.host).setReady false
  · exact (hcycle s.host).setReady false
  · exact (hcycle _).setReady false
  · exact (hcycle s.host).setReady false

theorem sampleBus_phase {s : State} (h : s.phase ≠ .unreset) : (sampleBus s).phase = .running := by
  unfold sampleBus
  split
  · split_ifs <;> simp [h]
  all_goals simp [h]

/-- The bus cycle takes at most the first of the host's events. -/
theorem sampleBus_host_subset (s : State) : (sampleBus s).host ⊆ s.host := by
  unfold sampleBus
  split
  · rename_i hh
    split_ifs <;> simp [hh]
  · simp
  · rename_i hh
    simp [hh]
  · simp

/-- What becomes of the block, the unseen fields apart, once its command in flight has committed. -/
def committed (f : Flight) (s : State) : Host.Outcome State Fault Refusal :=
  if f.done then .next (forgetUnseen s) else runWord f.word (forgetUnseen s)

theorem committed_congr (f : Flight) {s t : State} (h : forgetUnseen t = forgetUnseen s) :
    committed f t = committed f s := by
  rw [committed, committed, h]

/-- One cycle of the command in flight does not change what becomes of the block; the last one leaves it so. -/
theorem advance_committed {s w : State} {f : Flight} (hf : s.flight = some f) (hw : committed f s = .next w) :
    ∃ t d, advance s = .next t ∧ t.phase = s.phase ∧ t.host = s.host ∧
      t.flight = (if f.remaining ≤ 1 then none else some { f with remaining := f.remaining - 1, done := d }) ∧
      committed { f with remaining := f.remaining - 1, done := d } t = .next w ∧
      (f.remaining ≤ 1 → forgetUnseen t = w) := by
  cases hc : f.commitsNow with
  | true =>
    have hd : f.done = false := by simp_all [Flight.commitsNow]
    rw [committed, hd, if_neg Bool.false_ne_true, runWord_forgetUnseen] at hw
    obtain ⟨u, hu, rfl⟩ := mapNext_next hw
    have hkeep := runWord_keepsUnseen hu
    refine ⟨tick f true u, true, ?_, ?_, ?_, rfl, rfl, fun _ => rfl⟩
    · rw [advance_commit hf hc, hu]; rfl
    · rw [hkeep]; rfl
    · rw [hkeep]; rfl
  | false =>
    refine ⟨tick f f.done s, f.done, advance_wait hf hc, rfl, rfl, rfl, hw, fun h1 => ?_⟩
    have hd : f.done = true := by
      have hlead : f.done = false → f.lead + 1 < f.remaining := by simpa [Flight.commitsNow] using hc
      cases hd : f.done with
      | true => rfl
      | false => exact absurd (hlead hd) (by omega)
    rw [committed, hd, if_pos rfl] at hw
    cases hw
    rfl

/-! ## The cycles of a command -/

/-- The block `t` has `n` cycles of its command to go and then is `w`, the bus apart. -/
inductive Progress (w : State) : Nat → State → Prop
  | complete {t : State} : forgetBus t = w → Progress w 0 t
  | flying {n : Nat} {t : State} {f : Flight} : t.phase ≠ .unreset → NoResetAhead t → t.flight = some f →
      f.remaining = n + 1 → committed f t = .next w → Progress w (n + 1) t

namespace Progress

variable {w t : State} {n : Nat}

theorem busy (h : Progress w (n + 1) t) : busy t = true := by
  cases h with
  | flying _ _ hf _ _ => rw [Machine.busy, hf]; rfl

/-- An edge is one cycle, whatever the host drives at it but a reset. -/
theorem step (h : Progress w (n + 1) t) : ∃ t', step t = .next t' ∧ Progress w n t' := by
  cases h with
  | @flying _ _ f hp hh hf hrem hw =>
    have hcycle := sampleBus_busCycle t
    have hw' : committed f (sampleBus t) = .next w := (committed_congr f hcycle.forgetUnseen_eq).trans hw
    obtain ⟨t', d, ha, hphase, hhost, hflight, hnext, hlast⟩ :=
      advance_committed (hcycle.flight.trans hf) hw'
    have hrun : t'.phase = .running := hphase.trans (sampleBus_phase hp)
    refine ⟨t', (step_busy hf hp hh.noReset).trans ha, ?_⟩
    cases n with
    | zero =>
      rw [if_pos hrem.le] at hflight
      exact .complete ((forgetUnseen_eq_forgetBus hflight hrun).symm.trans (hlast hrem.le))
    | succ n =>
      rw [if_neg (by omega)] at hflight
      refine .flying (by simp [hrun]) (fun e he => hh e ?_) hflight (by simp [hrem]) hnext
      exact sampleBus_host_subset t (hhost ▸ he)

end Progress

/-! ## Runs -/

theorem core_run_succ {M : Host.Core} {s t : M.State} (h : M.step s = .next t) (k : Nat) :
    M.run (k + 1) s = M.run k t := by
  rw [Host.Core.run, h]

theorem core_run_succ_next {M : Host.Core} {s t : M.State} {k : Nat} (h : M.run (k + 1) s = .next t) :
    ∃ s', M.step s = .next s' ∧ M.run k s' = .next t := by
  rw [Host.Core.run] at h
  cases hs : M.step s with
  | next s' => rw [hs] at h; exact ⟨s', rfl, h⟩
  | fault r => rw [hs] at h; cases h
  | refused r => rw [hs] at h; cases h

theorem Progress.run {w t : State} {n : Nat} (k : Nat) (h : Progress w (n + k) t) :
    ∃ v : State, Host.Core.run Sys2Proof.core k t = .next v ∧ Progress w n v := by
  induction k generalizing t with
  | zero => exact ⟨t, rfl, h⟩
  | succ k ih =>
    obtain ⟨t', ht, h'⟩ := h.step
    obtain ⟨v, hv, hn⟩ := ih h'
    exact ⟨v, (core_run_succ (M := Sys2Proof.core) ht k).trans hv, hn⟩

/-- A newly issued command has LAT(op) cycles to go. -/
theorem progress_newFlight {s u : State} {cw : DWord} {d : Nat} (hf : s.flight = some (newFlight cw d))
    (hh : NoResetAhead s) (hp : s.phase ≠ .unreset) (hu : runWord cw (sampleBus s) = .next u) :
    Progress (forgetBus { u with flight := none }) (Config.lat (fieldsOf cw).op) s := by
  have hrun : u.phase = .running := by
    rw [runWord_keepsUnseen hu]
    exact sampleBus_phase hp
  have hw : runWord cw (forgetUnseen s) = .next (forgetBus { u with flight := none }) := by
    have hend : forgetUnseen { u with flight := none } = forgetBus { u with flight := none } :=
      forgetUnseen_eq_forgetBus rfl hrun
    rw [← (sampleBus_busCycle s).forgetUnseen_eq, runWord_forgetUnseen, hu, ← hend]
    rfl
  exact .flying hp hh hf rfl hw

/-! ## An idle bus -/

/-- The bus outputs and the stimulus, with `dat` the data of the last read, at an edge that the host leaves idle. -/
def IdleBus (dat : Word) (s : State) : Prop := s.host = [] ∧ s.hReady = false ∧ s.hRdata = dat

theorem advance_idleBus {dat : Word} {s t : State} (hs : IdleBus dat s) (h : advance s = .next t) : IdleBus dat t := by
  rw [advance_frame h]
  exact hs

theorem sampleBus_nil {s : State} (hh : s.host = []) :
    sampleBus s = setReady false (leaveReset { s with host := [] }) := by
  have hs : { s with host := [] } = s := by rw [← hh]
  rw [hs, sampleBus, hh]

theorem sampleBus_idleBus {s : State} (hh : s.host = []) : IdleBus s.hRdata (sampleBus s) := by
  rw [sampleBus_nil hh]
  exact ⟨rfl, rfl, rfl⟩

theorem step_idleBus {s t : State} (hh : s.host = []) (h : step s = .next t) : IdleBus s.hRdata t := by
  rw [step_nil hh, idleEdge, ← sampleBus_nil hh] at h
  exact advance_idleBus (sampleBus_idleBus hh) h

theorem run_idleBus {s t : State} {k : Nat} (hh : s.host = [])
    (h : Host.Core.run Sys2Proof.core (k + 1) s = .next t) : IdleBus s.hRdata t := by
  induction k generalizing s with
  | zero =>
    obtain ⟨s', hs, h'⟩ := core_run_succ_next h
    cases h'
    exact step_idleBus hh hs
  | succ k ih =>
    obtain ⟨s', hs, h'⟩ := core_run_succ_next h
    obtain ⟨hh', -, hdat⟩ := step_idleBus hh hs
    exact hdat ▸ ih hh' h'

theorem IdleBus.eq_forgetBus {dat : Word} {s : State} (h : IdleBus dat s) : s = { forgetBus s with hRdata := dat } := by
  obtain ⟨hh, hready, hdat⟩ := h
  rw [forgetBus, ← hh, ← hready, ← hdat]

/-- Two states that agree but for the bus are equal when both are on an idle bus. -/
theorem IdleBus.eq_of_forgetBus_eq {dat : Word} {s t : State} (hs : IdleBus dat s) (ht : IdleBus dat t)
    (h : forgetBus s = forgetBus t) : s = t := by
  rw [hs.eq_forgetBus, ht.eq_forgetBus, h]

/-- Settles O9, by the cycles that the command has to go. -/
theorem commandCompletesAfterLatency : Obligations.CommandCompletesAfterLatency := by
  intro s u cw d hf hh hp hu
  have hprog := progress_newFlight hf hh hp hu
  refine ⟨?_, fun k hk => ?_⟩
  · obtain ⟨v, hv, ⟨hw⟩⟩ := Progress.run (n := 0) (Config.lat (fieldsOf cw).op) (by rwa [Nat.zero_add])
    refine ⟨v, hv, hw, fun hnil => (run_idleBus hnil hv).eq_of_forgetBus_eq ?_ hw⟩
    rw [runWord_keepsUnseen hu]
    exact sampleBus_idleBus hnil
  · obtain ⟨n, hn⟩ := Nat.exists_eq_add_of_lt hk
    have hn' : Config.lat (fieldsOf cw).op = n + 1 + k := by omega
    obtain ⟨v, hv, hgo⟩ := Progress.run k (hn' ▸ hprog)
    exact ⟨v, hv, hgo.busy⟩

end Sys2Proof.Machine
end

section
/-! Proofs. Reset and the interlock (70_reset_and_hazards.md R261 to R270): what a reset edge leaves, and that a host transfer
does not disturb the command in flight. -/

namespace Sys2Proof.Machine

/-! ## The bus while a command is in flight -/

/-- A STATUS read completes with the state before the edge (notes/assumptions/12.md). -/
theorem sampleBus_statusRead {s : State} {rest : List HostEvent}
    (hh : s.host = .transfer (.read statusAddr) :: rest) :
    sampleBus s = readDone (statusWord s) (leaveReset { s with host := rest }) := by
  rw [sampleBus, hh]
  exact if_pos rfl

/-- Every other transfer is held. -/
theorem sampleBus_held {s : State} {t : Transfer} {rest : List HostEvent} (hh : s.host = .transfer t :: rest)
    (ht : t ≠ .read statusAddr) : sampleBus s = setReady false (leaveReset s) := by
  rw [sampleBus, hh]
  cases t with
  | read addr => exact if_neg fun h => ht (congrArg Transfer.read h)
  | write addr v => rfl

theorem BusCycle.forgetBus_eq {s u : State} (h : BusCycle s u) : forgetBus u = forgetBus { s with phase := u.phase } :=
  (congrArg forgetBus h.2 :)

/-- Whatever the host drives but a reset, the command in flight finds the same block, the bus apart. -/
theorem forgetBus_sampleBus {s : State} (hp : s.phase ≠ .unreset) :
    forgetBus (sampleBus s) = forgetBus { s with phase := .running } := by
  rw [(sampleBus_busCycle s).forgetBus_eq, sampleBus_phase hp]

theorem runWord_forgetBus (cw : DWord) (s : State) : runWord cw (forgetBus s) = mapNext forgetBus (runWord cw s) := by
  have hunseen := runWord_unseen cw s s.flight s.phase false 0 []
  refine hunseen.trans ?_
  cases hr : runWord cw s with
  | next u =>
    have hkeep := runWord_keepsUnseen hr
    exact congrArg Host.Outcome.next (congrArg forgetBus hkeep :).symm
  | fault r => rfl
  | refused r => rfl

/-- The command in flight sees nothing of the bus. -/
theorem advance_forgetBus (s : State) : advance (forgetBus s) = mapNext forgetBus (advance s) := by
  cases hf : s.flight with
  | none => rw [advance_none hf, advance_none (s := forgetBus s) hf]; rfl
  | some f =>
    cases hc : f.commitsNow with
    | false => rw [advance_wait hf hc, advance_wait (s := forgetBus s) hf hc]; rfl
    | true =>
      rw [advance_commit hf hc, advance_commit (s := forgetBus s) hf hc, runWord_forgetBus]
      cases runWord f.word s <;> rfl

/-- The command in flight leaves the bus and the command registers as they are. -/
theorem advance_keepsBus {s t : State} (h : advance s = .next t) :
    t.hReady = s.hReady ∧ t.hRdata = s.hRdata ∧ t.host = s.host ∧ t.cmdLo = s.cmdLo ∧ t.cmdHi = s.cmdHi := by
  rw [advance_frame h]
  exact ⟨rfl, rfl, rfl, rfl, rfl⟩

theorem exists_flight_of_busy {s : State} (hb : busy s = true) : ∃ f, s.flight = some f :=
  Option.isSome_iff_exists.1 hb

theorem noReset_of_transfer {s : State} {t : Transfer} {rest : List HostEvent} (hh : s.host = .transfer t :: rest) :
    noReset s = true := by
  rw [noReset, hh]

/-- With a command in flight the outcome of an edge, the bus apart, is that of the command on the block without a bus. -/
theorem forgetBus_step_busy {s : State} (hb : busy s = true) (hp : s.phase ≠ .unreset) (hr : noReset s = true) :
    mapNext forgetBus (step s) = advance (forgetBus { s with phase := .running }) := by
  obtain ⟨f, hf⟩ := exists_flight_of_busy hb
  rw [step_busy hf hp hr, ← advance_forgetBus, forgetBus_sampleBus hp]

/-- Settles O8: a command in flight runs on what the bus cycle leaves, which differs from the block before the edge in the
bus alone. -/
theorem interlockHoldsTransfers : Obligations.InterlockHoldsTransfers := by
  refine ⟨fun s u t rest hb hp hh hu => ?_, fun s hb hp hr => ?_, fun s f hf hc hp hr => ?_⟩
  · obtain ⟨f, hf⟩ := exists_flight_of_busy hb
    rw [step_busy hf hp (noReset_of_transfer hh)] at hu
    obtain ⟨hready, hdata, hhost, hlo, hhi⟩ := advance_keepsBus hu
    split_ifs with ht
    · subst ht
      rw [sampleBus_statusRead hh] at hready hdata hhost
      obtain ⟨hbusy, -⟩ := statusWord_fields s
      exact ⟨hready, hhost, hdata, (congrArg (·.getLsbD 0) hdata).trans (hbusy.trans hb)⟩
    · rw [sampleBus_held hh ht] at hready hhost hlo hhi
      exact ⟨hready, hhost, hlo, hhi⟩
  · rw [forgetBus_step_busy hb hp hr]
    exact (forgetBus_step_busy (s := { s with host := [] }) hb hp rfl).symm
  · have hcycle := sampleBus_busCycle s
    refine ⟨tick f f.done (sampleBus s), ?_, rfl, ?_⟩
    · rw [step_busy hf hp hr, advance_wait (hcycle.flight.trans hf) hc]
    · exact (congrArg (withUnseen s.flight s.phase s.hReady s.hRdata s.host) hcycle.2 :)

/-! ## A reset edge -/

theorem scrambleWords_sameOutside (r : Region) (s : State) : SameOutside [r] s.lm (scrambleWords r.addr r.len s).lm :=
  fun j hj => (scrambleWords_frame r.addr r.len s).1 j (hj r List.mem_cons_self)

theorem scrambleRegions_sameOutside (rs : List Region) (s : State) :
    SameOutside rs s.lm (scrambleRegions rs s).lm := by
  induction rs generalizing s with
  | nil => exact fun _ _ => rfl
  | cons r rs ih =>
    intro j hj
    obtain ⟨hr, hrs⟩ := List.forall_mem_cons.1 hj
    have hfirst := scrambleWords_sameOutside r s j (by simpa using hr)
    exact (ih (scrambleWords r.addr r.len s) j hrs).trans hfirst

/-- With no command in flight there is none to abandon. -/
theorem abandon_none {s : State} (hf : s.flight = none) : abandon s = s := by
  rw [abandon, hf]

/-- An abandoned command leaves LM outside its destination regions (93_implementation_defined.md U2). -/
theorem abandon_sameOutside {s : State} {f : Flight} {i : Instr} (hf : s.flight = some f)
    (hd : decode f.word = .ok i) : SameOutside (destRegions i) s.lm (abandon s).lm := by
  simp only [abandon, hf, hd]
  exact scrambleRegions_sameOutside (destRegions i) s

/-- A word that is no command has no destination (notes/assumptions/8.md). -/
theorem abandon_undecoded {s : State} {f : Flight} {e : DecodeError} (hf : s.flight = some f)
    (hd : decode f.word = .error e) : abandon s = { s with flight := none } := by
  simp only [abandon, hf, hd]

/-- The only LM words that a reset edge writes are those of the abandoned command. -/
theorem resetEdge_lm (t : Option Transfer) (rest : List HostEvent) (s : State) :
    (resetEdge t rest s).lm = (abandon { s with host := rest }).lm := by
  obtain ⟨rdy, dat, d, ht⟩ := resetTransfer_eq t s (resetRegisters (abandon { s with host := rest }))
  rw [resetEdge, ht, resetRegisters_lm]

/-- A read while `rst` stays 1 returns 0 (notes/assumptions/9.md). -/
theorem resetEdge_read_hRdata {s : State} (hp : s.phase = .resetHeld) (addr : BitVec 14) (rest : List HostEvent) :
    (resetEdge (some (.read addr)) rest s).hRdata = 0 := by
  rw [resetEdge, resetTransfer, if_pos hp, readDone_hRdata]

/-- A reset edge with neither a command in flight nor a transfer leads to the state right after reset, with LM kept and what
stands beside the block. -/
theorem resetEdge_quiet {s : State} (hf : s.flight = none) (rest : List HostEvent) :
    resetEdge none rest s = { State.resetOf s.lmWords with
      lm := s.lm, hRdata := s.hRdata, host := rest, draws := s.draws } := by
  have habandon : abandon { s with host := rest } = { s with host := rest, flight := none } :=
    (abandon_none (s := { s with host := rest }) hf).trans (by rw [← hf])
  rw [resetEdge, habandon]
  rfl

/-- Settles O55: every field but LM is that of the state after reset, and LM is what abandoning the command leaves. -/
theorem resetEdgeKeepsLm : Obligations.ResetEdgeKeepsLm := by
  intro s tr rest hh
  have hlm := resetEdge_lm tr rest s
  have hread : ∀ addr, tr = some (.read addr) → s.phase = .resetHeld → (resetEdge tr rest s).hRdata = 0 := by
    rintro addr rfl hp
    exact resetEdge_read_hRdata hp addr rest
  refine ⟨resetEdge tr rest s, step_reset hh, ?_⟩
  obtain ⟨m, rdy, dat, d, -, he⟩ := resetEdge_eq tr rest s
  rw [he] at hlm hread ⊢
  refine ⟨rfl, rfl, rfl, rfl, rfl, rfl, rfl, rfl, idWord_congr rfl, rfl, rfl, fun hf => ?_, fun f i hf hd => ?_,
    fun f e hf hd => ?_, hread⟩
  all_goals rw [hlm]
  · rw [abandon_none (s := { s with host := rest }) hf]
  · exact abandon_sameOutside (s := { s with host := rest }) hf hd
  · rw [abandon_undecoded (s := { s with host := rest }) hf hd]

/-! ## Power-up -/

/-- A transfer before the first reset is refused (93_implementation_defined.md U11). -/
theorem step_transfer_unreset {s : State} {t : Transfer} {rest : List HostEvent} (hp : s.phase = .unreset)
    (hh : s.host = .transfer t :: rest) : step s = .refused .beforeFirstReset := by
  rw [step_transfer hh, transferEdge, if_pos hp]

/-- Settles O56: at power-up no command is in flight and no LM word has a value. -/
theorem powerUpNeedsReset : Obligations.PowerUpNeedsReset := by
  intro n t rest
  have hfirst : step (powerUp n (.reset none :: rest)) = .next (resetEdge none rest (powerUp n (.reset none :: rest))) :=
    step_reset rfl
  rw [resetEdge_quiet rfl] at hfirst
  exact ⟨step_transfer_unreset rfl rfl, _, hfirst, rfl⟩

end Sys2Proof.Machine
end
